-- ==== Sys2Proof/Word.lean ====
section
/-! DEFINITION. The words the CORE moves (spec/00_scope.md R5, R6; spec/10_state.md R17 to R25; spec/30_encoding.md R61). Every one
is unsigned. Counters (`LEN_W` bits), symbols inside trees, lengths and distances are counts and are `Nat`. -/

namespace Sys2Proof

/-- A 64-bit command word (R61). -/
abbrev CmdWord := BitVec 64

/-- One byte of `IN` or `OUT` (R25, R40). -/
abbrev Byte := BitVec 8

/-- One element of `SYM`, `SYM_W` = 16 bits (R5, R25). -/
abbrev Sym := BitVec 16

/-- One frequency, `FREQ_W` = 32 bits (R5, R19). -/
abbrev Freq := BitVec 32

end Sys2Proof
end

