-- ==== Sys2Proof/Config.lean ====
section
/-! DEFINITION. The open parameters of one instance of the CORE (spec/00_scope.md R5, spec/10_state.md R13, spec/92_eei_decisions.md
D5, D37). The spec leaves exactly five of them open. They are fixed for the machine: the state carries them as the plain data
field `State.cfg`, which no step changes, so that a statement about every state is a statement about every choice of them
(log entry 1). -/

namespace Sys2Proof

/-- The parameters the spec leaves open (R5): the width of a counter and the capacities of four buffers; `none` is a buffer
with no capacity of its own, which R5 allows. -/
structure Config where
  /-- `LEN_W`, the width of `BS.len`, `BS.rpos`, buffer lengths and error offsets: default 64 (R5, R13). -/
  lenW : Nat
  /-- `IN_CAP`. -/
  inCap : Option Nat
  /-- `OUT_CAP`. -/
  outCap : Option Nat
  /-- `SYM_CAP`. -/
  symCap : Option Nat
  /-- `TOK_CAP`. -/
  tokCap : Option Nat
  deriving DecidableEq, Repr

/-- The parameters at reset: `LEN_W` = 64, the spec's default (R5), and no capacity (R5: "the model may take them unbounded";
log entry 1). -/
def Config.standard : Config :=
  { lenW := 64, inCap := none, outCap := none, symCap := none, tokCap := none }

end Sys2Proof
end

