-- ==== Sys2Proof/Syntax.lean ====
section
/-! DEFINITION. What the CORE interprets (spec/30_encoding.md): the nineteen command words (R60 to R62) and the elements of a
DEFLATE stream (R66 to R79). One constructor per row of spec/opcode_table.json. Operands are the unsigned values of their
fields (R62); the extra bits of a stream element are read from the stream when the element is performed. -/

namespace Sys2Proof

/-- A pack order (R8): `LSB` = 0, the least significant bit enters the stream first; `MSB` = 1, the most significant first. -/
inductive Order where
  | lsb
  | msb
  deriving DecidableEq, Repr

/-- The commands of R60 and the stream elements of R66 to R79, in the order of the opcode table. -/
inductive Instr where
  -- system commands (spec/44_system.md)
  | reset
  | rdreg (r : BitVec 8)
  | wrreg (r : BitVec 8) (val : BitVec 32)
  | ldbuf (b : BitVec 8) (n : BitVec 32)
  | rdbuf (b : BitVec 8)
  -- BitStream commands (spec/40_bitstream.md)
  | bsClear
  | bsLoad (bitlen : BitVec 32)
  | bsPush (bit : BitVec 8)
  | bsPushbits (value : BitVec 32) (count : BitVec 8) (order : Order)
  | bsRead
  | bsReadbits (count : BitVec 8) (order : Order)
  | bsTobytes
  -- HuffmanTree commands (spec/41_huffman.md)
  | hufCount
  | hufBuild
  | hufEncode
  | hufDecode (count : BitVec 32)
  -- MatchFinder command (spec/42_matchfinder.md)
  | lzScan
  -- BlockCodec commands (spec/43_blockcodec.md)
  | inflate
  | deflate (mode : BitVec 8)
  -- block headers (R66, R67); the operand is BFINAL
  | blockStored (bfinal : Bool)
  | blockFixed (bfinal : Bool)
  | blockDynamic (bfinal : Bool)
  | blockReserved (bfinal : Bool)
  -- literal/length symbols (R69, R71, R72, R79)
  | llLiteral (byte : Byte)
  | llEob
  | llLen257
  | llLen258
  | llLen259
  | llLen260
  | llLen261
  | llLen262
  | llLen263
  | llLen264
  | llLen265
  | llLen266
  | llLen267
  | llLen268
  | llLen269
  | llLen270
  | llLen271
  | llLen272
  | llLen273
  | llLen274
  | llLen275
  | llLen276
  | llLen277
  | llLen278
  | llLen279
  | llLen280
  | llLen281
  | llLen282
  | llLen283
  | llLen284
  | llLen285
  | llReserved286
  | llReserved287
  -- distance symbols (R74, R79)
  | dDist0
  | dDist1
  | dDist2
  | dDist3
  | dDist4
  | dDist5
  | dDist6
  | dDist7
  | dDist8
  | dDist9
  | dDist10
  | dDist11
  | dDist12
  | dDist13
  | dDist14
  | dDist15
  | dDist16
  | dDist17
  | dDist18
  | dDist19
  | dDist20
  | dDist21
  | dDist22
  | dDist23
  | dDist24
  | dDist25
  | dDist26
  | dDist27
  | dDist28
  | dDist29
  | dReserved30
  | dReserved31
  -- code-length symbols (R78)
  | clLength (len : BitVec 4)
  | clRep16
  | clRep17
  | clRep18
  deriving DecidableEq, Repr

end Sys2Proof
end

