-- ==== Sys2Proof/WellFormed.lean ====
section
/-! DEFINITION. Well-formed instructions: the operand ranges of spec/30_encoding.md R62 and R63. A command whose operand is outside
its range is refused by its meaning (spec/60_exceptions.md R203, R204); `BS.PUSH` takes every 8-bit operand (R98), and a value
too wide for `BS.PUSHBITS` is an error of the command, not an ill-formed word (R99). A stream element has no operand that could
be out of range. -/

namespace Sys2Proof

/-- `RDREG r`: register numbers 0..11 (R62; spec/10_state.md R18). -/
def WellFormed.regReadable (r : BitVec 8) : Bool := decide (r.toNat ≤ 11)

/-- `WRREG r, val`: `WINDOW` (4) with 1..32768, `HUF_N` (5) with 1..288 (R62, R63; spec/10_state.md R17). -/
def WellFormed.regWritable (r : BitVec 8) (val : BitVec 32) : Bool :=
  (r.toNat == 4 && decide (1 ≤ val.toNat ∧ val.toNat ≤ 32768)) || (r.toNat == 5 && decide (1 ≤ val.toNat ∧ val.toNat ≤ 288))

/-- The operand ranges of R62, command by command. -/
def Instr.wellFormed : Instr → Bool
  | .rdreg r => WellFormed.regReadable r
  | .wrreg r val => WellFormed.regWritable r val
  | .ldbuf b _ => b.toNat == 0 || b.toNat == 2 || b.toNat == 4
  | .rdbuf b => decide (b.toNat ≤ 4)
  | .bsPushbits _ count _ => decide (count.toNat ≤ 32)
  | .bsReadbits count _ => decide (count.toNat ≤ 32)
  | .deflate mode => decide (mode.toNat ≤ 1)
  | .reset | .bsClear | .bsLoad _ | .bsPush _ | .bsRead | .bsTobytes | .hufCount | .hufBuild | .hufEncode
  | .hufDecode _ | .lzScan | .inflate | .blockStored _ | .blockFixed _ | .blockDynamic _ | .blockReserved _
  | .llLiteral _ | .llEob | .llLen257 | .llLen258 | .llLen259 | .llLen260 | .llLen261 | .llLen262 | .llLen263
  | .llLen264 | .llLen265 | .llLen266 | .llLen267 | .llLen268 | .llLen269 | .llLen270 | .llLen271 | .llLen272
  | .llLen273 | .llLen274 | .llLen275 | .llLen276 | .llLen277 | .llLen278 | .llLen279 | .llLen280 | .llLen281
  | .llLen282 | .llLen283 | .llLen284 | .llLen285 | .llReserved286 | .llReserved287 | .dDist0 | .dDist1 | .dDist2
  | .dDist3 | .dDist4 | .dDist5 | .dDist6 | .dDist7 | .dDist8 | .dDist9 | .dDist10 | .dDist11 | .dDist12 | .dDist13
  | .dDist14 | .dDist15 | .dDist16 | .dDist17 | .dDist18 | .dDist19 | .dDist20 | .dDist21 | .dDist22 | .dDist23
  | .dDist24 | .dDist25 | .dDist26 | .dDist27 | .dDist28 | .dDist29 | .dReserved30 | .dReserved31 | .clLength _
  | .clRep16 | .clRep17 | .clRep18 => true

end Sys2Proof
end

