-- ==== Sys2Proof/Decode.lean ====
section
/-! DEFINITION. Decoding and encoding (spec/30_encoding.md R60 to R63, R66, R67, R69, R74, R78; spec/opcode_table.json). A command
is one 64-bit word. A stream element is the value of its symbol: the 3-bit header read `LSB`, or the number a walk of a Huffman
tree gives. The decoder is total: what it rejects, it rejects by name. Operand ranges are not the decoder's: the meanings refuse
them (R200 puts both after the test of `FAILED`; the outcome is the same). -/

namespace Sys2Proof

/-- The encoding formats of the opcode table. -/
inductive Format where
  /-- `CMD64`: a 64-bit command word (R61). -/
  | cmd64
  /-- `BLKHDR`: the 3-bit block header, read `LSB` (R66). -/
  | blkHdr
  /-- `LLSYM`: a decoded literal/length symbol, 9 bits (R69). -/
  | llSym
  /-- `DSYM`: a decoded distance symbol, 5 bits (R74). -/
  | dSym
  /-- `CLSYM`: a decoded code-length symbol, 5 bits (R78). -/
  | clSym
  deriving DecidableEq, Repr

/-- How many bits the opcode table gives a row of the format. -/
def Format.bits : Format → Nat
  | .cmd64 => 64
  | .blkHdr => 3
  | .llSym => 9
  | .dSym => 5
  | .clSym => 5

/-- Why a word is no instruction (R63, R204 (a) and (b), R79). -/
inductive DecodeError where
  /-- `op` is not one of the nineteen opcodes of R60. -/
  | unknownOpcode (op : BitVec 8)
  /-- A bit of `rsv` is 1. -/
  | reservedNotZero
  /-- A field that R62 does not list for the command is not 0. -/
  | unusedFieldNotZero
  /-- A stream element's value is outside its alphabet. -/
  | outsideAlphabet (value : Nat)
  deriving DecidableEq, Repr

/-- `op`, bits 7:0 of a command word (R61). -/
def opField (w : CmdWord) : BitVec 8 := w.extractLsb' 0 8

/-- `a`, bits 15:8. -/
def aField (w : CmdWord) : BitVec 8 := w.extractLsb' 8 8

/-- `ord`, bit 16. -/
def ordField (w : CmdWord) : BitVec 1 := w.extractLsb' 16 1

/-- `rsv`, bits 31:17. -/
def rsvField (w : CmdWord) : BitVec 15 := w.extractLsb' 17 15

/-- `v`, bits 63:32. -/
def vField (w : CmdWord) : BitVec 32 := w.extractLsb' 32 32

/-- `ord` = 0 is `LSB`, 1 is `MSB` (R61). -/
def decodeOrder (o : BitVec 1) : Order := if o = 0 then .lsb else .msb

/-- The inverse of `decodeOrder`. -/
def encodeOrder : Order → BitVec 1
  | .lsb => 0
  | .msb => 1

/-- The instruction, where the fields that the command does not use are 0 (R62, R63). -/
def whenUnused (unusedAreZero : Bool) (i : Instr) : Except DecodeError Instr :=
  if unusedAreZero then .ok i else .error .unusedFieldNotZero

/-- No field is used. -/
def noField (w : CmdWord) : Bool := aField w == 0 && ordField w == 0 && vField w == 0

/-- Only `a` is used. -/
def onlyA (w : CmdWord) : Bool := ordField w == 0 && vField w == 0

/-- Only `v` is used. -/
def onlyV (w : CmdWord) : Bool := aField w == 0 && ordField w == 0

/-- The command a word stands for, `rsv` apart: the opcodes of R60 and the fields of R62. -/
def decodeOpcode (w : CmdWord) : Except DecodeError Instr :=
  match (opField w).toNat with
  | 0x01 => whenUnused (noField w) .reset
  | 0x02 => whenUnused (onlyA w) (.rdreg (aField w))
  | 0x03 => whenUnused (ordField w == 0) (.wrreg (aField w) (vField w))
  | 0x04 => whenUnused (ordField w == 0) (.ldbuf (aField w) (vField w))
  | 0x05 => whenUnused (onlyA w) (.rdbuf (aField w))
  | 0x10 => whenUnused (noField w) .bsClear
  | 0x11 => whenUnused (onlyV w) (.bsLoad (vField w))
  | 0x12 => whenUnused (onlyA w) (.bsPush (aField w))
  | 0x13 => .ok (.bsPushbits (vField w) (aField w) (decodeOrder (ordField w)))
  | 0x14 => whenUnused (noField w) .bsRead
  | 0x15 => whenUnused (vField w == 0) (.bsReadbits (aField w) (decodeOrder (ordField w)))
  | 0x16 => whenUnused (noField w) .bsTobytes
  | 0x20 => whenUnused (noField w) .hufCount
  | 0x21 => whenUnused (noField w) .hufBuild
  | 0x22 => whenUnused (noField w) .hufEncode
  | 0x23 => whenUnused (onlyV w) (.hufDecode (vField w))
  | 0x30 => whenUnused (noField w) .lzScan
  | 0x40 => whenUnused (noField w) .inflate
  | 0x41 => whenUnused (onlyA w) (.deflate (aField w))
  | _ => .error (.unknownOpcode (opField w))

/-- A command word (R61, R63). -/
def decodeCommand (w : CmdWord) : Except DecodeError Instr :=
  if rsvField w = 0 then decodeOpcode w else .error .reservedNotZero

/-- A block header, from BFINAL = `h[0]` and BTYPE = `h[2:1]` (R66, R67). -/
def decodeHeader (bfinal : Bool) (btype : Nat) : Except DecodeError Instr :=
  match btype with
  | 0 => .ok (.blockStored bfinal)
  | 1 => .ok (.blockFixed bfinal)
  | 2 => .ok (.blockDynamic bfinal)
  | 3 => .ok (.blockReserved bfinal)
  | t => .error (.outsideAlphabet t)

/-- A length symbol or a reserved symbol of the literal/length alphabet (R69, R72). -/
def decodeLengthSymbol (s : Nat) : Except DecodeError Instr :=
  match s with
  | 257 => .ok .llLen257
  | 258 => .ok .llLen258
  | 259 => .ok .llLen259
  | 260 => .ok .llLen260
  | 261 => .ok .llLen261
  | 262 => .ok .llLen262
  | 263 => .ok .llLen263
  | 264 => .ok .llLen264
  | 265 => .ok .llLen265
  | 266 => .ok .llLen266
  | 267 => .ok .llLen267
  | 268 => .ok .llLen268
  | 269 => .ok .llLen269
  | 270 => .ok .llLen270
  | 271 => .ok .llLen271
  | 272 => .ok .llLen272
  | 273 => .ok .llLen273
  | 274 => .ok .llLen274
  | 275 => .ok .llLen275
  | 276 => .ok .llLen276
  | 277 => .ok .llLen277
  | 278 => .ok .llLen278
  | 279 => .ok .llLen279
  | 280 => .ok .llLen280
  | 281 => .ok .llLen281
  | 282 => .ok .llLen282
  | 283 => .ok .llLen283
  | 284 => .ok .llLen284
  | 285 => .ok .llLen285
  | 286 => .ok .llReserved286
  | 287 => .ok .llReserved287
  | t => .error (.outsideAlphabet t)

/-- A literal/length symbol (R69). -/
def decodeLiteralLength (s : Nat) : Except DecodeError Instr :=
  if s < 256 then .ok (.llLiteral (BitVec.ofNat 8 s)) else if s = 256 then .ok .llEob else decodeLengthSymbol s

/-- A distance symbol (R74, R79). -/
def decodeDistance (d : Nat) : Except DecodeError Instr :=
  match d with
  | 0 => .ok .dDist0
  | 1 => .ok .dDist1
  | 2 => .ok .dDist2
  | 3 => .ok .dDist3
  | 4 => .ok .dDist4
  | 5 => .ok .dDist5
  | 6 => .ok .dDist6
  | 7 => .ok .dDist7
  | 8 => .ok .dDist8
  | 9 => .ok .dDist9
  | 10 => .ok .dDist10
  | 11 => .ok .dDist11
  | 12 => .ok .dDist12
  | 13 => .ok .dDist13
  | 14 => .ok .dDist14
  | 15 => .ok .dDist15
  | 16 => .ok .dDist16
  | 17 => .ok .dDist17
  | 18 => .ok .dDist18
  | 19 => .ok .dDist19
  | 20 => .ok .dDist20
  | 21 => .ok .dDist21
  | 22 => .ok .dDist22
  | 23 => .ok .dDist23
  | 24 => .ok .dDist24
  | 25 => .ok .dDist25
  | 26 => .ok .dDist26
  | 27 => .ok .dDist27
  | 28 => .ok .dDist28
  | 29 => .ok .dDist29
  | 30 => .ok .dReserved30
  | 31 => .ok .dReserved31
  | t => .error (.outsideAlphabet t)

/-- A code-length symbol (R78). -/
def decodeCodeLength (s : Nat) : Except DecodeError Instr :=
  match s with
  | 16 => .ok .clRep16
  | 17 => .ok .clRep17
  | 18 => .ok .clRep18
  | t => if t < 16 then .ok (.clLength (BitVec.ofNat 4 t)) else .error (.outsideAlphabet t)

/-- The decoder: a word of a format. -/
def decode (f : Format) (w : CmdWord) : Except DecodeError Instr :=
  match f with
  | .cmd64 => decodeCommand w
  | .blkHdr => decodeHeader (w.getLsbD 0) (w.toNat / 2)
  | .llSym => decodeLiteralLength w.toNat
  | .dSym => decodeDistance w.toNat
  | .clSym => decodeCodeLength w.toNat

/-- A command word from its fields: `op` 7:0, `a` 15:8, `ord` 16, `rsv` 31:17 = 0, `v` 63:32 (R61). -/
def packCommand (op a : BitVec 8) (ord : BitVec 1) (v : BitVec 32) : CmdWord :=
  v ++ (0 : BitVec 15) ++ ord ++ a ++ op

/-- The value of a block header: BFINAL in bit 0, BTYPE in bits 2:1 (R66). -/
def packHeader (bfinal : Bool) (btype : BitVec 2) : CmdWord :=
  ((btype ++ BitVec.ofBool bfinal : BitVec 3)).setWidth 64

/-- An encoded instruction: its format and its word. -/
structure Encoded where
  format : Format
  word : CmdWord
  deriving DecidableEq, Repr

/-- The encoder, from the encodings of R60 to R62, R66, R67, R69, R74, R78. -/
def encode : Instr → Encoded
  | .reset => ⟨.cmd64, packCommand 0x01 0 0 0⟩
  | .rdreg r => ⟨.cmd64, packCommand 0x02 r 0 0⟩
  | .wrreg r val => ⟨.cmd64, packCommand 0x03 r 0 val⟩
  | .ldbuf b n => ⟨.cmd64, packCommand 0x04 b 0 n⟩
  | .rdbuf b => ⟨.cmd64, packCommand 0x05 b 0 0⟩
  | .bsClear => ⟨.cmd64, packCommand 0x10 0 0 0⟩
  | .bsLoad bitlen => ⟨.cmd64, packCommand 0x11 0 0 bitlen⟩
  | .bsPush bit => ⟨.cmd64, packCommand 0x12 bit 0 0⟩
  | .bsPushbits value count order => ⟨.cmd64, packCommand 0x13 count (encodeOrder order) value⟩
  | .bsRead => ⟨.cmd64, packCommand 0x14 0 0 0⟩
  | .bsReadbits count order => ⟨.cmd64, packCommand 0x15 count (encodeOrder order) 0⟩
  | .bsTobytes => ⟨.cmd64, packCommand 0x16 0 0 0⟩
  | .hufCount => ⟨.cmd64, packCommand 0x20 0 0 0⟩
  | .hufBuild => ⟨.cmd64, packCommand 0x21 0 0 0⟩
  | .hufEncode => ⟨.cmd64, packCommand 0x22 0 0 0⟩
  | .hufDecode count => ⟨.cmd64, packCommand 0x23 0 0 count⟩
  | .lzScan => ⟨.cmd64, packCommand 0x30 0 0 0⟩
  | .inflate => ⟨.cmd64, packCommand 0x40 0 0 0⟩
  | .deflate mode => ⟨.cmd64, packCommand 0x41 mode 0 0⟩
  | .blockStored bfinal => ⟨.blkHdr, packHeader bfinal 0⟩
  | .blockFixed bfinal => ⟨.blkHdr, packHeader bfinal 1⟩
  | .blockDynamic bfinal => ⟨.blkHdr, packHeader bfinal 2⟩
  | .blockReserved bfinal => ⟨.blkHdr, packHeader bfinal 3⟩
  | .llLiteral byte => ⟨.llSym, byte.setWidth 64⟩
  | .llEob => ⟨.llSym, 256⟩
  | .llLen257 => ⟨.llSym, 257⟩
  | .llLen258 => ⟨.llSym, 258⟩
  | .llLen259 => ⟨.llSym, 259⟩
  | .llLen260 => ⟨.llSym, 260⟩
  | .llLen261 => ⟨.llSym, 261⟩
  | .llLen262 => ⟨.llSym, 262⟩
  | .llLen263 => ⟨.llSym, 263⟩
  | .llLen264 => ⟨.llSym, 264⟩
  | .llLen265 => ⟨.llSym, 265⟩
  | .llLen266 => ⟨.llSym, 266⟩
  | .llLen267 => ⟨.llSym, 267⟩
  | .llLen268 => ⟨.llSym, 268⟩
  | .llLen269 => ⟨.llSym, 269⟩
  | .llLen270 => ⟨.llSym, 270⟩
  | .llLen271 => ⟨.llSym, 271⟩
  | .llLen272 => ⟨.llSym, 272⟩
  | .llLen273 => ⟨.llSym, 273⟩
  | .llLen274 => ⟨.llSym, 274⟩
  | .llLen275 => ⟨.llSym, 275⟩
  | .llLen276 => ⟨.llSym, 276⟩
  | .llLen277 => ⟨.llSym, 277⟩
  | .llLen278 => ⟨.llSym, 278⟩
  | .llLen279 => ⟨.llSym, 279⟩
  | .llLen280 => ⟨.llSym, 280⟩
  | .llLen281 => ⟨.llSym, 281⟩
  | .llLen282 => ⟨.llSym, 282⟩
  | .llLen283 => ⟨.llSym, 283⟩
  | .llLen284 => ⟨.llSym, 284⟩
  | .llLen285 => ⟨.llSym, 285⟩
  | .llReserved286 => ⟨.llSym, 286⟩
  | .llReserved287 => ⟨.llSym, 287⟩
  | .dDist0 => ⟨.dSym, 0⟩
  | .dDist1 => ⟨.dSym, 1⟩
  | .dDist2 => ⟨.dSym, 2⟩
  | .dDist3 => ⟨.dSym, 3⟩
  | .dDist4 => ⟨.dSym, 4⟩
  | .dDist5 => ⟨.dSym, 5⟩
  | .dDist6 => ⟨.dSym, 6⟩
  | .dDist7 => ⟨.dSym, 7⟩
  | .dDist8 => ⟨.dSym, 8⟩
  | .dDist9 => ⟨.dSym, 9⟩
  | .dDist10 => ⟨.dSym, 10⟩
  | .dDist11 => ⟨.dSym, 11⟩
  | .dDist12 => ⟨.dSym, 12⟩
  | .dDist13 => ⟨.dSym, 13⟩
  | .dDist14 => ⟨.dSym, 14⟩
  | .dDist15 => ⟨.dSym, 15⟩
  | .dDist16 => ⟨.dSym, 16⟩
  | .dDist17 => ⟨.dSym, 17⟩
  | .dDist18 => ⟨.dSym, 18⟩
  | .dDist19 => ⟨.dSym, 19⟩
  | .dDist20 => ⟨.dSym, 20⟩
  | .dDist21 => ⟨.dSym, 21⟩
  | .dDist22 => ⟨.dSym, 22⟩
  | .dDist23 => ⟨.dSym, 23⟩
  | .dDist24 => ⟨.dSym, 24⟩
  | .dDist25 => ⟨.dSym, 25⟩
  | .dDist26 => ⟨.dSym, 26⟩
  | .dDist27 => ⟨.dSym, 27⟩
  | .dDist28 => ⟨.dSym, 28⟩
  | .dDist29 => ⟨.dSym, 29⟩
  | .dReserved30 => ⟨.dSym, 30⟩
  | .dReserved31 => ⟨.dSym, 31⟩
  | .clLength len => ⟨.clSym, len.setWidth 64⟩
  | .clRep16 => ⟨.clSym, 16⟩
  | .clRep17 => ⟨.clSym, 17⟩
  | .clRep18 => ⟨.clSym, 18⟩

/-- The format of an instruction. -/
def Instr.format (i : Instr) : Format := (encode i).format

/-- The format and the value meant by `nbits` bits of the opcode table whose value is `w`. The table gives four formats
to stream elements, whose values overlap, and no mark that tells them apart (in the machine `BC.state` does): a number of bits
that two formats share is given to the block header for its four even values, to the code-length symbol for the values 16, 17,
18, and else to the distance symbol (log entry 8). -/
def tableFormat (nbits w : Nat) : Format × Nat :=
  if nbits ≤ 8 then
    (if w < 8 ∧ w % 2 = 0 then (.blkHdr, w)
    else if 16 ≤ w ∧ w ≤ 18 then (.clSym, w)
    else (.dSym, w))
  else if nbits ≤ 16 then (.llSym, w)
  else if nbits ≤ 24 then (if w % 256 = 18 then (.clSym, w % 256) else (.dSym, w % 256))
  else if nbits ≤ 32 ∧ 24 ≤ w % 256 ∧ w % 256 < 32 then (.dSym, w % 256)
  else (.cmd64, w)

/-- The instruction the decoder reads from `nbits` bits whose value is `w` (bits above `nbits` are 0). -/
def decodeTableWord (nbits w : Nat) : Option Instr :=
  match decode (tableFormat nbits w).1 (BitVec.ofNat 64 (tableFormat nbits w).2) with
  | .ok i => some i
  | .error _ => none

end Sys2Proof
end

