-- ==== Sys2Proof/Machine/State.lean ====
section
/-! DEFINITION. The state of one instance of the CORE (spec/10_state.md), the reasons a step can stop, and the state after reset
(spec/10_state.md R29). The state is plain data. Beside the spec's own state it holds the transient state of one `INFLATE`
between its steps (R24: a run of `INFLATE` is many steps here, spec/43_blockcodec.md R150), the commands the host has handed over
and the result it is given (spec/70_reset_and_hazards.md R226; spec/30_encoding.md R64), and the machine's parameters (log entry 1). -/

namespace Sys2Proof.Machine

/-- `BC.state` (R14). -/
inductive BcState where
  | idle
  | readHeader
  | stored
  | fixedHuffman
  | dynamicHuffman
  | blockBody
  | done
  | failed
  deriving DecidableEq, Repr

/-- The six error kinds (spec/60_exceptions.md R190). -/
inductive ErrorKind where
  | invalidBitValue
  | malformedBlockHeader
  | truncatedStream
  | invalidHuffmanTree
  | symbolOutOfRange
  | windowViolation
  deriving DecidableEq, Repr

/-- A node of a tree's arena (R20): `none` is a missing child. -/
inductive Node where
  | leaf (symbol : Nat) (freq : Freq)
  | branch (freq : Freq) (left right : Option Nat)
  deriving DecidableEq, Repr

/-- An entry of a symbol table (R21): the code as a number of `length` bits; `length` = 0 means no code. -/
structure CodeEntry where
  code : Nat
  length : Nat
  deriving DecidableEq, Repr

/-- A tree context (R22). -/
structure Tree where
  built : Bool
  n : Nat
  arena : List Node
  root : Nat
  tab : List CodeEntry
  deriving DecidableEq, Repr

/-- A tree context that no command has built: its contents are unreadable (R29; log entry 3). -/
def Tree.unbuilt : Tree := { built := false, n := 0, arena := [], root := 0, tab := [] }

/-- A token (R23): a literal byte, or a match of a length and a distance. -/
inductive Token where
  | literal (b : Byte)
  | backRef (length distance : Nat)
  deriving DecidableEq, Repr

/-- What the host issues (R226): a command word, and the payload of `LDBUF` beside it (spec/30_encoding.md R61). -/
structure HostCommand where
  word : CmdWord
  payload : List Nat
  deriving DecidableEq, Repr

/-- A value returned with `Ok` (spec/30_encoding.md R64). -/
inductive Value where
  /-- No value. -/
  | nothing
  /-- `RDREG` and `BS.READBITS`. -/
  | number (n : Nat)
  /-- `BS.READ`. -/
  | bit (b : Bool)
  /-- `BS.TOBYTES` and `RDBUF`: the elements in order. -/
  | elements (xs : List Nat)
  deriving DecidableEq, Repr

/-- What the last command returned (spec/30_encoding.md R64). -/
inductive Result where
  /-- No command has returned since power-on, or an `INFLATE` is running. -/
  | pending
  /-- `Ok`, with the value. -/
  | ok (v : Value)
  /-- `Error(kind)`. -/
  | error (k : ErrorKind)
  /-- `Refused` (spec/60_exceptions.md R203). -/
  | refused
  deriving DecidableEq, Repr

/-- The state of an instance. The doc comment of a field names the spec's name and rule. -/
structure State where
  /-- The machine's parameters (spec/00_scope.md R5): constant, no step changes them. -/
  cfg : Config
  /-- `BS.bits` (R11), the oldest bit first. -/
  bits : List Bool
  /-- `BS.rpos` (R11). -/
  rpos : Nat
  /-- `BC.state` (R14). -/
  bcState : BcState
  /-- `BC.bfinal` (R14). -/
  bfinal : Bool
  /-- `BC.btype` (R14). -/
  btype : BitVec 2
  /-- `BC.out_valid` (R14). -/
  outValid : Nat
  /-- `ERR_KIND` (R16): `none` is the code 0. -/
  errKind : Option ErrorKind
  /-- `ERR_BITOFF` (R16). -/
  errBitOff : Nat
  /-- `ERR_BYTEOFF` (R16). -/
  errByteOff : Nat
  /-- `WINDOW` (R17). -/
  window : BitVec 16
  /-- `HUF_N` (R17). -/
  hufN : BitVec 9
  /-- `FREQ` (R19). -/
  freq : List Freq
  /-- `T_USER` (R22). -/
  tUser : Tree
  /-- `T_CL` (R22). -/
  tCl : Tree
  /-- `T_LL` (R22). -/
  tLl : Tree
  /-- `T_D` (R22). -/
  tD : Tree
  /-- `IN` (R25). -/
  inBuf : List Byte
  /-- `OUT` (R25). -/
  out : List Byte
  /-- `SYM` (R25). -/
  sym : List Sym
  /-- `TOK` (R25). -/
  tok : List Token
  /-- Transient (R24): the length of a match whose distance symbol is read next (spec/43_blockcodec.md R163). -/
  lenPending : Option Nat
  /-- Transient (R24): `nlen`, the number of literal/length code lengths of the dynamic header (spec/43_blockcodec.md R155). -/
  dynNlen : Nat
  /-- Transient (R24): `ndist`, the number of distance code lengths (spec/43_blockcodec.md R155). -/
  dynNdist : Nat
  /-- Transient (R24): `lens`, the code lengths read so far (spec/43_blockcodec.md R158). -/
  dynLens : List Nat
  /-- The model's own: the commands the host has issued and the instance has not begun (R226; log entry 2). -/
  cmds : List HostCommand
  /-- The model's own: the payload beside the command that is executed (spec/30_encoding.md R61; log entry 2). -/
  payload : List Nat
  /-- The model's own: what the last command returned (spec/30_encoding.md R64; log entry 2). -/
  result : Result
  deriving DecidableEq, Repr

/-- Why the machine stops with a fault. The spec has no fault that stops the machine: an error is a state (R196) and a refusal is a
result (R203). -/
inductive Fault where
  /-- Raised by `LDBUF` when the host hands over a payload whose number of elements is not the `n` of the word. The spec has no such
  request: `n` IS the number of elements in the payload (spec/44_system.md R183). Safe: the model stops (log entry 5). -/
  | payloadMismatch (declared handedOver : Nat)
  deriving DecidableEq, Repr

/-- Why a step has no meaning. No meaning of this model answers with a refusal: the hardware's own `Refused` is a next state whose
result is `Refused` (log entry 4). -/
inductive Refusal where
  /-- Raised by `exec` for an instruction that has no meaning yet. Safe: the model stops. -/
  | notModelled (mnemonic : String)
  deriving DecidableEq, Repr

/-- The state after `RESET` and after power-on (R29, R221), with the standard parameters, nothing issued by the host and no result. -/
def State.reset : State :=
  { cfg := Config.standard
    bits := []
    rpos := 0
    bcState := .idle
    bfinal := false
    btype := 0
    outValid := 0
    errKind := none
    errBitOff := 0
    errByteOff := 0
    window := 32768
    hufN := 256
    freq := List.replicate 256 0
    tUser := Tree.unbuilt
    tCl := Tree.unbuilt
    tLl := Tree.unbuilt
    tD := Tree.unbuilt
    inBuf := []
    out := []
    sym := []
    tok := []
    lenPending := none
    dynNlen := 0
    dynNdist := 0
    dynLens := []
    cmds := []
    payload := []
    result := .pending }

end Sys2Proof.Machine
end

