-- ==== Sys2Proof/Machine/Flags.lean ====
section
/-! DEFINITION. The flags, the codes of the named states and kinds, and the one arithmetic overflow rule (spec/10_state.md R14 to R18,
R23; spec/60_exceptions.md R190; spec/00_scope.md R6, R30). -/

namespace Sys2Proof.Machine

/-- The 3-bit code of `BC.state` (R14). -/
def bcStateCode : BcState → BitVec 3
  | .idle => 0
  | .readHeader => 1
  | .stored => 2
  | .fixedHuffman => 3
  | .dynamicHuffman => 4
  | .blockBody => 5
  | .done => 6
  | .failed => 7

/-- The 3-bit code of `ERR_KIND` (R190). -/
def errKindCode : Option ErrorKind → BitVec 3
  | none => 0
  | some .invalidBitValue => 1
  | some .malformedBlockHeader => 2
  | some .truncatedStream => 3
  | some .invalidHuffmanTree => 4
  | some .symbolOutOfRange => 5
  | some .windowViolation => 6

/-- The flag `FAILED` (R15). -/
def flagFailed (s : State) : Bool := s.bcState == .failed

/-- The flag `DONE` (R15). -/
def flagDone (s : State) : Bool := s.bcState == .done

/-- `STATUS` (R18): bit 0 `FAILED`, bit 1 `DONE`, bit 2 `BFINAL`, bits 4:3 `BTYPE`, bits 7:5 `STATE`. -/
def statusReg (s : State) : BitVec 8 :=
  bcStateCode s.bcState ++ s.btype ++ BitVec.ofBool s.bfinal ++ BitVec.ofBool (flagDone s) ++ BitVec.ofBool (flagFailed s)

/-- The greatest frequency, `2^FREQ_W − 1` (R5). -/
def freqMax : Nat := 2 ^ 32 - 1

/-- `satadd` (R6): a sum of frequencies saturates and never wraps. -/
def satAdd (a b : Nat) : Nat := min (a + b) freqMax

/-- `satadd` on stored frequencies (R30 (b), R113). -/
def freqAdd (a b : Freq) : Freq := BitVec.ofNat 32 (satAdd a.toNat b.toNat)

/-- The 32-bit entry of a token (R23): bit 31 the tag, a literal's byte in 7:0, a match's length in 24:16 and distance in 15:0. -/
def tokenEntry : Token → BitVec 32
  | .literal b => b.setWidth 32
  | .backRef length distance => (1 : BitVec 1) ++ (0 : BitVec 6) ++ BitVec.ofNat 9 length ++ BitVec.ofNat 16 distance

end Sys2Proof.Machine
end

