-- ==== Sys2Proof/Machine/Operands.lean ====
section
/-! DEFINITION. Operand forms: a field as stream bits in either pack order and back (spec/40_bitstream.md R91, R93), a Huffman code as
stream bits (spec/20_memory.md R45), the backing buffer (R43), the register map (spec/10_state.md R18) and the buffer ids
(spec/30_encoding.md R62). -/

namespace Sys2Proof.Machine

/-- A field of `n` bits in `LSB` order: bit 0 of the value first (R91). -/
def lsbBits (value n : Nat) : List Bool := (List.range n).map value.testBit

/-- A field of `n` bits in `MSB` order: bit `n − 1` of the value first (R91; R45 for codes). -/
def msbBits (value : Nat) : Nat → List Bool
  | 0 => []
  | n + 1 => value.testBit n :: msbBits value n

/-- A field in the pack order given (R91). -/
def fieldBits (value count : Nat) : Order → List Bool
  | .lsb => lsbBits value count
  | .msb => msbBits value count

/-- The value of bits read `LSB`: the first bit read is bit 0 (R93). -/
def lsbValue : List Bool → Nat
  | [] => 0
  | b :: bs => b.toNat + 2 * lsbValue bs

/-- The value of bits read `MSB`, the bits before them being `v`: the first bit read is the most significant (R93). -/
def msbValueFrom (v : Nat) : List Bool → Nat
  | [] => v
  | b :: bs => msbValueFrom (2 * v + b.toNat) bs

/-- The value of bits read in the pack order given (R93). -/
def fieldValue (bits : List Bool) : Order → Nat
  | .lsb => lsbValue bits
  | .msb => msbValueFrom 0 bits

/-- `bit(i)` of R43: stream bit `i`, and 0 beyond the end ("trailing bits zero-padded"). -/
def streamBit (bits : List Bool) (i : Nat) : Bool := bits.getD i false

/-- Byte `j` of the backing buffer: stream bit `8j + k` is its bit `k` (R43). -/
def bufByte (bits : List Bool) (j : Nat) : Nat :=
  lsbValue ((List.range 8).map fun k => streamBit bits (8 * j + k))

/-- `BS.buf`, `ceil(BS.len / 8)` bytes (R12, R43). -/
def backingBuffer (bits : List Bool) : List Nat := (List.range ((bits.length + 7) / 8)).map (bufByte bits)

/-- Bit `i` of a byte buffer in stream order, the inverse of R43 (R97). -/
def bufferBit (buf : List Byte) (i : Nat) : Bool := (buf.getD (i / 8) 0).getLsbD (i % 8)

/-- The value of register `r` (R18), `none` for a reserved number. -/
def readRegister (r : Nat) (s : State) : Option Nat :=
  match r with
  | 0 => some (statusReg s).toNat
  | 1 => some (errKindCode s.errKind).toNat
  | 2 => some s.errBitOff
  | 3 => some s.errByteOff
  | 4 => some s.window.toNat
  | 5 => some s.hufN.toNat
  | 6 => some s.bits.length
  | 7 => some s.rpos
  | 8 => some s.out.length
  | 9 => some s.outValid
  | 10 => some s.tok.length
  | 11 => some s.sym.length
  | _ => none

/-- The elements of buffer `b` (R62, R184), `none` for a number that is no buffer. A token is its 32-bit entry. -/
def readBuffer (b : Nat) (s : State) : Option (List Nat) :=
  match b with
  | 0 => some (s.inBuf.map BitVec.toNat)
  | 1 => some (s.out.map BitVec.toNat)
  | 2 => some (s.sym.map BitVec.toNat)
  | 3 => some (s.tok.map fun t => (tokenEntry t).toNat)
  | 4 => some (s.freq.map BitVec.toNat)
  | _ => none

end Sys2Proof.Machine
end

