-- ==== Sys2Proof/Machine/Ops.lean ====
section
/-! DEFINITION. The shared operations: error entry (spec/60_exceptions.md R196), refusal (R203), the test of `FAILED` (R197), the
limits of spec/10_state.md R13, and the primitives of the BitStream (spec/40_bitstream.md R90 to R95) and of `OUT`.

An operation that may raise answers `.error s` with `s` the state after error entry, and else `.ok`. There is no return from an
error (spec/60_exceptions.md R202): the one way out of `Failed` is `RESET`. -/

namespace Sys2Proof.Machine

/-- What a step answers. -/
abbrev Step := Host.Outcome State Fault Refusal

/-- Error entry (R196): `raise Kind(off)`. The registers of R16 are written, `BC.state` becomes `Failed`, the command returns
`Error(Kind)`; the transient state of the command ends with it (R24). Nothing else changes. -/
def raise (k : ErrorKind) (off : Nat) (s : State) : State :=
  { s with
    errKind := some k
    errBitOff := off
    errByteOff := off >>> 3
    bcState := .failed
    lenPending := none
    dynNlen := 0
    dynNdist := 0
    dynLens := []
    result := .error k }

/-- Refusal (R203): the command returns `Refused` and changes no state. -/
def refuse (s : State) : State := { s with result := .refused }

/-- The command returns `Ok` with a value (spec/30_encoding.md R64). -/
def finish (v : Value) (s : State) : State := { s with result := .ok v }

/-- The state an operation leaves, whether it raised or not. -/
def settled : Except State State → State
  | .ok s => s
  | .error s => s

/-- A command that a Failed instance refuses (R197): every command tests `FAILED` first. -/
def unlessFailed (body : State → State) (s : State) : State := if s.bcState = .failed then refuse s else body s

/-- The greatest value of a counter, `2^LEN_W − 1` (R13). -/
def counterMax (c : Config) : Nat := 2 ^ c.lenW - 1

/-- The greatest length of a buffer: its capacity if it has one, and never past the greatest counter (R13). -/
def lengthLimit (c : Config) (cap : Option Nat) : Nat :=
  match cap with
  | none => counterMax c
  | some k => min k (counterMax c)

/-- `BS.len` is within its limit (R13). -/
def bitsFit (s : State) : Bool := decide (s.bits.length ≤ counterMax s.cfg)

/-- `OUT` is within its limit (R13). -/
def outFits (s : State) : Bool := decide (s.out.length ≤ lengthLimit s.cfg s.cfg.outCap)

/-- `SYM` is within its limit (R13). -/
def symFits (s : State) : Bool := decide (s.sym.length ≤ lengthLimit s.cfg s.cfg.symCap)

/-- `TOK` is within its limit (R13). -/
def tokFits (s : State) : Bool := decide (s.tok.length ≤ lengthLimit s.cfg s.cfg.tokCap)

/-- A command whose result `r` would pass a limit is refused before it changes any state (R13, R204 (n)). -/
def unlessTooLong (fits : Bool) (r s : State) : State := if fits then r else refuse s

/-- Append bits at the end of the stream (R90, R91). -/
def pushAll (bs : List Bool) (s : State) : State := { s with bits := s.bits ++ bs }

/-- `PushBit` (R90). -/
def pushBit (b : Bool) (s : State) : State := pushAll [b] s

/-- `PushBits` (R91). -/
def pushBits (value count : Nat) (o : Order) (s : State) : State := pushAll (fieldBits value count o) s

/-- `PadWrite` (R95): 0 to 7 zero bits up to the next multiple of 8. -/
def padWrite (s : State) : State := pushAll (List.replicate ((8 - s.bits.length % 8) % 8) false) s

/-- Move the read cursor. -/
def moveCursor (p : Nat) (s : State) : State := { s with rpos := p }

/-- `ReadBits` (R93): all or nothing. -/
def readBits (count : Nat) (o : Order) (s : State) : Except State (Nat × State) :=
  if s.bits.length - s.rpos < count then .error (raise .truncatedStream s.rpos s)
  else .ok (fieldValue ((s.bits.drop s.rpos).take count) o, moveCursor (s.rpos + count) s)

/-- `ReadBit` (R92). -/
def readBit (s : State) : Except State (Bool × State) :=
  match s.bits.drop s.rpos with
  | [] => .error (raise .truncatedStream s.rpos s)
  | b :: _ => .ok (b, moveCursor (s.rpos + 1) s)

/-- `AlignRead` (R94): to the next multiple of 8, and not past the end; never raises. -/
def alignRead (s : State) : State := moveCursor (min (8 * ((s.rpos + 7) / 8)) s.bits.length) s

/-- `append(OUT, b)`. -/
def appendOut (b : Byte) (s : State) : State := { s with out := s.out ++ [b] }

/-- `BC.state <- b`, the transfer of control of the block state machine (spec/00_scope.md R7). -/
def goTo (b : BcState) (s : State) : State := { s with bcState := b }

end Sys2Proof.Machine
end

