-- ==== Sys2Proof/Machine/BitStream.lean ====
section
/-! DEFINITION. The commands of the BitStream unit (spec/40_bitstream.md R96 to R102). -/

namespace Sys2Proof.Machine

/-- An empty stream with its cursor at 0 (R96). -/
def emptyStream (s : State) : State := { s with bits := [], rpos := 0 }

/-- `BS.CLEAR` (R96). -/
def execBsClear (s : State) : Step := .next (unlessFailed (fun s => finish .nothing (emptyStream s)) s)

/-- The stream of the first `n` bits of `IN`, cursor at 0 (R97). -/
def loadStream (n : Nat) (s : State) : State := { s with bits := (List.range n).map (bufferBit s.inBuf), rpos := 0 }

/-- The body of `BS.LOAD` (R97). -/
def bsLoad (n : Nat) (s : State) : State :=
  if 8 * s.inBuf.length < n then refuse s
  else unlessTooLong (bitsFit (loadStream n s)) (finish .nothing (loadStream n s)) s

/-- `BS.LOAD bitlen` (R97). -/
def execBsLoad (bitlen : BitVec 32) (s : State) : Step := .next (unlessFailed (bsLoad bitlen.toNat) s)

/-- The body of `BS.PUSH` (R98): a value other than 0 and 1 is `InvalidBitValue` and nothing is pushed. -/
def bsPush (bit : Nat) (s : State) : State :=
  if 1 < bit then raise .invalidBitValue s.bits.length s
  else unlessTooLong (bitsFit (pushBit (bit == 1) s)) (finish .nothing (pushBit (bit == 1) s)) s

/-- `BS.PUSH bit` (R98). -/
def execBsPush (bit : BitVec 8) (s : State) : Step := .next (unlessFailed (bsPush bit.toNat) s)

/-- The body of `BS.PUSHBITS` (R99): a 1 at or above bit `count` is `InvalidBitValue`. -/
def bsPushbits (value count : Nat) (o : Order) (s : State) : State :=
  if 32 < count then refuse s
  else if value >>> count ≠ 0 then raise .invalidBitValue s.bits.length s
  else unlessTooLong (bitsFit (pushBits value count o s)) (finish .nothing (pushBits value count o s)) s

/-- `BS.PUSHBITS value, count, order` (R99). -/
def execBsPushbits (value : BitVec 32) (count : BitVec 8) (o : Order) (s : State) : Step :=
  .next (unlessFailed (bsPushbits value.toNat count.toNat o) s)

/-- The body of `BS.READ` (R100). -/
def bsRead (s : State) : State :=
  match readBit s with
  | .ok (b, s') => finish (.bit b) s'
  | .error s' => s'

/-- `BS.READ` (R100). -/
def execBsRead (s : State) : Step := .next (unlessFailed bsRead s)

/-- The body of `BS.READBITS` (R101). -/
def bsReadbits (count : Nat) (o : Order) (s : State) : State :=
  if 32 < count then refuse s
  else match readBits count o s with
    | .ok (v, s') => finish (.number v) s'
    | .error s' => s'

/-- `BS.READBITS count, order` (R101). -/
def execBsReadbits (count : BitVec 8) (o : Order) (s : State) : Step := .next (unlessFailed (bsReadbits count.toNat o) s)

/-- `BS.TOBYTES` (R102): legal in every state, also in `Failed` (R197). -/
def execBsTobytes (s : State) : Step := .next (finish (.elements (backingBuffer s.bits)) s)

end Sys2Proof.Machine
end

