-- ==== Sys2Proof/Machine/Tree.lean ====
section
/-! DEFINITION. The trees of the HuffmanTree unit: the build from frequencies (spec/41_huffman.md R111 to R116), the trees from code
lengths (R120 to R123) and one symbol (R124, R125). -/

namespace Sys2Proof.Machine

/-! ### The build from frequencies -/

/-- The queue's order on pairs of a frequency and a node index (R115): lower frequency first, among equals the lower index. -/
def queueLess (x y : Nat × Nat) : Bool := decide (x.1 < y.1) || (x.1 == y.1 && decide (x.2 < y.2))

/-- The least of a list in the queue's order, starting from `m`. -/
def queueMin (m : Nat × Nat) : List (Nat × Nat) → Nat × Nat
  | [] => m
  | x :: xs => queueMin (if queueLess x m then x else m) xs

/-- `pop_min(Q)` (R115): the least element, and the queue without it. -/
def popMin : List (Nat × Nat) → Option ((Nat × Nat) × List (Nat × Nat))
  | [] => none
  | x :: xs => some (queueMin x xs, (x :: xs).erase (queueMin x xs))

/-- The merge loop of R112, at most the given number of rounds: pop two, append a branch (first popped to the left), reinsert. -/
def mergeRounds : Nat → List Node → List (Nat × Nat) → List Node × List (Nat × Nat)
  | 0, arena, q => (arena, q)
  | k + 1, arena, q =>
    match popMin q with
    | none => (arena, q)
    | some (a, q1) =>
      match popMin q1 with
      | none => (arena, q)
      | some (b, q2) =>
        mergeRounds k
          (arena ++ [.branch (freqAdd (BitVec.ofNat 32 a.1) (BitVec.ofNat 32 b.1)) (some a.2) (some b.2)])
          ((satAdd a.1 b.1, arena.length) :: q2)

/-- `Assign(i, addr, len)` (R116) into a table, descending at most `fuel` nodes; the arena's size is enough. -/
def assignCodes (arena : List Node) : Nat → Nat → Nat → Nat → List CodeEntry → List CodeEntry
  | 0, _, _, _, tab => tab
  | fuel + 1, i, addr, len, tab =>
    match arena[i]? with
    | none => tab
    | some (.leaf symbol _) => tab.set symbol ⟨addr, len⟩
    | some (.branch _ left right) =>
      let tabL := match left with
        | none => tab
        | some l => assignCodes arena fuel l (2 * addr) (len + 1) tab
      match right with
      | none => tabL
      | some r => assignCodes arena fuel r (2 * addr + 1) (len + 1) tabL

/-- The leaves `0 .. N−1` of the alphabet, leaf `s` for symbol `s` (R112). -/
def alphabetLeaves (n : Nat) (freq : List Freq) : List Node := (List.range n).map fun s => .leaf s (freq.getD s 0)

/-- The queue that holds every leaf (R112). -/
def leafQueue (n : Nat) (freq : List Freq) : List (Nat × Nat) := (List.range n).map fun s => ((freq.getD s 0).toNat, s)

/-- The general build (R112) and the addresses (R116). -/
def generalTree (n : Nat) (freq : List Freq) : Tree :=
  let merged := mergeRounds (n - 1) (alphabetLeaves n freq) (leafQueue n freq)
  let root := (merged.2.headD (0, 0)).2
  { built := true
    n := n
    arena := merged.1
    root := root
    tab := assignCodes merged.1 merged.1.length root 0 0 (List.replicate n ⟨0, 0⟩) }

/-- The degenerate tree of the symbol `s0` (R114): one leaf, which is the root, and the 1-bit code 0. -/
def degenerateTree (n s0 : Nat) (freq : List Freq) : Tree :=
  { built := true
    n := n
    arena := [.leaf s0 (freq.getD s0 0)]
    root := 0
    tab := (List.replicate n ⟨0, 0⟩).set s0 ⟨0, 1⟩ }

/-- The symbols of non-zero frequency (R111). -/
def nonZeroSymbols (n : Nat) (freq : List Freq) : List Nat := (List.range n).filter fun s => freq.getD s 0 != 0

/-- The build of `HUF.BUILD` (R111): the degenerate tree for `N` = 1 or exactly one non-zero frequency, else the general one. -/
def buildTree (n : Nat) (freq : List Freq) : Tree :=
  if n = 1 then degenerateTree n 0 freq
  else match nonZeroSymbols n freq with
    | [s0] => degenerateTree n s0 freq
    | _ => generalTree n freq

/-! ### The trees from code lengths -/

/-- `count[l]` of R120, with `count[0]` = 0. -/
def lengthCount (lengths : List Nat) (l : Nat) : Nat := if l = 0 then 0 else lengths.count l

/-- `next[l]` of R120 before any symbol has its code. -/
def firstCode (lengths : List Nat) : Nat → Nat
  | 0 => 0
  | l + 1 => 2 * (firstCode lengths l + lengthCount lengths l)

/-- The last loop of `Canon` (R120): the symbols in increasing order take the next code of their length. -/
def canonAssign : List Nat → List Nat → List CodeEntry
  | [], _ => []
  | l :: ls, next =>
    if l = 0 then ⟨0, 0⟩ :: canonAssign ls next
    else ⟨next.getD l 0, l⟩ :: canonAssign ls (next.set l (next.getD l 0 + 1))

/-- `Canon(lengths, maxbits)` (R120). -/
def canon (lengths : List Nat) (maxbits : Nat) : List CodeEntry :=
  canonAssign lengths ((List.range (maxbits + 1)).map (firstCode lengths))

/-- Over-subscribed lengths (R122): the sum of `2^(maxbits − length)` over the symbols with a code exceeds `2^maxbits`. -/
def overSubscribed (lengths : List Nat) (maxbits : Nat) : Bool :=
  decide (2 ^ maxbits < ((lengths.filter fun l => l != 0).map fun l => 2 ^ (maxbits - l)).sum)

/-- The binary trie of a code set (R121): a missing child, a leaf, or a branch. -/
inductive Trie where
  | missing
  | leaf (symbol : Nat)
  | branch (left right : Trie)
  deriving DecidableEq, Repr

/-- Place a leaf at the end of a code's bits, 0 to the left and 1 to the right, creating the missing branches on the way (R121). -/
def trieInsert (symbol : Nat) : List Bool → Trie → Trie
  | [], _ => .leaf symbol
  | false :: bs, .branch left right => .branch (trieInsert symbol bs left) right
  | true :: bs, .branch left right => .branch left (trieInsert symbol bs right)
  | false :: bs, _ => .branch (trieInsert symbol bs .missing) .missing
  | true :: bs, _ => .branch .missing (trieInsert symbol bs .missing)

/-- Place the codes of a table, its first entry being symbol `s` (R121). -/
def trieOfCodes : Nat → List CodeEntry → Trie → Trie
  | _, [], t => t
  | s, e :: es, t => trieOfCodes (s + 1) es (if e.length = 0 then t else trieInsert s (msbBits e.code e.length) t)

/-- The number of nodes of a trie. -/
def trieSize : Trie → Nat
  | .missing => 0
  | .leaf _ => 1
  | .branch left right => 1 + trieSize left + trieSize right

/-- The index of a trie's root, where its nodes begin at `i`. -/
def trieRoot (i : Nat) : Trie → Option Nat
  | .missing => none
  | .leaf _ => some i
  | .branch _ _ => some i

/-- The arena of a trie (R20, R121), its nodes beginning at index `i`: a branch, then its left part, then its right part. DESIGN CHOICE
(log entry 15): the spec numbers the nodes of user trees only, and no rule reads the numbers of a tree made from lengths. A leaf of
such a tree has no meaningful frequency (R121): 0 stands there and nothing reads it (log entry 3). -/
def trieNodes : Nat → Trie → List Node
  | _, .missing => []
  | _, .leaf symbol => [.leaf symbol 0]
  | i, .branch left right =>
    .branch 0 (trieRoot (i + 1) left) (trieRoot (i + 1 + trieSize left) right)
      :: (trieNodes (i + 1) left ++ trieNodes (i + 1 + trieSize left) right)

/-- The trie of a code-length table: a root branch with both children missing, and every code placed in it (R121). -/
def trieOfLengths (lengths : List Nat) (maxbits : Nat) : Trie :=
  trieOfCodes 0 (canon lengths maxbits) (.branch .missing .missing)

/-- The tree of R121 without the check of R122: the canonical table and the binary trie of its codes. -/
def treeOfLengths (lengths : List Nat) (maxbits : Nat) : Tree :=
  { built := true
    n := lengths.length
    arena := trieNodes 0 (trieOfLengths lengths maxbits)
    root := 0 -- DESIGN CHOICE (log entry 15): the root's index in this numbering
    tab := canon lengths maxbits }

/-- `TreeFromLengths` (R121, R122): over-subscribed lengths raise `InvalidHuffmanTree` at the cursor. -/
def treeFromLengths (lengths : List Nat) (maxbits : Nat) (s : State) : Except State Tree :=
  if overSubscribed lengths maxbits then .error (raise .invalidHuffmanTree s.rpos s) else .ok (treeOfLengths lengths maxbits)

/-! ### One symbol -/

/-- The child of node `i` on the side of bit `b` (0 left, 1 right). A leaf is stood on only at the root of the degenerate tree, which
behaves as a branch whose left child is that leaf and whose right child is missing (R114, R124). -/
def childOf (arena : List Node) (i : Nat) (b : Bool) : Option Nat :=
  match arena[i]? with
  | none => none
  | some (.leaf _ _) => if b then none else some i
  | some (.branch _ left right) => if b then right else left

/-- The walk of R124 over the bits that remain, from node `i`, `k` bits taken so far: what it finds, and how many bits it took. -/
def walk (t : Tree) : List Bool → Nat → Nat → Except ErrorKind Nat × Nat
  | [], _, k => (.error .truncatedStream, k)
  | b :: bs, i, k =>
    match childOf t.arena i b with
    | none => (.error .invalidHuffmanTree, k + 1)
    | some c =>
      match t.arena[c]? with
      | none => (.error .invalidHuffmanTree, k + 1)
      | some (.leaf symbol _) => (if t.n ≤ symbol then .error .symbolOutOfRange else .ok symbol, k + 1)
      | some (.branch _ _ _) => walk t bs c (k + 1)

/-- `DecodeSym(T)` (R124): the cursor stands past the bits the walk took, also when it raises. -/
def decodeSym (t : Tree) (s : State) : Except State (Nat × State) :=
  match walk t (s.bits.drop s.rpos) t.root 0 with
  | (.ok symbol, k) => .ok (symbol, moveCursor (s.rpos + k) s)
  | (.error kind, k) => .error (raise kind (s.rpos + k) (moveCursor (s.rpos + k) s))

/-- The table entry of a symbol; no code outside the table (R21). -/
def codeOf (t : Tree) (symbol : Nat) : CodeEntry := t.tab.getD symbol ⟨0, 0⟩

/-- `EncodeSym(T, s)` (R125): the code, most significant bit first. -/
def encodeSym (t : Tree) (symbol : Nat) (s : State) : State :=
  pushAll (msbBits (codeOf t symbol).code (codeOf t symbol).length) s

end Sys2Proof.Machine
end

