-- ==== Sys2Proof/Machine/HuffmanTree.lean ====
section
/-! DEFINITION. The commands of the HuffmanTree unit (spec/41_huffman.md R110, R111, R117, R118). -/

namespace Sys2Proof.Machine

/-- The counting loop of R110 over the symbols that remain: a symbol outside the alphabet raises, with `FREQ` holding the counts of
those before it; a count saturates. -/
def countSymbols (n : Nat) : List Sym → State → Except State State
  | [], s => .ok s
  | x :: xs, s =>
    if n ≤ x.toNat then .error (raise .symbolOutOfRange s.bits.length s)
    else countSymbols n xs { s with freq := s.freq.modify x.toNat (fun f => freqAdd f 1) }

/-- The body of `HUF.COUNT` (R110). -/
def hufCount (s : State) : State :=
  settled ((countSymbols s.hufN.toNat s.sym { s with freq := List.replicate s.hufN.toNat 0 }).map (finish .nothing))

/-- `HUF.COUNT` (R110). -/
def execHufCount (s : State) : Step := .next (unlessFailed hufCount s)

/-- The body of `HUF.BUILD` (R111). -/
def hufBuild (s : State) : State := finish .nothing { s with tUser := buildTree s.hufN.toNat s.freq }

/-- `HUF.BUILD` (R111). -/
def execHufBuild (s : State) : Step := .next (unlessFailed hufBuild s)

/-- The encoding loop of R117 over the symbols that remain: a symbol outside the alphabet or without a code raises, the bits of
those before it staying in the stream. -/
def encodeSymbols (t : Tree) : List Sym → State → Except State State
  | [], s => .ok s
  | x :: xs, s =>
    if t.n ≤ x.toNat ∨ (codeOf t x.toNat).length = 0 then .error (raise .symbolOutOfRange s.bits.length s)
    else encodeSymbols t xs (encodeSym t x.toNat s)

/-- What `HUF.ENCODE` with a built tree leaves where no limit is passed (R117). -/
def hufEncodeResult (s : State) : State := settled ((encodeSymbols s.tUser s.sym s).map (finish .nothing))

/-- The body of `HUF.ENCODE` (R117; R13 for a stream that would be too long). -/
def hufEncode (s : State) : State :=
  if s.tUser.built then unlessTooLong (bitsFit (hufEncodeResult s)) (hufEncodeResult s) s
  else raise .invalidHuffmanTree s.bits.length s

/-- `HUF.ENCODE` (R117). -/
def execHufEncode (s : State) : Step := .next (unlessFailed hufEncode s)

/-- The decoding loop of R118: `count` symbols, each appended to `SYM`. -/
def decodeSymbols (t : Tree) : Nat → State → Except State State
  | 0, s => .ok s
  | k + 1, s =>
    match decodeSym t s with
    | .error s' => .error s'
    | .ok (x, s') => decodeSymbols t k { s' with sym := s'.sym ++ [BitVec.ofNat 16 x] }

/-- What `HUF.DECODE` with a built tree leaves where no limit is passed (R118). -/
def hufDecodeResult (count : Nat) (s : State) : State :=
  settled ((decodeSymbols s.tUser count { s with sym := [] }).map (finish .nothing))

/-- The body of `HUF.DECODE` (R118; R13 for a `SYM` that would be too long). -/
def hufDecode (count : Nat) (s : State) : State :=
  if s.tUser.built then unlessTooLong (symFits (hufDecodeResult count s)) (hufDecodeResult count s) s
  else raise .invalidHuffmanTree s.rpos s

/-- `HUF.DECODE count` (R118). -/
def execHufDecode (count : BitVec 32) (s : State) : Step := .next (unlessFailed (hufDecode count.toNat) s)

end Sys2Proof.Machine
end

