-- ==== Sys2Proof/Machine/Tables.lean ====
section
/-! DEFINITION. The constant tables (spec/10_state.md R26): the range tables of lengths and distances (spec/30_encoding.md R72, R74),
`CL_ORDER` (R77) and the fixed trees (R70), and the constants of spec/00_scope.md R5. No command writes them. -/

namespace Sys2Proof.Machine

/-- `MIN_MATCH` (R5). -/
def minMatch : Nat := 3

/-- `MAX_MATCH` (R5). -/
def maxMatch : Nat := 258

/-- `MAX_DIST` (R5). -/
def maxDist : Nat := 32768

/-- `EOB`, the end-of-block symbol (R5, R69). -/
def eobSymbol : Nat := 256

/-- `STORED_MAX` (R5): the greatest LEN of one stored block the encoder writes. -/
def storedMax : Nat := 65535

/-- `MAXBITS_LL` and `MAXBITS_D` (R5). -/
def maxBitsBlock : Nat := 15

/-- `MAXBITS_CL` (R5). -/
def maxBitsCl : Nat := 7

/-- A row of a range table: the symbol, its number of extra bits, and the inclusive range `[base, top]`. -/
structure RangeRow where
  symbol : Nat
  extra : Nat
  base : Nat
  top : Nat
  deriving DecidableEq, Repr

/-- `LEN_TAB` (R72), symbols 257..285. -/
def lenTab : List RangeRow :=
  [ ⟨257, 0, 3, 3⟩, ⟨258, 0, 4, 4⟩, ⟨259, 0, 5, 5⟩, ⟨260, 0, 6, 6⟩, ⟨261, 0, 7, 7⟩, ⟨262, 0, 8, 8⟩, ⟨263, 0, 9, 9⟩,
    ⟨264, 0, 10, 10⟩, ⟨265, 1, 11, 12⟩, ⟨266, 1, 13, 14⟩, ⟨267, 1, 15, 16⟩, ⟨268, 1, 17, 18⟩, ⟨269, 2, 19, 22⟩,
    ⟨270, 2, 23, 26⟩, ⟨271, 2, 27, 30⟩, ⟨272, 2, 31, 34⟩, ⟨273, 3, 35, 42⟩, ⟨274, 3, 43, 50⟩, ⟨275, 3, 51, 58⟩,
    ⟨276, 3, 59, 66⟩, ⟨277, 4, 67, 82⟩, ⟨278, 4, 83, 98⟩, ⟨279, 4, 99, 114⟩, ⟨280, 4, 115, 130⟩, ⟨281, 5, 131, 162⟩,
    ⟨282, 5, 163, 194⟩, ⟨283, 5, 195, 226⟩, ⟨284, 5, 227, 257⟩, ⟨285, 0, 258, 258⟩ ]

/-- `DIST_TAB` (R74), symbols 0..29. -/
def distTab : List RangeRow :=
  [ ⟨0, 0, 1, 1⟩, ⟨1, 0, 2, 2⟩, ⟨2, 0, 3, 3⟩, ⟨3, 0, 4, 4⟩, ⟨4, 1, 5, 6⟩, ⟨5, 1, 7, 8⟩, ⟨6, 2, 9, 12⟩,
    ⟨7, 2, 13, 16⟩, ⟨8, 3, 17, 24⟩, ⟨9, 3, 25, 32⟩, ⟨10, 4, 33, 48⟩, ⟨11, 4, 49, 64⟩, ⟨12, 5, 65, 96⟩,
    ⟨13, 5, 97, 128⟩, ⟨14, 6, 129, 192⟩, ⟨15, 6, 193, 256⟩, ⟨16, 7, 257, 384⟩, ⟨17, 7, 385, 512⟩, ⟨18, 8, 513, 768⟩,
    ⟨19, 8, 769, 1024⟩, ⟨20, 9, 1025, 1536⟩, ⟨21, 9, 1537, 2048⟩, ⟨22, 10, 2049, 3072⟩, ⟨23, 10, 3073, 4096⟩,
    ⟨24, 11, 4097, 6144⟩, ⟨25, 11, 6145, 8192⟩, ⟨26, 12, 8193, 12288⟩, ⟨27, 12, 12289, 16384⟩,
    ⟨28, 13, 16385, 24576⟩, ⟨29, 13, 24577, 32768⟩ ]

/-- The row of a symbol (R73, R75); an empty row for a symbol the table lacks, which no command asks for. -/
def rowOf (tab : List RangeRow) (symbol : Nat) : RangeRow :=
  (tab.find? fun r => r.symbol == symbol).getD ⟨symbol, 0, 0, 0⟩

/-- The one row whose range contains a value (R73, R75: "for writing"). -/
def rowFor (tab : List RangeRow) (v : Nat) : RangeRow :=
  (tab.find? fun r => decide (r.base ≤ v ∧ v ≤ r.top)).getD ⟨0, 0, v, v⟩

/-- `CL_ORDER` (R77). -/
def clOrder : List Nat := [16, 17, 18, 0, 8, 7, 9, 6, 10, 5, 11, 4, 12, 3, 13, 2, 14, 1, 15]

/-- The 288 code lengths of `FIXED_LL` (R70). -/
def fixedLlLengths : List Nat :=
  List.replicate 144 8 ++ List.replicate 112 9 ++ List.replicate 24 7 ++ List.replicate 8 8

/-- The 32 code lengths of `FIXED_D` (R70). -/
def fixedDLengths : List Nat := List.replicate 32 5

/-- `FIXED_LL` (R70): the canonical code of its lengths. -/
def fixedLl : Tree := treeOfLengths fixedLlLengths maxBitsBlock

/-- `FIXED_D` (R70). -/
def fixedD : Tree := treeOfLengths fixedDLengths maxBitsBlock

end Sys2Proof.Machine
end

