-- ==== Sys2Proof/Machine/MatchFinder.lean ====
section
/-! DEFINITION. The MatchFinder unit (spec/42_matchfinder.md R135 to R141): the search, the scan and `LZ.SCAN`. -/

namespace Sys2Proof.Machine

/-- The `k` bytes at `f` are the `k` bytes at `i` (R137). -/
def agrees (data : List Byte) (f i k : Nat) : Bool := (List.range k).all fun j => data[f + j]? == data[i + j]?

/-- The greatest index below the given one, and at least `lo`, at which the candidate of `k` bytes at `i` occurs (R137). -/
def findBelow (data : List Byte) (i k lo : Nat) : Nat → Option Nat
  | 0 => none
  | f + 1 => if f < lo then none else if agrees data f i k then some f else findBelow data i k lo f

/-- `Find(i, K)` (R137, R138): the greatest `f` with `max(0, i − W) ≤ f ≤ i − 1` where the candidate occurs. -/
def findMatch (data : List Byte) (w i k : Nat) : Option Nat := findBelow data i k (i - w) i

/-- The inner loop of R136 with its length `L` and place `m`: the candidate grows while it is found, up to the end of the input (R139)
and to 258 bytes (R140). `fuel` is at least `259 − L`. -/
def growCandidate (data : List Byte) (w i : Nat) : Nat → Nat → Option Nat → Nat × Option Nat
  | 0, len, m => (len, m)
  | fuel + 1, len, m =>
    if data.length ≤ i + len then (len, m)
    else if len = maxMatch then (len, m)
    else match findMatch data w i (len + 1) with
      | none => (len, m)
      | some f => growCandidate data w i fuel (len + 1) (some f)

/-- The longest candidate at `i` and the place it was found (R136). -/
def longestMatch (data : List Byte) (w i : Nat) : Nat × Option Nat := growCandidate data w i (maxMatch + 1) 0 none

/-- The outer loop of R136 from index `i`; each round covers at least one byte, so the input's length is fuel enough. -/
def scanFrom (data : List Byte) (w : Nat) : Nat → Nat → List Token
  | 0, _ => []
  | fuel + 1, i =>
    match data[i]? with
    | none => []
    | some b =>
      match longestMatch data w i with
      | (len, some m) =>
        if minMatch ≤ len then .backRef len (i - m) :: scanFrom data w fuel (i + len)
        else .literal b :: scanFrom data w fuel (i + 1)
      | (_, none) => .literal b :: scanFrom data w fuel (i + 1)

/-- `Scan(IN, W)` (R136). -/
def scan (data : List Byte) (w : Nat) : List Token := scanFrom data w data.length 0

/-- `TOK <- Scan(IN, W)` (R135). -/
def scanned (s : State) : State := { s with tok := scan s.inBuf s.window.toNat }

/-- The body of `LZ.SCAN` (R135; R13 for a `TOK` that would be too long). -/
def lzScan (s : State) : State := unlessTooLong (tokFits (scanned s)) (finish .nothing (scanned s)) s

/-- `LZ.SCAN` (R135). -/
def execLzScan (s : State) : Step := .next (unlessFailed lzScan s)

end Sys2Proof.Machine
end

