-- ==== Sys2Proof/Machine/BlockCodec.lean ====
section
/-! DEFINITION. The BlockCodec unit (spec/43_blockcodec.md): the block state machine element by element (R150 to R167) and the encoder
(R170 to R175).

`INFLATE` runs in steps (R150 allows it): the command starts the machine, and then each step performs one stream element, the
one that `BC.state` says is next (spec/10_state.md R27), until `Done` or `Failed`. An element's number selects its row of the
opcode table; the meanings of Machine/StreamElements.lean are these operations at the row's number. -/

namespace Sys2Proof.Machine

/-! ### End of block, and the block headers -/

/-- End of block (R166): in `Done` the command returns `Ok`. -/
def endOfBlock (s : State) : State :=
  if s.bfinal then finish .nothing (goTo .done { s with outValid := s.out.length })
  else goTo .readHeader { s with outValid := s.out.length }

/-- The header's two fields and the state they select (R152). -/
def takeHeader (bfinal : Bool) (btype : BitVec 2) (next : BcState) (s : State) : State :=
  goTo next { s with bfinal := bfinal, btype := btype }

/-- Copy raw bytes of a stored block (R153). -/
def copyRaw : Nat → State → Except State State
  | 0, s => .ok s
  | n + 1, s =>
    match readBits 8 .lsb s with
    | .error s' => .error s'
    | .ok (x, s') => copyRaw n (appendOut (BitVec.ofNat 8 x) s')

/-- State `Stored` (R153): align, LEN, NLEN, the check, LEN raw bytes, end of block. -/
def storedBody (s : State) : State :=
  match readBits 16 .lsb (alignRead s) with
  | .error s1 => s1
  | .ok (len, s1) =>
    match readBits 16 .lsb s1 with
    | .error s2 => s2
    | .ok (nlen, s2) =>
      if len ≠ nlen ^^^ 0xFFFF then raise .malformedBlockHeader s2.rpos s2
      else settled ((copyRaw len s2).map endOfBlock)

/-- State `FixedHuffman` (R154): the fixed trees; reads no bits, raises nothing. -/
def fixedBody (s : State) : State := goTo .blockBody { s with tLl := fixedLl, tD := fixedD }

/-- The code-length code lengths of R156: 3 bits each, for the symbols of the order given. -/
def readClLengths : List Nat → List Nat → State → Except State (List Nat × State)
  | [], cl, s => .ok (cl, s)
  | i :: is, cl, s =>
    match readBits 3 .lsb s with
    | .error s' => .error s'
    | .ok (x, s') => readClLengths is (cl.set i x) s'

/-- State `DynamicHuffman`, step 3 (R157): the code-length tree; step 4 then decodes `total` code lengths. -/
def buildClTree (cl : List Nat) (nlen ndist : Nat) (s : State) : State :=
  match treeFromLengths cl maxBitsCl s with
  | .error s' => s'
  | .ok t => { s with tCl := t, dynNlen := nlen, dynNdist := ndist, dynLens := [] }

/-- State `DynamicHuffman`, steps 1 to 3 (R155, R156, R157). -/
def dynamicBody (s : State) : State :=
  match readBits 5 .lsb s with
  | .error s1 => s1
  | .ok (hlit, s1) =>
    match readBits 5 .lsb s1 with
    | .error s2 => s2
    | .ok (hdist, s2) =>
      match readBits 4 .lsb s2 with
      | .error s3 => s3
      | .ok (hclen, s3) =>
        if 286 < hlit + 257 ∨ 30 < hdist + 1 then raise .malformedBlockHeader s3.rpos s3
        else match readClLengths (clOrder.take (hclen + 4)) (List.replicate 19 0) s3 with
          | .error s4 => s4
          | .ok (cl, s4) => buildClTree cl (hlit + 257) (hdist + 1) s4

/-- A stored block (R152, R153). -/
def storedBlock (bfinal : Bool) (s : State) : State := storedBody (takeHeader bfinal 0 .stored s)

/-- A fixed block's header (R152, R154). -/
def fixedBlock (bfinal : Bool) (s : State) : State := fixedBody (takeHeader bfinal 1 .fixedHuffman s)

/-- A dynamic block's header, up to its code-length tree (R152, R155 to R157). -/
def dynamicBlock (bfinal : Bool) (s : State) : State := dynamicBody (takeHeader bfinal 2 .dynamicHuffman s)

/-- The reserved block type (R152): `MalformedBlockHeader`, the two fields keeping the header's values (R196). -/
def reservedBlock (bfinal : Bool) (s : State) : State :=
  raise .malformedBlockHeader s.rpos { s with bfinal := bfinal, btype := 3 }

/-! ### The code-length sequence of a dynamic block -/

/-- Step 5 (R159): the literal/length tree is built and checked first, then the distance tree; the transient state of the header
ends. -/
def buildBlockTrees (s : State) : State :=
  match treeFromLengths (s.dynLens.take s.dynNlen) maxBitsBlock s with
  | .error s' => s'
  | .ok tl =>
    match treeFromLengths (s.dynLens.drop s.dynNlen) maxBitsBlock { s with tLl := tl } with
    | .error s' => s'
    | .ok td => goTo .blockBody { s with tLl := tl, tD := td, dynNlen := 0, dynNdist := 0, dynLens := [] }

/-- Append code lengths (R158); when all `nlen + ndist` are there, step 5 follows. -/
def appendLengths (xs : List Nat) (s : State) : State :=
  if s.dynNlen + s.dynNdist ≤ s.dynLens.length + xs.length then buildBlockTrees { s with dynLens := s.dynLens ++ xs }
  else { s with dynLens := s.dynLens ++ xs }

/-- A run of `base + e` copies of `val`, `e` being extra bits (R158): a run past the end of the sequence is malformed. -/
def repeatLengths (extra base val : Nat) (s : State) : State :=
  match readBits extra .lsb s with
  | .error s' => s'
  | .ok (e, s') =>
    if s'.dynNlen + s'.dynNdist < s'.dynLens.length + (base + e) then raise .malformedBlockHeader s'.rpos s'
    else appendLengths (List.replicate (base + e) val) s'

/-- Code-length symbol 16 (R158): copy the previous length; with none it is malformed, before any extra bit is read. -/
def repeatPrevious (s : State) : State :=
  match s.dynLens.getLast? with
  | none => raise .malformedBlockHeader s.rpos s
  | some val => repeatLengths 2 3 val s

/-- A code-length symbol (R158). -/
def clElement (v : Nat) (s : State) : State :=
  if v ≤ 15 then appendLengths [v] s
  else if v = 16 then repeatPrevious s
  else if v = 17 then repeatLengths 3 3 0 s
  else if v = 18 then repeatLengths 7 11 0 s
  else raise .symbolOutOfRange s.rpos s

/-! ### The body of a Huffman block -/

/-- A reserved symbol (R160, R163). -/
def reservedSymbol (s : State) : State := raise .symbolOutOfRange s.rpos s

/-- Match, part 1 up to the length (R163): the extra bits and the length; 284 with extra 31 is reserved. The distance symbol is read
by the next step. -/
def lengthSymbol (symbol : Nat) (s : State) : State :=
  match readBits (rowOf lenTab symbol).extra .lsb s with
  | .error s' => s'
  | .ok (e, s') =>
    if symbol = 284 ∧ e = 31 then raise .symbolOutOfRange s'.rpos s'
    else { s' with lenPending := some ((rowOf lenTab symbol).base + e) }

/-- A literal/length symbol (R160). -/
def llElement (v : Nat) (s : State) : State :=
  if v ≤ 255 then appendOut (BitVec.ofNat 8 v) s
  else if v = eobSymbol then endOfBlock s
  else if v ≤ 285 then lengthSymbol v s
  else reservedSymbol s

/-- Match, part 3 (R165): one byte at a time, `|OUT|` read again each time. -/
def copyMatch (d : Nat) : Nat → State → State
  | 0, s => s
  | n + 1, s => copyMatch d n (appendOut (s.out.getD (s.out.length - d) 0) s)

/-- Match, parts 2 and 3 (R164, R165): the window check, then the copy of the length that is pending. A distance symbol is
performed only while a length is pending. -/
def performMatch (d : Nat) (s : State) : State :=
  if s.out.length < d ∨ s.window.toNat < d then raise .windowViolation s.rpos s
  else copyMatch d (s.lenPending.getD 0) { s with lenPending := none }

/-- A distance symbol (R163 to R165). -/
def distanceSymbol (symbol : Nat) (s : State) : State :=
  match readBits (rowOf distTab symbol).extra .lsb s with
  | .error s' => s'
  | .ok (e, s') => performMatch ((rowOf distTab symbol).base + e) s'

/-- A distance symbol, the reserved ones too (R163). -/
def dElement (v : Nat) (s : State) : State := if 30 ≤ v then reservedSymbol s else distanceSymbol v s

/-- A block header, from the value of its three bits (R66, R152). -/
def headerElement (v : Nat) (s : State) : State :=
  match v / 2 with
  | 0 => storedBlock (v.testBit 0) s
  | 1 => fixedBlock (v.testBit 0) s
  | 2 => dynamicBlock (v.testBit 0) s
  | _ => reservedBlock (v.testBit 0) s

/-- Perform one stream element of the format given, its symbol having been read. -/
def performElement (f : Format) (v : Nat) (s : State) : State :=
  match f with
  | .blkHdr => headerElement v s
  | .llSym => llElement v s
  | .dSym => dElement v s
  | .clSym => clElement v s
  | .cmd64 => s

/-! ### Reading the next element, and the run of `INFLATE` -/

/-- State `ReadHeader` (R152): BFINAL is written before BTYPE is read. -/
def fetchHeader (s : State) : Except State (Nat × State) :=
  match readBits 1 .lsb s with
  | .error s1 => .error s1
  | .ok (f, s1) =>
    match readBits 2 .lsb { s1 with bfinal := f == 1 } with
    | .error s2 => .error s2
    | .ok (t, s2) => .ok (f + 2 * t, s2)

/-- The format of the next stream element (R27, R150): `BC.state` says which element is read next, and in `BlockBody` a pending
length says that it is a distance symbol. `none` where `BC.state` reads no element. -/
def nextFormat (s : State) : Option Format :=
  match s.bcState with
  | .readHeader => some .blkHdr
  | .dynamicHuffman => some .clSym
  | .blockBody => some (if s.lenPending.isSome then .dSym else .llSym)
  | .stored | .fixedHuffman | .idle | .done | .failed => none

/-- Read the value of the next element of the format given from the stream (R152, R158, R160, R163). -/
def fetchElement (f : Format) (s : State) : Except State (Nat × State) :=
  match f with
  | .blkHdr => fetchHeader s
  | .clSym => decodeSym s.tCl s
  | .llSym => decodeSym s.tLl s
  | .dSym => decodeSym s.tD s
  | .cmd64 => .ok (0, s)

/-- One step of `INFLATE` (R150): the step that the rule of `BC.state` defines. -/
def inflateStep (s : State) : State :=
  match s.bcState with
  | .stored => storedBody s
  | .fixedHuffman => fixedBody s
  | .idle | .done | .failed => s
  | .readHeader | .dynamicHuffman | .blockBody =>
    match nextFormat s with
    | none => s
    | some f =>
      match fetchElement f s with
      | .error s' => s'
      | .ok (v, s') => performElement f v s'

/-- An `INFLATE` is in progress: `BC.state` is one of the five values that exist only inside it (R14). -/
def running (s : State) : Bool :=
  match s.bcState with
  | .readHeader | .stored | .fixedHuffman | .dynamicHuffman | .blockBody => true
  | .idle | .done | .failed => false

/-- The loop of R150, at most the given number of steps. -/
def inflateRun : Nat → State → State
  | 0, s => s
  | k + 1, s => if running s then inflateRun k (inflateStep s) else s

/-- Enough steps for the loop to end: each takes at least one bit of the stream or ends it (R232). -/
def inflateFuel (s : State) : Nat := s.bits.length - s.rpos + 1

/-- The start of `INFLATE` (R150, R151): `OUT` emptied, no block tree built. -/
def inflateStart (s : State) : State :=
  { s with
    out := []
    outValid := 0
    bcState := .readHeader
    tCl := Tree.unbuilt
    tLl := Tree.unbuilt
    tD := Tree.unbuilt
    lenPending := none
    dynNlen := 0
    dynNdist := 0
    dynLens := []
    result := .pending }

/-- The whole run of an `INFLATE` begun in `s` (R150). -/
def inflateWhole (s : State) : State := inflateRun (inflateFuel s) (inflateStart s)

/-- The body of `INFLATE`: refused where its whole run would make `OUT` too long (R13, R204 (n)), else begun. -/
def inflate (s : State) : State := unlessTooLong (outFits (inflateWhole s)) (inflateStart s) s

/-- `INFLATE` (R150, R151). -/
def execInflate (s : State) : Step := .next (unlessFailed inflate s)

/-! ### The encoder -/

/-- The chunks of R171: 65535 bytes each, the last one shorter, an empty input one empty chunk. DESIGN CHOICE (log entry 16): where the
length is a positive multiple of 65535, of which the rule does not speak, the last chunk is a full one and no empty chunk follows. -/
def storedChunks : Nat → List Byte → List (List Byte)
  | 0, xs => [xs]
  | fuel + 1, xs => if xs.length ≤ storedMax then [xs] else xs.take storedMax :: storedChunks fuel (xs.drop storedMax)

/-- The header fields of a block that is written (R171, R172). -/
def writeHeader (bfinal : Bool) (btype : BitVec 2) (s : State) : State :=
  pushBits btype.toNat 2 .lsb (pushBit bfinal { s with bfinal := bfinal, btype := btype })

/-- The raw bytes of a stored block, each `LSB` (R171). -/
def writeRaw : List Byte → State → State
  | [], s => s
  | x :: xs, s => writeRaw xs (pushBits x.toNat 8 .lsb s)

/-- One stored block (R171). -/
def writeStoredBlock (bfinal : Bool) (chunk : List Byte) (s : State) : State :=
  writeRaw chunk
    (pushBits (chunk.length ^^^ 0xFFFF) 16 .lsb (pushBits chunk.length 16 .lsb (padWrite (writeHeader bfinal 0 s))))

/-- The stored blocks in order, the last one with BFINAL = 1 (R171). -/
def writeStoredBlocks : List (List Byte) → State → State
  | [], s => s
  | [c], s => writeStoredBlock true c s
  | c :: c' :: cs, s => writeStoredBlocks (c' :: cs) (writeStoredBlock false c s)

/-- `STORED` mode (R171). -/
def deflateStored (s : State) : State := writeStoredBlocks (storedChunks s.inBuf.length s.inBuf) s

/-- A symbol with its extra bits (R174): the code `MSB`, the extra bits `LSB`. -/
def writeRanged (t : Tree) (tab : List RangeRow) (v : Nat) (s : State) : State :=
  pushBits (v - (rowFor tab v).base) (rowFor tab v).extra .lsb (encodeSym t (rowFor tab v).symbol s)

/-- A token (R173, R174). -/
def writeToken (t : Token) (s : State) : State :=
  match t with
  | .literal b => encodeSym fixedLl b.toNat s
  | .backRef length distance => writeRanged fixedD distTab distance (writeRanged fixedLl lenTab length s)

/-- The tokens in order (R172). -/
def writeTokens : List Token → State → State
  | [], s => s
  | t :: ts, s => writeTokens ts (writeToken t s)

/-- `FIXED` mode (R172, R175): one block, its tokens, and EOB. -/
def deflateFixed (s : State) : State :=
  encodeSym fixedLl eobSymbol (writeTokens (scanned s).tok (writeHeader true 1 (scanned s)))

/-- What `DEFLATE` leaves where no limit is passed (R170). -/
def deflateResult (mode : Nat) (s : State) : State :=
  finish .nothing
    (if mode = 0 then deflateStored (goTo .idle { s with bits := [], rpos := 0 })
    else deflateFixed (goTo .idle { s with bits := [], rpos := 0 }))

/-- The result of `DEFLATE` is within its limits: the stream, and in `FIXED` mode the `TOK` that is written (R13). -/
def deflateFits (mode : Nat) (s : State) : Bool :=
  bitsFit (deflateResult mode s) && (mode == 0 || tokFits (deflateResult mode s))

/-- The body of `DEFLATE mode` (R170; R13 for a stream or a `TOK` that would be too long). -/
def deflate (mode : Nat) (s : State) : State :=
  if 1 < mode then refuse s else unlessTooLong (deflateFits mode s) (deflateResult mode s) s

/-- `DEFLATE mode` (R170). -/
def execDeflate (mode : BitVec 8) (s : State) : Step := .next (unlessFailed (deflate mode.toNat) s)

end Sys2Proof.Machine
end

