-- ==== Sys2Proof/Machine/StreamElements.lean ====
section
/-! DEFINITION. The meanings of the stream elements (spec/opcode_table.json, formats BLKHDR, LLSYM, DSYM, CLSYM), one definition per row.
The symbol itself has been read when the element is performed; its extra bits, and a block header's fields, are read by the
meaning. -/

namespace Sys2Proof.Machine

/-- Block type 0, `Stored` (spec/43_blockcodec.md R152, R153). -/
def execBlockStored (bfinal : Bool) (s : State) : Step := .next (storedBlock bfinal s)

/-- Block type 1, `FixedHuffman` (R152, R154). -/
def execBlockFixed (bfinal : Bool) (s : State) : Step := .next (fixedBlock bfinal s)

/-- Block type 2, `DynamicHuffman` (R152, R155 to R157). -/
def execBlockDynamic (bfinal : Bool) (s : State) : Step := .next (dynamicBlock bfinal s)

/-- Block type 3, reserved: `MalformedBlockHeader` (R152). -/
def execBlockReserved (bfinal : Bool) (s : State) : Step := .next (reservedBlock bfinal s)

/-- A literal byte (R161). -/
def execLlLiteral (byte : Byte) (s : State) : Step := .next (appendOut byte s)

/-- End of block (R162, R166). -/
def execLlEob (s : State) : Step := .next (endOfBlock s)

/-- Length symbol 257 (R72, R163). -/
def execLlLen257 (s : State) : Step := .next (lengthSymbol 257 s)

/-- Length symbol 258 (R72, R163). -/
def execLlLen258 (s : State) : Step := .next (lengthSymbol 258 s)

/-- Length symbol 259 (R72, R163). -/
def execLlLen259 (s : State) : Step := .next (lengthSymbol 259 s)

/-- Length symbol 260 (R72, R163). -/
def execLlLen260 (s : State) : Step := .next (lengthSymbol 260 s)

/-- Length symbol 261 (R72, R163). -/
def execLlLen261 (s : State) : Step := .next (lengthSymbol 261 s)

/-- Length symbol 262 (R72, R163). -/
def execLlLen262 (s : State) : Step := .next (lengthSymbol 262 s)

/-- Length symbol 263 (R72, R163). -/
def execLlLen263 (s : State) : Step := .next (lengthSymbol 263 s)

/-- Length symbol 264 (R72, R163). -/
def execLlLen264 (s : State) : Step := .next (lengthSymbol 264 s)

/-- Length symbol 265 (R72, R163). -/
def execLlLen265 (s : State) : Step := .next (lengthSymbol 265 s)

/-- Length symbol 266 (R72, R163). -/
def execLlLen266 (s : State) : Step := .next (lengthSymbol 266 s)

/-- Length symbol 267 (R72, R163). -/
def execLlLen267 (s : State) : Step := .next (lengthSymbol 267 s)

/-- Length symbol 268 (R72, R163). -/
def execLlLen268 (s : State) : Step := .next (lengthSymbol 268 s)

/-- Length symbol 269 (R72, R163). -/
def execLlLen269 (s : State) : Step := .next (lengthSymbol 269 s)

/-- Length symbol 270 (R72, R163). -/
def execLlLen270 (s : State) : Step := .next (lengthSymbol 270 s)

/-- Length symbol 271 (R72, R163). -/
def execLlLen271 (s : State) : Step := .next (lengthSymbol 271 s)

/-- Length symbol 272 (R72, R163). -/
def execLlLen272 (s : State) : Step := .next (lengthSymbol 272 s)

/-- Length symbol 273 (R72, R163). -/
def execLlLen273 (s : State) : Step := .next (lengthSymbol 273 s)

/-- Length symbol 274 (R72, R163). -/
def execLlLen274 (s : State) : Step := .next (lengthSymbol 274 s)

/-- Length symbol 275 (R72, R163). -/
def execLlLen275 (s : State) : Step := .next (lengthSymbol 275 s)

/-- Length symbol 276 (R72, R163). -/
def execLlLen276 (s : State) : Step := .next (lengthSymbol 276 s)

/-- Length symbol 277 (R72, R163). -/
def execLlLen277 (s : State) : Step := .next (lengthSymbol 277 s)

/-- Length symbol 278 (R72, R163). -/
def execLlLen278 (s : State) : Step := .next (lengthSymbol 278 s)

/-- Length symbol 279 (R72, R163). -/
def execLlLen279 (s : State) : Step := .next (lengthSymbol 279 s)

/-- Length symbol 280 (R72, R163). -/
def execLlLen280 (s : State) : Step := .next (lengthSymbol 280 s)

/-- Length symbol 281 (R72, R163). -/
def execLlLen281 (s : State) : Step := .next (lengthSymbol 281 s)

/-- Length symbol 282 (R72, R163). -/
def execLlLen282 (s : State) : Step := .next (lengthSymbol 282 s)

/-- Length symbol 283 (R72, R163). -/
def execLlLen283 (s : State) : Step := .next (lengthSymbol 283 s)

/-- Length symbol 284 (R72, R163). -/
def execLlLen284 (s : State) : Step := .next (lengthSymbol 284 s)

/-- Length symbol 285 (R72, R163). -/
def execLlLen285 (s : State) : Step := .next (lengthSymbol 285 s)

/-- Reserved literal/length symbol 286 (R160). -/
def execLlReserved286 (s : State) : Step := .next (reservedSymbol s)

/-- Reserved literal/length symbol 287 (R160). -/
def execLlReserved287 (s : State) : Step := .next (reservedSymbol s)

/-- Distance symbol 0 (R74, R163 to R165). -/
def execDDist0 (s : State) : Step := .next (distanceSymbol 0 s)

/-- Distance symbol 1 (R74, R163 to R165). -/
def execDDist1 (s : State) : Step := .next (distanceSymbol 1 s)

/-- Distance symbol 2 (R74, R163 to R165). -/
def execDDist2 (s : State) : Step := .next (distanceSymbol 2 s)

/-- Distance symbol 3 (R74, R163 to R165). -/
def execDDist3 (s : State) : Step := .next (distanceSymbol 3 s)

/-- Distance symbol 4 (R74, R163 to R165). -/
def execDDist4 (s : State) : Step := .next (distanceSymbol 4 s)

/-- Distance symbol 5 (R74, R163 to R165). -/
def execDDist5 (s : State) : Step := .next (distanceSymbol 5 s)

/-- Distance symbol 6 (R74, R163 to R165). -/
def execDDist6 (s : State) : Step := .next (distanceSymbol 6 s)

/-- Distance symbol 7 (R74, R163 to R165). -/
def execDDist7 (s : State) : Step := .next (distanceSymbol 7 s)

/-- Distance symbol 8 (R74, R163 to R165). -/
def execDDist8 (s : State) : Step := .next (distanceSymbol 8 s)

/-- Distance symbol 9 (R74, R163 to R165). -/
def execDDist9 (s : State) : Step := .next (distanceSymbol 9 s)

/-- Distance symbol 10 (R74, R163 to R165). -/
def execDDist10 (s : State) : Step := .next (distanceSymbol 10 s)

/-- Distance symbol 11 (R74, R163 to R165). -/
def execDDist11 (s : State) : Step := .next (distanceSymbol 11 s)

/-- Distance symbol 12 (R74, R163 to R165). -/
def execDDist12 (s : State) : Step := .next (distanceSymbol 12 s)

/-- Distance symbol 13 (R74, R163 to R165). -/
def execDDist13 (s : State) : Step := .next (distanceSymbol 13 s)

/-- Distance symbol 14 (R74, R163 to R165). -/
def execDDist14 (s : State) : Step := .next (distanceSymbol 14 s)

/-- Distance symbol 15 (R74, R163 to R165). -/
def execDDist15 (s : State) : Step := .next (distanceSymbol 15 s)

/-- Distance symbol 16 (R74, R163 to R165). -/
def execDDist16 (s : State) : Step := .next (distanceSymbol 16 s)

/-- Distance symbol 17 (R74, R163 to R165). -/
def execDDist17 (s : State) : Step := .next (distanceSymbol 17 s)

/-- Distance symbol 18 (R74, R163 to R165). -/
def execDDist18 (s : State) : Step := .next (distanceSymbol 18 s)

/-- Distance symbol 19 (R74, R163 to R165). -/
def execDDist19 (s : State) : Step := .next (distanceSymbol 19 s)

/-- Distance symbol 20 (R74, R163 to R165). -/
def execDDist20 (s : State) : Step := .next (distanceSymbol 20 s)

/-- Distance symbol 21 (R74, R163 to R165). -/
def execDDist21 (s : State) : Step := .next (distanceSymbol 21 s)

/-- Distance symbol 22 (R74, R163 to R165). -/
def execDDist22 (s : State) : Step := .next (distanceSymbol 22 s)

/-- Distance symbol 23 (R74, R163 to R165). -/
def execDDist23 (s : State) : Step := .next (distanceSymbol 23 s)

/-- Distance symbol 24 (R74, R163 to R165). -/
def execDDist24 (s : State) : Step := .next (distanceSymbol 24 s)

/-- Distance symbol 25 (R74, R163 to R165). -/
def execDDist25 (s : State) : Step := .next (distanceSymbol 25 s)

/-- Distance symbol 26 (R74, R163 to R165). -/
def execDDist26 (s : State) : Step := .next (distanceSymbol 26 s)

/-- Distance symbol 27 (R74, R163 to R165). -/
def execDDist27 (s : State) : Step := .next (distanceSymbol 27 s)

/-- Distance symbol 28 (R74, R163 to R165). -/
def execDDist28 (s : State) : Step := .next (distanceSymbol 28 s)

/-- Distance symbol 29 (R74, R163 to R165). -/
def execDDist29 (s : State) : Step := .next (distanceSymbol 29 s)

/-- Reserved distance symbol 30 (R163). -/
def execDReserved30 (s : State) : Step := .next (reservedSymbol s)

/-- Reserved distance symbol 31 (R163). -/
def execDReserved31 (s : State) : Step := .next (reservedSymbol s)

/-- Code-length symbols 0..15: the next code length (R158). -/
def execClLength (len : BitVec 4) (s : State) : Step := .next (appendLengths [len.toNat] s)

/-- Code-length symbol 16: copy the previous code length 3..6 times (R158). -/
def execClRep16 (s : State) : Step := .next (repeatPrevious s)

/-- Code-length symbol 17: 3..10 zeros (R158). -/
def execClRep17 (s : State) : Step := .next (repeatLengths 3 3 0 s)

/-- Code-length symbol 18: 11..138 zeros (R158). -/
def execClRep18 (s : State) : Step := .next (repeatLengths 7 11 0 s)

end Sys2Proof.Machine
end

