-- ==== Sys2Proof/Machine/System.lean ====
section
/-! DEFINITION. The system commands (spec/44_system.md): `RESET`, `RDREG`, `WRREG`, `LDBUF`, `RDBUF`. -/

namespace Sys2Proof.Machine

/-- Every piece of the instance's state at its reset value (R180, R220); the parameters and the host's commands are no state of
the instance and stay. -/
def resetState (s : State) : State :=
  { State.reset with cfg := s.cfg, cmds := s.cmds, payload := s.payload, result := .ok .nothing }

/-- `RESET` (R180): the one way out of `Failed` (R197). -/
def execReset (s : State) : Step := .next (resetState s)

/-- `RDREG r` (R181): legal in every state, also in `Failed`. -/
def execRdreg (r : BitVec 8) (s : State) : Step :=
  .next (match readRegister r.toNat s with
    | some v => finish (.number v) s
    | none => refuse s)

/-- A write of `WINDOW` (R182). -/
def writeWindow (val : BitVec 32) (s : State) : State :=
  if val.toNat < 1 ∨ 32768 < val.toNat then refuse s else finish .nothing { s with window := BitVec.ofNat 16 val.toNat }

/-- A write of `HUF_N` (R17, R182): it clears `FREQ` to `val` zeros and discards the user tree. -/
def writeHufN (val : BitVec 32) (s : State) : State :=
  if val.toNat < 1 ∨ 288 < val.toNat then refuse s
  else finish .nothing
    { s with
      hufN := BitVec.ofNat 9 val.toNat
      freq := List.replicate val.toNat 0
      tUser := { s.tUser with built := false } }

/-- `WRREG r, val` (R182): 4 is `WINDOW`, 5 is `HUF_N`; every other register is read-only or reserved. -/
def writeRegister (r : BitVec 8) (val : BitVec 32) (s : State) : State :=
  match r.toNat with
  | 4 => writeWindow val s
  | 5 => writeHufN val s
  | _ => refuse s

/-- `WRREG r, val` (R182). -/
def execWrreg (r : BitVec 8) (val : BitVec 32) (s : State) : Step := .next (unlessFailed (writeRegister r val) s)

/-- Every element of the payload is at most `top` (R183). -/
def elementsFit (top : Nat) (s : State) : Bool := s.payload.all fun x => decide (x ≤ top)

/-- The tests of `LDBUF` (R183) and, if all pass, the load: `refused` is the test of the number of elements, `top` the greatest
element. A payload that has not the declared number of elements is no request of the spec (log entry 5). -/
def loadPayload (n : Nat) (refused : Bool) (top : Nat) (load : State → State) (s : State) : Step :=
  if refused then .next (refuse s)
  else if s.payload.length ≠ n then .fault (.payloadMismatch n s.payload.length)
  else if elementsFit top s then .next (finish .nothing (load s))
  else .next (refuse s)

/-- `IN <- payload`. -/
def loadIn (s : State) : State := { s with inBuf := s.payload.map (BitVec.ofNat 8) }

/-- `SYM <- payload`. -/
def loadSym (s : State) : State := { s with sym := s.payload.map (BitVec.ofNat 16) }

/-- `FREQ <- payload`. -/
def loadFreq (s : State) : State := { s with freq := s.payload.map (BitVec.ofNat 32) }

/-- The three buffers `LDBUF` loads (R183): 0 `IN`, 2 `SYM`, 4 `FREQ`; `OUT` and `TOK` are written only by the hardware. -/
def loadBuffer (b : BitVec 8) (n : BitVec 32) (s : State) : Step :=
  match b.toNat with
  | 0 => loadPayload n.toNat (decide (lengthLimit s.cfg s.cfg.inCap < n.toNat)) 0xFF loadIn s
  | 2 => loadPayload n.toNat (decide (lengthLimit s.cfg s.cfg.symCap < n.toNat)) 0xFFFF loadSym s
  | 4 => loadPayload n.toNat (n.toNat != s.hufN.toNat) 0xFFFFFFFF loadFreq s
  | _ => .next (refuse s)

/-- `LDBUF b` (R183). -/
def execLdbuf (b : BitVec 8) (n : BitVec 32) (s : State) : Step :=
  if s.bcState = .failed then .next (refuse s) else loadBuffer b n s

/-- `RDBUF b` (R184): legal in every state, also in `Failed`. -/
def execRdbuf (b : BitVec 8) (s : State) : Step :=
  .next (match readBuffer b.toNat s with
    | some xs => finish (.elements xs) s
    | none => refuse s)

end Sys2Proof.Machine
end

