-- ==== Sys2Proof/Machine/Dispatch.lean ====
section
/-! DEFINITION. The dispatch of every instruction to its meaning, one arm per row of spec/opcode_table.json. -/

namespace Sys2Proof.Machine

def exec (i : Instr) (s : State) : Host.Outcome State Fault Refusal :=
  match i with
  | .reset => Sys2Proof.Machine.execReset s
  | .rdreg r => Sys2Proof.Machine.execRdreg r s
  | .wrreg r val => Sys2Proof.Machine.execWrreg r val s
  | .ldbuf b n => Sys2Proof.Machine.execLdbuf b n s
  | .rdbuf b => Sys2Proof.Machine.execRdbuf b s
  | .bsClear => Sys2Proof.Machine.execBsClear s
  | .bsLoad bitlen => Sys2Proof.Machine.execBsLoad bitlen s
  | .bsPush bit => Sys2Proof.Machine.execBsPush bit s
  | .bsPushbits value count order => Sys2Proof.Machine.execBsPushbits value count order s
  | .bsRead => Sys2Proof.Machine.execBsRead s
  | .bsReadbits count order => Sys2Proof.Machine.execBsReadbits count order s
  | .bsTobytes => Sys2Proof.Machine.execBsTobytes s
  | .hufCount => Sys2Proof.Machine.execHufCount s
  | .hufBuild => Sys2Proof.Machine.execHufBuild s
  | .hufEncode => Sys2Proof.Machine.execHufEncode s
  | .hufDecode count => Sys2Proof.Machine.execHufDecode count s
  | .lzScan => Sys2Proof.Machine.execLzScan s
  | .inflate => Sys2Proof.Machine.execInflate s
  | .deflate mode => Sys2Proof.Machine.execDeflate mode s
  | .blockStored bfinal => Sys2Proof.Machine.execBlockStored bfinal s
  | .blockFixed bfinal => Sys2Proof.Machine.execBlockFixed bfinal s
  | .blockDynamic bfinal => Sys2Proof.Machine.execBlockDynamic bfinal s
  | .blockReserved bfinal => Sys2Proof.Machine.execBlockReserved bfinal s
  | .llLiteral byte => Sys2Proof.Machine.execLlLiteral byte s
  | .llEob => Sys2Proof.Machine.execLlEob s
  | .llLen257 => Sys2Proof.Machine.execLlLen257 s
  | .llLen258 => Sys2Proof.Machine.execLlLen258 s
  | .llLen259 => Sys2Proof.Machine.execLlLen259 s
  | .llLen260 => Sys2Proof.Machine.execLlLen260 s
  | .llLen261 => Sys2Proof.Machine.execLlLen261 s
  | .llLen262 => Sys2Proof.Machine.execLlLen262 s
  | .llLen263 => Sys2Proof.Machine.execLlLen263 s
  | .llLen264 => Sys2Proof.Machine.execLlLen264 s
  | .llLen265 => Sys2Proof.Machine.execLlLen265 s
  | .llLen266 => Sys2Proof.Machine.execLlLen266 s
  | .llLen267 => Sys2Proof.Machine.execLlLen267 s
  | .llLen268 => Sys2Proof.Machine.execLlLen268 s
  | .llLen269 => Sys2Proof.Machine.execLlLen269 s
  | .llLen270 => Sys2Proof.Machine.execLlLen270 s
  | .llLen271 => Sys2Proof.Machine.execLlLen271 s
  | .llLen272 => Sys2Proof.Machine.execLlLen272 s
  | .llLen273 => Sys2Proof.Machine.execLlLen273 s
  | .llLen274 => Sys2Proof.Machine.execLlLen274 s
  | .llLen275 => Sys2Proof.Machine.execLlLen275 s
  | .llLen276 => Sys2Proof.Machine.execLlLen276 s
  | .llLen277 => Sys2Proof.Machine.execLlLen277 s
  | .llLen278 => Sys2Proof.Machine.execLlLen278 s
  | .llLen279 => Sys2Proof.Machine.execLlLen279 s
  | .llLen280 => Sys2Proof.Machine.execLlLen280 s
  | .llLen281 => Sys2Proof.Machine.execLlLen281 s
  | .llLen282 => Sys2Proof.Machine.execLlLen282 s
  | .llLen283 => Sys2Proof.Machine.execLlLen283 s
  | .llLen284 => Sys2Proof.Machine.execLlLen284 s
  | .llLen285 => Sys2Proof.Machine.execLlLen285 s
  | .llReserved286 => Sys2Proof.Machine.execLlReserved286 s
  | .llReserved287 => Sys2Proof.Machine.execLlReserved287 s
  | .dDist0 => Sys2Proof.Machine.execDDist0 s
  | .dDist1 => Sys2Proof.Machine.execDDist1 s
  | .dDist2 => Sys2Proof.Machine.execDDist2 s
  | .dDist3 => Sys2Proof.Machine.execDDist3 s
  | .dDist4 => Sys2Proof.Machine.execDDist4 s
  | .dDist5 => Sys2Proof.Machine.execDDist5 s
  | .dDist6 => Sys2Proof.Machine.execDDist6 s
  | .dDist7 => Sys2Proof.Machine.execDDist7 s
  | .dDist8 => Sys2Proof.Machine.execDDist8 s
  | .dDist9 => Sys2Proof.Machine.execDDist9 s
  | .dDist10 => Sys2Proof.Machine.execDDist10 s
  | .dDist11 => Sys2Proof.Machine.execDDist11 s
  | .dDist12 => Sys2Proof.Machine.execDDist12 s
  | .dDist13 => Sys2Proof.Machine.execDDist13 s
  | .dDist14 => Sys2Proof.Machine.execDDist14 s
  | .dDist15 => Sys2Proof.Machine.execDDist15 s
  | .dDist16 => Sys2Proof.Machine.execDDist16 s
  | .dDist17 => Sys2Proof.Machine.execDDist17 s
  | .dDist18 => Sys2Proof.Machine.execDDist18 s
  | .dDist19 => Sys2Proof.Machine.execDDist19 s
  | .dDist20 => Sys2Proof.Machine.execDDist20 s
  | .dDist21 => Sys2Proof.Machine.execDDist21 s
  | .dDist22 => Sys2Proof.Machine.execDDist22 s
  | .dDist23 => Sys2Proof.Machine.execDDist23 s
  | .dDist24 => Sys2Proof.Machine.execDDist24 s
  | .dDist25 => Sys2Proof.Machine.execDDist25 s
  | .dDist26 => Sys2Proof.Machine.execDDist26 s
  | .dDist27 => Sys2Proof.Machine.execDDist27 s
  | .dDist28 => Sys2Proof.Machine.execDDist28 s
  | .dDist29 => Sys2Proof.Machine.execDDist29 s
  | .dReserved30 => Sys2Proof.Machine.execDReserved30 s
  | .dReserved31 => Sys2Proof.Machine.execDReserved31 s
  | .clLength len => Sys2Proof.Machine.execClLength len s
  | .clRep16 => Sys2Proof.Machine.execClRep16 s
  | .clRep17 => Sys2Proof.Machine.execClRep17 s
  | .clRep18 => Sys2Proof.Machine.execClRep18 s

end Sys2Proof.Machine
end

