-- ==== Sys2Proof/Machine/Fetch.lean ====
section
/-! DEFINITION. Taking the next command or stream element, and placing one where the next step takes it (log entries 2 and 8). -/

namespace Sys2Proof.Machine

/-- The host's next command is begun: it leaves the queue, and its payload stands beside it (spec/30_encoding.md R61). -/
def takeCommand (c : HostCommand) (rest : List HostCommand) (s : State) : State := { s with cmds := rest, payload := c.payload }

/-- The payload of a placed word: for `LDBUF` its `n` elements, all 0, and else none. -/
def placedPayload (w : CmdWord) : List Nat :=
  if opField w = 4 then List.replicate (vField w).toNat 0 else []

/-- Place a command word so that the next step takes it: at the head of the queue, and between commands. -/
def placeCommand (w : CmdWord) (s : State) : State :=
  { s with
    cmds := { word := w, payload := placedPayload w } :: s.cmds
    bcState := if running s then .idle else s.bcState }

/-- Replace the stream from the cursor on by the bits given and zeros after them. -/
def placeBits (bs : List Bool) (s : State) : State :=
  { s with
    bits := s.bits.take s.rpos ++ bs ++ List.replicate 48 false
    rpos := (s.bits.take s.rpos).length }

/-- A tree in which the symbol given is the only one with a code, the 1-bit code 0: the tree of the lengths `0, …, 0, 1` (R121),
its nodes numbered as log entry 15 says. -/
def oneCodeTree (symbol : Nat) : Tree :=
  { built := true
    n := symbol + 1
    arena := [.branch 0 (some 1) none, .leaf symbol 0]
    root := 0
    tab := List.replicate symbol ⟨0, 0⟩ ++ [⟨0, 1⟩] }

/-- Place a stream element so that the next step takes it: its bits at the cursor, `BC.state` the state that reads it, and a tree
that has a code for it. -/
def placeElement (f : Format) (v : Nat) (s : State) : State :=
  match f with
  | .cmd64 => s
  | .blkHdr => placeBits (lsbBits v 3) { s with bcState := .readHeader }
  | .llSym => placeBits [false] { s with bcState := .blockBody, lenPending := none, tLl := oneCodeTree v }
  | .dSym => placeBits [false] { s with bcState := .blockBody, lenPending := some minMatch, tD := oneCodeTree v }
  | .clSym =>
    placeBits [false] { s with bcState := .dynamicHuffman, tCl := oneCodeTree v, dynNlen := 257, dynNdist := 1, dynLens := [] }

end Sys2Proof.Machine
end

