-- ==== Sys2Proof/Machine/Step.lean ====
section
/-! DEFINITION. One step of an instance. Between commands it takes the next command of the host, or waits where there is none
(spec/10_state.md R29, spec/70_reset_and_hazards.md R226); while an `INFLATE` runs it takes the next element of the stream and no
command (spec/20_memory.md R50). -/

namespace Sys2Proof.Machine

/-- Perform an instruction, or do what the machine does for a word that is none. -/
def runDecoded (d : Except DecodeError Instr) (otherwise s : State) : Step :=
  match d with
  | .ok i => exec i s
  | .error _ => .next otherwise

/-- Take the host's next command (R226): a word that is no command is refused (R203); with none issued the instance waits. -/
def stepCommand (s : State) : Step :=
  match s.cmds with
  | [] => .next s
  | c :: rest => runDecoded (decode .cmd64 c.word) (refuse (takeCommand c rest s)) (takeCommand c rest s)

/-- Take the next element of the stream (R150). -/
def stepElement (f : Format) (s : State) : Step :=
  match fetchElement f s with
  | .error s' => .next s'
  | .ok (v, s') => runDecoded (decode f (BitVec.ofNat 64 v)) (performElement f v s') s'

/-- One step: a command between commands, and inside `INFLATE` the step that `BC.state` defines. -/
def step (s : State) : Host.Outcome State Fault Refusal :=
  match s.bcState with
  | .idle | .done | .failed => stepCommand s
  | .stored => .next (storedBody s)
  | .fixedHuffman => .next (fixedBody s)
  | .readHeader => stepElement .blkHdr s
  | .dynamicHuffman => stepElement .clSym s
  | .blockBody => stepElement (if s.lenPending.isSome then .dSym else .llSym) s

/-- `s` with the instruction of `nbits` opcode-table bits of value `w` where `step` takes its next instruction: a command at the
head of the host's commands, a stream element at the read cursor, `BC.state` being the state that takes it (log entry 8). -/
def State.withFetchWord (s : State) (nbits w : Nat) : State :=
  match tableFormat nbits w with
  | (.cmd64, v) => placeCommand (BitVec.ofNat 64 v) s
  | (f, v) => placeElement f v s

end Sys2Proof.Machine
end

