-- ==== Sys2Proof/Safety.lean ====
section
/-! DEFINITION. What counts as a good state and a good run, in the terms claims use: the form of the address spaces
(spec/20_memory.md R40), the invariants the rules of spec/10_state.md state, and a clean run (spec/70_reset_and_hazards.md R231). -/

namespace Sys2Proof

open Sys2Proof.Machine

/-- A token that the type of R23 allows: a match has length 3..258 and distance 1..32768. -/
def tokenLegal : Token → Bool
  | .literal _ => true
  | .backRef length distance => decide (3 ≤ length ∧ length ≤ 258 ∧ 1 ≤ distance ∧ distance ≤ 32768)

/-- The form of the six address spaces (R40, R11, R23). Each space is a finite sequence indexed from 0 and is held as a list, so
equal contents are equal data; what remains to say is that `FREQ` has exactly `HUF_N` elements, that the cursor of `BS` is not past
its end, and that every element of `TOK` is a token. -/
def Memory.wf (s : State) : Bool :=
  decide (s.freq.length = s.hufN.toNat) && decide (s.rpos ≤ s.bits.length) && s.tok.all tokenLegal

/-- The invariants of the state: those the rules of spec/10_state.md state, and the range of the transient state of an `INFLATE`. -/
structure StateInv (s : State) : Prop where
  /-- The address spaces have their form (R11, R23, R40). -/
  memory : Memory.wf s = true
  /-- `WINDOW` is legal (R17). -/
  window : 1 ≤ s.window.toNat ∧ s.window.toNat ≤ 32768
  /-- `HUF_N` is legal (R17). -/
  hufN : 1 ≤ s.hufN.toNat ∧ s.hufN.toNat ≤ 288
  /-- `ERR_BYTEOFF` is `ERR_BITOFF >> 3` (R16, R18). -/
  errOffset : s.errByteOff = s.errBitOff / 8
  /-- `ERR_KIND` is not 0 exactly in `Failed` (R15, R16, R197, R202). -/
  errKind : s.errKind.isSome = true ↔ s.bcState = .failed
  /-- The bytes counted by `OUT_VALID` are in `OUT` (R14). -/
  outValid : s.outValid ≤ s.out.length
  /-- A built user tree is one of the present alphabet, and its table has an entry for each symbol (R17, R21, R22). -/
  userTree : s.tUser.built = true → s.tUser.n = s.hufN.toNat ∧ s.tUser.tab.length = s.tUser.n
  /-- A length is pending only in `BlockBody`, and it is a match length (R24, R163). -/
  lenPending : ∀ len, s.lenPending = some len → s.bcState = .blockBody ∧ 3 ≤ len ∧ len ≤ 258
  /-- The dynamic header's counts exist only in `DynamicHuffman` (R24, R155). -/
  dynIdle : s.bcState ≠ .dynamicHuffman → s.dynNlen = 0 ∧ s.dynNdist = 0 ∧ s.dynLens = []
  /-- In `DynamicHuffman` the counts are legal, lengths are missing (R155, R158), and the code-length tree of the 19 code-length
  symbols is there (R157). -/
  dynRunning : s.bcState = .dynamicHuffman →
    257 ≤ s.dynNlen ∧ s.dynNlen ≤ 286 ∧ 1 ≤ s.dynNdist ∧ s.dynNdist ≤ 30 ∧
      s.dynLens.length < s.dynNlen + s.dynNdist ∧ s.tCl.built = true ∧ s.tCl.n = 19
  /-- In `BlockBody` the two trees of the block are there, over alphabets of at most 288 and 32 symbols (R70, R154, R159). -/
  blockTrees : s.bcState = .blockBody → s.tLl.built = true ∧ s.tLl.n ≤ 288 ∧ s.tD.built = true ∧ s.tD.n ≤ 32

/-- The result of a command of a clean run (R231): neither `Error` nor `Refused`. -/
def cleanResult : Result → Bool
  | .pending => true
  | .ok _ => true
  | .error _ => false
  | .refused => false

/-- A state a clean run may pass through (R231). -/
def Clean (s : State) : Prop := cleanResult s.result = true

/-! ### The words of the claims

What follows says in the spec's own terms what the claims of Sys2Proof/Certificates/Slice0/Obligations.lean compare the machine
with. Where the spec prints a table or a formula, it stands here as the spec prints it, and not through the machine's operations. -/

namespace Claims

/-- The state that error entry leaves (R196): the four assignments, the result `Error(Kind)`, and the end of the command's transient
state (R24). -/
def errorAt (k : ErrorKind) (off : Nat) (s : State) : State :=
  { s with
    errKind := some k, errBitOff := off, errByteOff := off / 8, bcState := .failed, result := .error k
    lenPending := none, dynNlen := 0, dynNdist := 0, dynLens := [] }

/-- The state a refused command leaves (R203): no state of the instance changes. -/
def refusedIn (s : State) : State := { s with result := .refused }

/-- The state with the result `Ok` and a value (R64). -/
def okWith (v : Value) (s : State) : State := { s with result := .ok v }

/-- A length is within the greatest counter and within a capacity (R5, R13). -/
def within (c : Config) (cap : Option Nat) (n : Nat) : Prop :=
  n ≤ 2 ^ c.lenW - 1 ∧ cap.all (fun k => decide (n ≤ k)) = true

/-- The number of a state of `BC.state` (R14). -/
def stateNumber : BcState → Nat
  | .idle => 0 | .readHeader => 1 | .stored => 2 | .fixedHuffman => 3
  | .dynamicHuffman => 4 | .blockBody => 5 | .done => 6 | .failed => 7

/-- The code of an error kind (R190). -/
def kindNumber : Option ErrorKind → Nat
  | none => 0
  | some .invalidBitValue => 1
  | some .malformedBlockHeader => 2
  | some .truncatedStream => 3
  | some .invalidHuffmanTree => 4
  | some .symbolOutOfRange => 5
  | some .windowViolation => 6

/-- `STATUS` as R181 assembles it: `FAILED | DONE << 1 | BC.bfinal << 2 | BC.btype << 3 | BC.state << 5`. -/
def statusNumber (s : State) : Nat :=
  (if s.bcState = .failed then 1 else 0) + (if s.bcState = .done then 2 else 0) + (if s.bfinal then 4 else 0) +
    8 * s.btype.toNat + 32 * stateNumber s.bcState

/-- The registers 0 to 11 in the order of the map (R18). -/
def registers (s : State) : List Nat :=
  [ statusNumber s, kindNumber s.errKind, s.errBitOff, s.errByteOff, s.window.toNat, s.hufN.toNat,
    s.bits.length, s.rpos, s.out.length, s.outValid, s.tok.length, s.sym.length ]

/-- The 32-bit entry of a token (R23): a literal is its byte; a match has the tag in bit 31, the length in bits 24:16 and the distance
in bits 15:0. -/
def tokenNumber : Token → Nat
  | .literal b => b.toNat
  | .backRef length distance => 2 ^ 31 + length * 2 ^ 16 + distance

/-- A field of `n` bits in stream order `LSB`: bit 0 first (R8, R44). -/
def field (n v : Nat) : List Bool := (List.range n).map v.testBit

/-- A field of `n` bits in stream order `MSB`: bit `n − 1` first (R8, R45). -/
def fieldMsb (n v : Nat) : List Bool := (List.range n).map fun k => v.testBit (n - 1 - k)

/-- The stream bits of a code: its bit `length − 1` first (R45). -/
def codeBits (e : CodeEntry) : List Bool := fieldMsb e.length e.code

/-- The code of a symbol in a tree's table (R21). -/
def tableEntry (t : Tree) (x : Nat) : CodeEntry := t.tab.getD x ⟨0, 0⟩

/-- The stream bits of raw bytes, each `LSB` (R44). -/
def byteBits (xs : List Byte) : List Bool := xs.flatMap fun x => field 8 x.toNat

/-! #### Trees -/

/-- The node that is reached from node `i` along bits, 0 to the left and 1 to the right (R20, R121). -/
def follow (arena : List Node) : List Bool → Nat → Option Nat
  | [], i => some i
  | b :: bs, i =>
    match arena[i]? with
    | some (.branch _ left right) =>
      match (if b then right else left) with
      | some c => follow arena bs c
      | none => none
    | some (.leaf _ _) => none
    | none => none

/-- The bits spell a symbol: they lead from the root to its leaf; in the degenerate tree they are the one bit 0 (R114, R124). -/
def spells (t : Tree) (w : List Bool) (x : Nat) : Prop :=
  (w ≠ [] ∧ ∃ c f, follow t.arena w t.root = some c ∧ t.arena[c]? = some (.leaf x f)) ∨
    (w = [false] ∧ ∃ f, t.arena[t.root]? = some (.leaf x f))

/-- The bits end inside the tree: they lead to a branch, or there are none (R124). -/
def unfinished (t : Tree) (w : List Bool) : Prop :=
  w = [] ∨ ∃ c f l r, follow t.arena w t.root = some c ∧ t.arena[c]? = some (.branch f l r)

/-- After the bits `w` the bit `b` steps to a missing child; the right child of the degenerate tree is missing (R114, R124). -/
def missing (t : Tree) (w : List Bool) (b : Bool) : Prop :=
  (∃ c f l r, follow t.arena w t.root = some c ∧ t.arena[c]? = some (.branch f l r) ∧ (if b then r else l) = none) ∨
    (w = [] ∧ b = true ∧ ∃ x f, t.arena[t.root]? = some (.leaf x f))

/-- The walk over the bits takes `w` and then raises (R124, R193 to R195): the bits end inside the tree, or the last bit of `w` steps to a
missing child, or `w` leads to a leaf outside the alphabet. -/
def stopsAfter (t : Tree) (bits w : List Bool) (k : ErrorKind) : Prop :=
  (k = .truncatedStream ∧ bits = w ∧ unfinished t w) ∨
    (k = .invalidHuffmanTree ∧ ∃ w' b rest, w = w' ++ [b] ∧ bits = w ++ rest ∧ missing t w' b) ∨
    (k = .symbolOutOfRange ∧ ∃ x rest, bits = w ++ rest ∧ spells t w x ∧ t.n ≤ x)

/-- The tree from which the next symbol is read, and the symbol's format (R158, R160, R163). -/
def nextTree (s : State) (f : Format) (t : Tree) : Prop :=
  (s.bcState = .dynamicHuffman ∧ f = .clSym ∧ t = s.tCl) ∨
    (s.bcState = .blockBody ∧ s.lenPending = none ∧ f = .llSym ∧ t = s.tLl) ∨
    (s.bcState = .blockBody ∧ s.lenPending.isSome = true ∧ f = .dSym ∧ t = s.tD)

/-- The frequency of a node (R20). -/
def nodeFreq (arena : List Node) (i : Nat) : Nat :=
  match arena[i]? with
  | some (.leaf _ f) => f.toNat
  | some (.branch f _ _) => f.toNat
  | none => 0

/-- Node `i` is a child of a branch below node `k`. -/
def childBelow (arena : List Node) (k i : Nat) : Prop :=
  ∃ j f l r, j < k ∧ arena[j]? = some (.branch f l r) ∧ (l = some i ∨ r = some i)

/-- Node `i` is in the queue when node `k` is made (R112): it exists, and no branch has taken it. -/
def waiting (arena : List Node) (k i : Nat) : Prop := i < k ∧ ¬ childBelow arena k i

/-- The order of the queue (R115): lower frequency first, among equal frequencies the lower node index. -/
def before (arena : List Node) (i j : Nat) : Prop :=
  nodeFreq arena i < nodeFreq arena j ∨ (nodeFreq arena i = nodeFreq arena j ∧ i < j)

/-- Exactly one symbol below `n` has a frequency that is not 0 (R111). -/
def oneFrequency (n : Nat) (freq : List Freq) : Prop :=
  ∃ x, x < n ∧ freq.getD x 0 ≠ 0 ∧ ∀ y, y < n → y ≠ x → freq.getD y 0 = 0

/-- The sum of R122 for a set of code lengths. -/
def codeSpace (lengths : List Nat) (maxbits : Nat) : Nat :=
  (lengths.map fun l => if l = 0 then 0 else 2 ^ (maxbits - l)).sum

/-! #### The match finder -/

/-- The candidate of `k` bytes at `i` occurs at `f` (R137). -/
def occurs (data : List Byte) (f i k : Nat) : Prop := i + k ≤ data.length ∧ ∀ j, j < k → data[f + j]? = data[i + j]?

/-- `D` bytes back from `i` is inside the window (R137). -/
def inWindow (w i d : Nat) : Prop := 1 ≤ d ∧ d ≤ i ∧ d ≤ w

/-- The tokens of a greedy scan from index `i` (R136 to R141): each token is taken at the first byte not yet covered, with the
longest length found there (up to 258 and the end of the input), at the nearest place. -/
def greedy (data : List Byte) (w : Nat) : Nat → List Token → Prop
  | i, [] => data.length ≤ i
  | i, .literal b :: ts =>
    data[i]? = some b ∧ (∀ d, inWindow w i d → ¬ occurs data (i - d) i 3) ∧ greedy data w (i + 1) ts
  | i, .backRef len d :: ts =>
    3 ≤ len ∧ len ≤ 258 ∧ inWindow w i d ∧ occurs data (i - d) i len ∧
      (∀ d', inWindow w i d' → d' < d → ¬ occurs data (i - d') i len) ∧
      (len < 258 → ∀ d', inWindow w i d' → ¬ occurs data (i - d') i (len + 1)) ∧ greedy data w (i + len) ts

/-- A match copy (R165): `repeat L times: append(OUT, OUT[|OUT| − D])`. -/
def copyBack (d : Nat) : Nat → List Byte → List Byte
  | 0, out => out
  | n + 1, out => copyBack d n (out ++ [out.getD (out.length - d) 0])

/-- Replaying tokens (R142). -/
def replay : List Token → List Byte → List Byte
  | [], out => out
  | .literal b :: ts, out => replay ts (out ++ [b])
  | .backRef len d :: ts, out => replay ts (copyBack d len out)

/-! #### The tables -/

/-- A row of a range table: the element, its symbol, its extra bits, and its inclusive range. -/
structure Row where
  instr : Instr
  symbol : Nat
  extra : Nat
  base : Nat
  top : Nat
  deriving DecidableEq, Repr

/-- The length symbols, as R72 prints them. -/
def lengthRows : List Row :=
  [ ⟨.llLen257, 257, 0, 3, 3⟩, ⟨.llLen258, 258, 0, 4, 4⟩, ⟨.llLen259, 259, 0, 5, 5⟩, ⟨.llLen260, 260, 0, 6, 6⟩,
    ⟨.llLen261, 261, 0, 7, 7⟩, ⟨.llLen262, 262, 0, 8, 8⟩, ⟨.llLen263, 263, 0, 9, 9⟩, ⟨.llLen264, 264, 0, 10, 10⟩,
    ⟨.llLen265, 265, 1, 11, 12⟩, ⟨.llLen266, 266, 1, 13, 14⟩, ⟨.llLen267, 267, 1, 15, 16⟩, ⟨.llLen268, 268, 1, 17, 18⟩,
    ⟨.llLen269, 269, 2, 19, 22⟩, ⟨.llLen270, 270, 2, 23, 26⟩, ⟨.llLen271, 271, 2, 27, 30⟩, ⟨.llLen272, 272, 2, 31, 34⟩,
    ⟨.llLen273, 273, 3, 35, 42⟩, ⟨.llLen274, 274, 3, 43, 50⟩, ⟨.llLen275, 275, 3, 51, 58⟩, ⟨.llLen276, 276, 3, 59, 66⟩,
    ⟨.llLen277, 277, 4, 67, 82⟩, ⟨.llLen278, 278, 4, 83, 98⟩, ⟨.llLen279, 279, 4, 99, 114⟩, ⟨.llLen280, 280, 4, 115, 130⟩,
    ⟨.llLen281, 281, 5, 131, 162⟩, ⟨.llLen282, 282, 5, 163, 194⟩, ⟨.llLen283, 283, 5, 195, 226⟩,
    ⟨.llLen284, 284, 5, 227, 257⟩, ⟨.llLen285, 285, 0, 258, 258⟩ ]

/-- The distance symbols, as R74 prints them. -/
def distanceRows : List Row :=
  [ ⟨.dDist0, 0, 0, 1, 1⟩, ⟨.dDist1, 1, 0, 2, 2⟩, ⟨.dDist2, 2, 0, 3, 3⟩, ⟨.dDist3, 3, 0, 4, 4⟩, ⟨.dDist4, 4, 1, 5, 6⟩,
    ⟨.dDist5, 5, 1, 7, 8⟩, ⟨.dDist6, 6, 2, 9, 12⟩, ⟨.dDist7, 7, 2, 13, 16⟩, ⟨.dDist8, 8, 3, 17, 24⟩, ⟨.dDist9, 9, 3, 25, 32⟩,
    ⟨.dDist10, 10, 4, 33, 48⟩, ⟨.dDist11, 11, 4, 49, 64⟩, ⟨.dDist12, 12, 5, 65, 96⟩, ⟨.dDist13, 13, 5, 97, 128⟩,
    ⟨.dDist14, 14, 6, 129, 192⟩, ⟨.dDist15, 15, 6, 193, 256⟩, ⟨.dDist16, 16, 7, 257, 384⟩, ⟨.dDist17, 17, 7, 385, 512⟩,
    ⟨.dDist18, 18, 8, 513, 768⟩, ⟨.dDist19, 19, 8, 769, 1024⟩, ⟨.dDist20, 20, 9, 1025, 1536⟩, ⟨.dDist21, 21, 9, 1537, 2048⟩,
    ⟨.dDist22, 22, 10, 2049, 3072⟩, ⟨.dDist23, 23, 10, 3073, 4096⟩, ⟨.dDist24, 24, 11, 4097, 6144⟩,
    ⟨.dDist25, 25, 11, 6145, 8192⟩, ⟨.dDist26, 26, 12, 8193, 12288⟩, ⟨.dDist27, 27, 12, 12289, 16384⟩,
    ⟨.dDist28, 28, 13, 16385, 24576⟩, ⟨.dDist29, 29, 13, 24577, 32768⟩ ]

/-- The code of a literal/length symbol in `FIXED_LL`, as R70 prints it. -/
def fixedLlCode (x : Nat) : CodeEntry :=
  if x ≤ 143 then ⟨0x30 + x, 8⟩
  else if x ≤ 255 then ⟨0x190 + (x - 144), 9⟩
  else if x ≤ 279 then ⟨x - 256, 7⟩
  else ⟨0xC0 + (x - 280), 8⟩

/-- The code of a distance symbol in `FIXED_D` (R70). -/
def fixedDCode (d : Nat) : CodeEntry := ⟨d, 5⟩

/-- The code-length symbols in the order in which their lengths are transmitted (R77). -/
def clSymbols : List Nat := [16, 17, 18, 0, 8, 7, 9, 6, 10, 5, 11, 4, 12, 3, 13, 2, 14, 1, 15]

/-- The code-length code lengths by symbol, when `xs` are transmitted: the others are 0 (R77, R156). -/
def clLengths (xs : List Nat) : List Nat := (List.range 19).map fun v => xs.getD (clSymbols.idxOf v) 0

/-- The stream bits of a token are `bs` (R173, R174). -/
def tokenBits (t : Token) (bs : List Bool) : Prop :=
  match t with
  | .literal b => bs = codeBits (fixedLlCode b.toNat)
  | .backRef len d =>
    ∃ lr ∈ lengthRows, lr.base ≤ len ∧ len ≤ lr.top ∧ ∃ dr ∈ distanceRows, dr.base ≤ d ∧ d ≤ dr.top ∧
      bs = codeBits (fixedLlCode lr.symbol) ++ field lr.extra (len - lr.base) ++
        codeBits (fixedDCode dr.symbol) ++ field dr.extra (d - dr.base)

/-! #### Blocks -/

/-- The bits of one stored block of R171 that begins at a byte boundary: BFINAL, BTYPE 0, five zero bits, LEN, NLEN, the bytes. -/
def storedBits (last : Bool) (c : List Byte) : List Bool :=
  [last, false, false] ++ List.replicate 5 false ++ field 16 c.length ++ field 16 (65535 - c.length) ++ byteBits c

/-- The bits of the stored blocks of chunks, the last one with BFINAL = 1 (R171). -/
def storedStream : List (List Byte) → List Bool
  | [] => []
  | [c] => storedBits true c
  | c :: c' :: cs => storedBits false c ++ storedStream (c' :: cs)

/-- The cut of R171: chunks of 65535 bytes, the last one shorter; an empty input has one empty chunk. That the last chunk of an input
whose length is a positive multiple of 65535 is a full one, with no empty chunk after it, is the model's choice (log entry 16). -/
def isCut (data : List Byte) : List (List Byte) → Prop
  | [] => False
  | [c] => c = data ∧ c.length ≤ 65535
  | c :: c' :: cs => c.length = 65535 ∧ c' ≠ [] ∧ c = data.take 65535 ∧ isCut (data.drop 65535) (c' :: cs)

/-- The next multiple of 8 (R46). -/
def aligned (p : Nat) : Nat := 8 * ((p + 7) / 8)

/-- The state at a block header of fields `f`, `t` (R152). -/
def withHeader (f : Bool) (t : BitVec 2) (s : State) : State := { s with bfinal := f, btype := t }

/-- The state at the end of a block (R166). -/
def blockEnd (s : State) : State :=
  if s.bfinal then { s with outValid := s.out.length, bcState := .done, result := .ok .nothing }
  else { s with outValid := s.out.length, bcState := .readHeader }

/-- What follows when the code lengths read so far are `lens` (R158, R159): more are read; or the literal/length tree is built and
checked, then the distance tree, and the block's body begins. -/
def afterLengths (lens : List Nat) (s : State) : State :=
  if lens.length < s.dynNlen + s.dynNdist then { s with dynLens := lens }
  else if 2 ^ 15 < codeSpace (lens.take s.dynNlen) 15 then errorAt .invalidHuffmanTree s.rpos s
  else if 2 ^ 15 < codeSpace (lens.drop s.dynNlen) 15 then
    errorAt .invalidHuffmanTree s.rpos { s with tLl := treeOfLengths (lens.take s.dynNlen) 15 }
  else
    { s with
      tLl := treeOfLengths (lens.take s.dynNlen) 15, tD := treeOfLengths (lens.drop s.dynNlen) 15, bcState := .blockBody
      dynNlen := 0, dynNdist := 0, dynLens := [] }

/-- `k` steps of the machine. -/
def run : Nat → State → Step
  | 0, s => .next s
  | k + 1, s =>
    match step s with
    | .next s' => run k s'
    | .fault r => .fault r
    | .refused r => .refused r

end Claims

end Sys2Proof
end

