-- ==== Sys2Proof/Certificates/Slice0/Obligations.lean ====
section
/-! DEFINITION. The statements for the provers, from the numbered rules of spec/. The words they use stand in Sys2Proof/Safety.lean
(`Claims`). An equation `exec i s = .next { s with … }` is a result and a frame in one: every field it does not name is unchanged,
and the instruction completes. `s.bcState ≠ .failed` is the test of `FAILED` that every command makes first (R197), and
`Claims.within` the limits of R13. -/

open Sys2Proof Sys2Proof.Machine Sys2Proof.Claims

/-! ### System commands -/

/-- R180 with the table of R29: `RESET` puts every piece of state at its reset value, in every state, `Failed` too. The contents of an
unbuilt tree are unspecified and no claim is made about them. -/
def Obligations.ResetGivesTheResetValues : Prop :=
  ∀ s : State, ∃ t, exec .reset s = .next t ∧
    t.bits = [] ∧ t.rpos = 0 ∧ t.bcState = .idle ∧ t.bfinal = false ∧ t.btype = 0 ∧ t.outValid = 0 ∧
    t.errKind = none ∧ t.errBitOff = 0 ∧ t.errByteOff = 0 ∧ t.window.toNat = 32768 ∧ t.hufN.toNat = 256 ∧
    t.freq.length = 256 ∧ (∀ f ∈ t.freq, f = 0) ∧ t.tUser.built = false ∧ t.tCl.built = false ∧ t.tLl.built = false ∧
    t.tD.built = false ∧ t.inBuf = [] ∧ t.out = [] ∧ t.sym = [] ∧ t.tok = [] ∧ t.result = .ok .nothing ∧ registers t =
      [0, 0, 0, 0, 32768, 256, 0, 0, 0, 0, 0, 0]

/-- R181 with the map of R18: `RDREG` returns the register's value in every state, `Failed` too, and changes nothing; the numbers 12 to
255 are refused. -/
def Obligations.RegisterReadReturnsTheRegister : Prop :=
  ∀ (s : State) (r : BitVec 8), exec (.rdreg r) s = .next (match (registers s)[r.toNat]? with
    | some v => okWith (.number v) s
    | none => refusedIn s)

/-- R182: a legal write of `WINDOW` or of `HUF_N`, with the side effects of the second (R17); every other write is refused. -/
def Obligations.RegisterWriteSetsWindowOrAlphabet : Prop :=
  ∀ (s : State) (r : BitVec 8) (val : BitVec 32), s.bcState ≠ .failed →
    (r.toNat = 4 → 1 ≤ val.toNat → val.toNat ≤ 32768 →
      ∃ t, exec (.wrreg r val) s = .next t ∧ t.window.toNat = val.toNat ∧ t = okWith .nothing { s with window := t.window }) ∧
    (r.toNat = 5 → 1 ≤ val.toNat → val.toNat ≤ 288 →
      ∃ t, exec (.wrreg r val) s = .next t ∧ t.hufN.toNat = val.toNat ∧ t.freq.length = val.toNat ∧ (∀ f ∈ t.freq, f = 0) ∧
        t.tUser.built = false ∧ t = okWith .nothing { s with hufN := t.hufN, freq := t.freq, tUser := t.tUser }) ∧
    (r.toNat = 4 → val.toNat = 0 ∨ 32768 < val.toNat → exec (.wrreg r val) s = .next (refusedIn s)) ∧
    (r.toNat = 5 → val.toNat = 0 ∨ 288 < val.toNat → exec (.wrreg r val) s = .next (refusedIn s)) ∧
    (r.toNat ≠ 4 → r.toNat ≠ 5 → exec (.wrreg r val) s = .next (refusedIn s))

/-- R183: `LDBUF` replaces the whole of `IN`, `SYM` or `FREQ` by a payload that fits, and refuses every other request. The payload has
the `n` elements that the word declares, as the rule says. -/
def Obligations.BufferLoadReplacesTheBuffer : Prop :=
  ∀ (s : State) (b : BitVec 8) (n : BitVec 32), s.bcState ≠ .failed → s.payload.length = n.toNat →
    (b.toNat = 0 → within s.cfg s.cfg.inCap n.toNat → (∀ x ∈ s.payload, x ≤ 0xFF) →
      ∃ t, exec (.ldbuf b n) s = .next t ∧ t.inBuf.map BitVec.toNat = s.payload ∧ t = okWith .nothing { s with inBuf := t.inBuf }) ∧
    (b.toNat = 2 → within s.cfg s.cfg.symCap n.toNat → (∀ x ∈ s.payload, x ≤ 0xFFFF) →
      ∃ t, exec (.ldbuf b n) s = .next t ∧ t.sym.map BitVec.toNat = s.payload ∧ t = okWith .nothing { s with sym := t.sym }) ∧
    (b.toNat = 4 → n.toNat = s.hufN.toNat → (∀ x ∈ s.payload, x ≤ 2 ^ 32 - 1) →
      ∃ t, exec (.ldbuf b n) s = .next t ∧ t.freq.map BitVec.toNat = s.payload ∧ t = okWith .nothing { s with freq := t.freq }) ∧
    (b.toNat = 0 → ¬ within s.cfg s.cfg.inCap n.toNat ∨ (∃ x ∈ s.payload, 0xFF < x) →
      exec (.ldbuf b n) s = .next (refusedIn s)) ∧
    (b.toNat = 2 → ¬ within s.cfg s.cfg.symCap n.toNat ∨ (∃ x ∈ s.payload, 0xFFFF < x) →
      exec (.ldbuf b n) s = .next (refusedIn s)) ∧
    (b.toNat = 4 → n.toNat ≠ s.hufN.toNat ∨ (∃ x ∈ s.payload, 2 ^ 32 - 1 < x) → exec (.ldbuf b n) s = .next (refusedIn s)) ∧
    (b.toNat ≠ 0 → b.toNat ≠ 2 → b.toNat ≠ 4 → exec (.ldbuf b n) s = .next (refusedIn s))

/-- R184: `RDBUF` returns the whole of a buffer in every state, `Failed` too, a token as its 32-bit entry (R23), and changes nothing;
the numbers 5 to 255 are refused. That every element of `TOK` is a token is part of the invariant `StateInv`. -/
def Obligations.BufferReadReturnsTheWholeBuffer : Prop :=
  ∀ (s : State) (b : BitVec 8), (∀ k ∈ s.tok, tokenLegal k = true) →
    exec (.rdbuf b) s = .next (match
        [s.inBuf.map BitVec.toNat, s.out.map BitVec.toNat, s.sym.map BitVec.toNat, s.tok.map tokenNumber,
          s.freq.map BitVec.toNat][b.toNat]? with
      | some xs => okWith (.elements xs) s
      | none => refusedIn s)

/-- R197: a Failed instance refuses every command but `RESET`, `RDREG`, `RDBUF` and `BS.TOBYTES` (what those four do is said by their own
statements, which hold in every state). -/
def Obligations.FailedRefusesEveryOtherCommand : Prop :=
  ∀ (s : State) (i : Instr), s.bcState = .failed → i.format = .cmd64 → i ≠ .reset → (∀ r, i ≠ .rdreg r) → (∀ b, i ≠ .rdbuf b) →
    i ≠ .bsTobytes → exec i s = .next (refusedIn s)

/-- R63 and R204 (c) to (g), (j), (l), (m): an operand outside the range that R62 gives is refused, in every state. R13 and R204 (n): so
is a command whose result would pass a limit, that is, what the same command does in an instance with other parameters `c` that lets
it through: `HUF.ENCODE` and `DEFLATE` for the stream, `HUF.DECODE` for `SYM`, `LZ.SCAN` and `DEFLATE FIXED` for `TOK`. That the result
includes the one of a command that raises an error later is the model's reading (log entry 7). The other commands that lengthen
something say this in their own statements. -/
def Obligations.OperandsOutOfRangeAreRefused : Prop :=
  (∀ (s : State) (i : Instr), i.wellFormed = false → exec i s = .next (refusedIn s)) ∧
  ∀ (s t : State) (i : Instr) (c : Config), s.bcState ≠ .failed → exec i { s with cfg := c } = .next t → t.result ≠ .refused →
    (i = .hufEncode ∧ s.tUser.built = true ∧ ¬ within s.cfg none t.bits.length) ∨
      ((∃ n, i = .hufDecode n) ∧ s.tUser.built = true ∧ ¬ within s.cfg s.cfg.symCap t.sym.length) ∨
      (i = .lzScan ∧ ¬ within s.cfg s.cfg.tokCap t.tok.length) ∨
      (∃ m : BitVec 8, i = .deflate m ∧
        (¬ within s.cfg none t.bits.length ∨ (m.toNat = 1 ∧ ¬ within s.cfg s.cfg.tokCap t.tok.length))) →
    exec i s = .next (refusedIn s)

/-- Every instruction completes in every state: R196 makes an error a state and R203 a refusal a result. The one stop is the model's own
(log entry 5): `LDBUF` with a payload that has not the number of elements its word declares, which is no request of R183. -/
def Obligations.OnlyAFalsePayloadLengthStops : Prop :=
  ∀ (s : State) (i : Instr), (∃ t, exec i s = .next t) ∨
    ∃ b n, i = .ldbuf b n ∧ s.bcState ≠ .failed ∧ s.payload.length ≠ n.toNat ∧
      exec i s = .fault (.payloadMismatch n.toNat s.payload.length)

/-! ### BitStream commands -/

/-- R96: `BS.CLEAR` leaves an empty stream with its cursor at 0. -/
def Obligations.ClearEmptiesTheStream : Prop :=
  ∀ s : State, s.bcState ≠ .failed → exec .bsClear s = .next (okWith .nothing { s with bits := [], rpos := 0 })

/-- R97: `BS.LOAD` makes the stream of the first `bitlen` bits of `IN`, bit `i` being bit `i mod 8` of byte `floor(i/8)`; a length past
the end of `IN`, or past the greatest counter (R13), is refused. -/
def Obligations.LoadTakesTheBitsOfIn : Prop :=
  ∀ (s : State) (n : BitVec 32), s.bcState ≠ .failed →
    (n.toNat ≤ 8 * s.inBuf.length → within s.cfg none n.toNat →
      ∃ t, exec (.bsLoad n) s = .next t ∧ t = okWith .nothing { s with bits := t.bits, rpos := 0 } ∧ t.bits.length = n.toNat ∧
        ∀ i, i < n.toNat → t.bits[i]? = (s.inBuf[i / 8]?).map fun x => x.toNat.testBit (i % 8)) ∧
    (8 * s.inBuf.length < n.toNat ∨ ¬ within s.cfg none n.toNat → exec (.bsLoad n) s = .next (refusedIn s))

/-- R98, R90: `BS.PUSH` appends the bit; a value other than 0 and 1 is `InvalidBitValue` at `BS.len`, and the stream is not changed. -/
def Obligations.PushAppendsOneBit : Prop :=
  ∀ (s : State) (bit : BitVec 8), s.bcState ≠ .failed →
    (bit.toNat = 0 → within s.cfg none (s.bits.length + 1) →
      exec (.bsPush bit) s = .next (okWith .nothing { s with bits := s.bits ++ [false] })) ∧
    (bit.toNat = 1 → within s.cfg none (s.bits.length + 1) →
      exec (.bsPush bit) s = .next (okWith .nothing { s with bits := s.bits ++ [true] })) ∧
    (bit.toNat ≠ 0 → bit.toNat ≠ 1 → exec (.bsPush bit) s = .next (errorAt .invalidBitValue s.bits.length s)) ∧
    (bit.toNat ≤ 1 → ¬ within s.cfg none (s.bits.length + 1) → exec (.bsPush bit) s = .next (refusedIn s))

/-- R99, R91: `BS.PUSHBITS` appends the field in the order given; a value with a 1 at or above bit `count` is `InvalidBitValue` at
`BS.len`, and a count above 32 is refused. -/
def Obligations.PushbitsAppendsTheField : Prop :=
  ∀ (s : State) (value : BitVec 32) (count : BitVec 8) (o : Order), s.bcState ≠ .failed →
    (count.toNat ≤ 32 → value.toNat < 2 ^ count.toNat → within s.cfg none (s.bits.length + count.toNat) →
      exec (.bsPushbits value count o) s = .next (okWith .nothing { s with bits := s.bits ++ (match o with
        | .lsb => field count.toNat value.toNat
        | .msb => fieldMsb count.toNat value.toNat) })) ∧
    (count.toNat ≤ 32 → 2 ^ count.toNat ≤ value.toNat →
      exec (.bsPushbits value count o) s = .next (errorAt .invalidBitValue s.bits.length s)) ∧
    (count.toNat ≤ 32 → value.toNat < 2 ^ count.toNat → ¬ within s.cfg none (s.bits.length + count.toNat) →
      exec (.bsPushbits value count o) s = .next (refusedIn s)) ∧
    (32 < count.toNat → exec (.bsPushbits value count o) s = .next (refusedIn s))

/-- R100, R92: `BS.READ` returns the bit at the cursor and moves the cursor by one; at the end of the stream it is `TruncatedStream` at
the cursor. -/
def Obligations.ReadReturnsTheNextBit : Prop :=
  ∀ s : State, s.bcState ≠ .failed →
    (∀ b, s.bits[s.rpos]? = some b → exec .bsRead s = .next (okWith (.bit b) { s with rpos := s.rpos + 1 })) ∧
    (s.bits.length ≤ s.rpos → exec .bsRead s = .next (errorAt .truncatedStream s.rpos s))

/-- R101, R93: `BS.READBITS` returns the number below `2^count` whose bits are the next ones in the order given, and moves the cursor by
`count`; with fewer bits left it is `TruncatedStream` at the cursor, which is not moved; `count` = 0 never raises. -/
def Obligations.ReadbitsReturnsTheField : Prop :=
  ∀ (s : State) (count : BitVec 8) (o : Order), s.bcState ≠ .failed →
    (count.toNat ≤ 32 → s.rpos + count.toNat ≤ s.bits.length ∨ count.toNat = 0 →
      ∃ v, exec (.bsReadbits count o) s = .next (okWith (.number v) { s with rpos := s.rpos + count.toNat }) ∧
        v < 2 ^ count.toNat ∧ ∀ k, k < count.toNat → s.bits[s.rpos + k]? = some (match o with
          | .lsb => v.testBit k
          | .msb => v.testBit (count.toNat - 1 - k))) ∧
    (count.toNat ≤ 32 → 0 < count.toNat → s.bits.length < s.rpos + count.toNat →
      exec (.bsReadbits count o) s = .next (errorAt .truncatedStream s.rpos s)) ∧
    (32 < count.toNat → exec (.bsReadbits count o) s = .next (refusedIn s))

/-- R102 with R12 and R43: `BS.TOBYTES` returns `ceil(BS.len/8)` bytes, stream bit `i` being bit `i mod 8` of byte `floor(i/8)` and the
bits past the end being 0; it changes nothing, in every state, `Failed` too. -/
def Obligations.TobytesReturnsTheBackingBuffer : Prop :=
  ∀ s : State, ∃ xs, exec .bsTobytes s = .next (okWith (.elements xs) s) ∧ xs.length = (s.bits.length + 7) / 8 ∧
    ∀ j x, xs[j]? = some x → x < 256 ∧ ∀ k, k < 8 → x.testBit k = s.bits.getD (8 * j + k) false

/-- R93, R103 (a), which the spec marks as derived from its rules: a field pushed at the cursor and read back with the same count and order is the value that was pushed. -/
def Obligations.PushedFieldReadsBack : Prop :=
  ∀ (s : State) (value : BitVec 32) (count : BitVec 8) (o : Order), s.bcState ≠ .failed → s.rpos = s.bits.length →
    count.toNat ≤ 32 → value.toNat < 2 ^ count.toNat → within s.cfg none (s.bits.length + count.toNat) →
    ∃ t u, exec (.bsPushbits value count o) s = .next t ∧ exec (.bsReadbits count o) t = .next u ∧
      u.result = .ok (.number value.toNat) ∧ u.rpos = u.bits.length

/-- R103 (c), which the spec marks as derived: loading the bytes that `BS.TOBYTES` returned, with the stream's length, restores the stream. -/
def Obligations.LoadUndoesTobytes : Prop :=
  ∀ (s t : State) (xs : List Nat), s.bcState ≠ .failed → s.bits.length < 2 ^ 32 → within s.cfg none s.bits.length →
    exec .bsTobytes s = .next t → t.result = .ok (.elements xs) →
    ∃ u, exec (.bsLoad (BitVec.ofNat 32 s.bits.length)) { s with inBuf := xs.map (BitVec.ofNat 8) } = .next u ∧ u.bits = s.bits

/-- R103 (d), which the spec marks as derived: no bit is changed once it is pushed; only `BS.CLEAR`, `BS.LOAD`, `DEFLATE` and `RESET` shorten or rewrite the stream. -/
def Obligations.PushedBitsNeverChange : Prop :=
  ∀ (s t : State) (i : Instr), i ≠ .bsClear → (∀ n, i ≠ .bsLoad n) → (∀ m, i ≠ .deflate m) → i ≠ .reset →
    exec i s = .next t → ∃ bs, t.bits = s.bits ++ bs

/-! ### HuffmanTree commands -/

/-- R110: `HUF.COUNT` leaves in `FREQ` the number of times each symbol occurs in `SYM`, saturated; at the first symbol outside the
alphabet it is `SymbolOutOfRange` at `BS.len`, with the counts of the symbols before it. -/
def Obligations.CountGivesTheFrequencies : Prop :=
  ∀ (s : State) (pre post : List Sym), s.bcState ≠ .failed → s.sym = pre ++ post → (∀ x ∈ pre, x.toNat < s.hufN.toNat) →
    (∀ x ∈ post.head?, s.hufN.toNat ≤ x.toNat) →
    ∃ f : List Freq, f.length = s.hufN.toNat ∧
      (∀ x, x < s.hufN.toNat → (f.getD x 0).toNat = min ((pre.map BitVec.toNat).count x) (2 ^ 32 - 1)) ∧
      exec .hufCount s = .next (if post = [] then okWith .nothing { s with freq := f }
        else errorAt .symbolOutOfRange s.bits.length { s with freq := f })

/-- R114: with one symbol, or exactly one frequency that is not 0, `HUF.BUILD` makes the degenerate tree: one leaf, which is the root,
and the 1-bit code 0. -/
def Obligations.BuildOfOneFrequencyIsDegenerate : Prop :=
  ∀ (s : State) (x : Nat), s.bcState ≠ .failed → x < s.hufN.toNat →
    s.hufN.toNat = 1 ∨ (s.freq.getD x 0 ≠ 0 ∧ ∀ y, y < s.hufN.toNat → y ≠ x → s.freq.getD y 0 = 0) →
    ∃ t : Tree, exec .hufBuild s = .next (okWith .nothing { s with tUser := t }) ∧ t.built = true ∧ t.n = s.hufN.toNat ∧
      t.arena = [.leaf x (s.freq.getD x 0)] ∧ t.root = 0 ∧ t.tab.length = s.hufN.toNat ∧ t.tab[x]? = some ⟨0, 1⟩ ∧
      ∀ y e, y ≠ x → t.tab[y]? = some e → e.length = 0

/-- R112 with R113, R115 and R20: else `HUF.BUILD` makes the general tree: the leaves of the alphabet, then `N − 1` branches in the order
they are made, each of the two nodes that are lowest in the queue at that moment, the lower one to the left, its frequency their
saturating sum; the last branch is the root. -/
def Obligations.BuildMergesTheTwoLowest : Prop :=
  ∀ s : State, s.bcState ≠ .failed → 2 ≤ s.hufN.toNat → ¬ oneFrequency s.hufN.toNat s.freq →
    ∃ t : Tree, exec .hufBuild s = .next (okWith .nothing { s with tUser := t }) ∧ t.built = true ∧ t.n = s.hufN.toNat ∧
      t.arena.length = 2 * s.hufN.toNat - 1 ∧ t.root = 2 * s.hufN.toNat - 2 ∧
      (∀ x, x < s.hufN.toNat → t.arena[x]? = some (.leaf x (s.freq.getD x 0))) ∧
      ∀ k, s.hufN.toNat ≤ k → k ≤ 2 * s.hufN.toNat - 2 →
        ∃ f a b, t.arena[k]? = some (.branch f (some a) (some b)) ∧
          f.toNat = min (nodeFreq t.arena a + nodeFreq t.arena b) (2 ^ 32 - 1) ∧
          waiting t.arena k a ∧ waiting t.arena k b ∧ before t.arena a b ∧
          ∀ i, waiting t.arena k i → i ≠ a → i ≠ b → before t.arena b i

/-- R116, and R126 (b), (c), which the spec marks as derived: in the general tree every symbol has a code of 1 to `N − 1` bits, the code's bits lead from the root to the
symbol's leaf, and the codes fill the code space. -/
def Obligations.BuildAssignsTheAddresses : Prop :=
  ∀ s : State, s.bcState ≠ .failed → 2 ≤ s.hufN.toNat → ¬ oneFrequency s.hufN.toNat s.freq →
    ∃ t : Tree, exec .hufBuild s = .next (okWith .nothing { s with tUser := t }) ∧ t.tab.length = s.hufN.toNat ∧
      (∀ x e, t.tab[x]? = some e → 1 ≤ e.length ∧ e.length ≤ s.hufN.toNat - 1 ∧ e.code < 2 ^ e.length ∧
        follow t.arena (codeBits e) t.root = some x) ∧
      (t.tab.map fun e => 2 ^ (s.hufN.toNat - e.length)).sum = 2 ^ s.hufN.toNat

/-- R117: `HUF.ENCODE` appends the codes of the symbols of `SYM`, most significant bit first; the first symbol outside the alphabet or
without a code is `SymbolOutOfRange` at `BS.len`, the codes before it staying in the stream; with no tree it is `InvalidHuffmanTree`. -/
def Obligations.EncodeAppendsTheCodes : Prop :=
  ∀ s : State, s.bcState ≠ .failed →
    (s.tUser.built = false → exec .hufEncode s = .next (errorAt .invalidHuffmanTree s.bits.length s)) ∧
    ∀ pre post : List Sym, s.tUser.built = true → s.sym = pre ++ post →
      (∀ x ∈ pre, x.toNat < s.tUser.n ∧ (tableEntry s.tUser x.toNat).length ≠ 0) →
      (∀ x ∈ post.head?, s.tUser.n ≤ x.toNat ∨ (tableEntry s.tUser x.toNat).length = 0) →
      ∀ bs : List Bool, bs = s.bits ++ pre.flatMap (fun x => codeBits (tableEntry s.tUser x.toNat)) →
        within s.cfg none bs.length →
        exec .hufEncode s = .next (if post = [] then okWith .nothing { s with bits := bs }
          else errorAt .symbolOutOfRange bs.length { s with bits := bs })

/-- R118 with R124: `HUF.DECODE` reads `count` symbols from the cursor, bit by bit from the root to a leaf, replaces `SYM` by them, and
leaves the cursor just past the last one; with no tree it is `InvalidHuffmanTree` at the cursor. -/
def Obligations.DecodeReadsTheSymbols : Prop :=
  ∀ (s : State) (count : BitVec 32), s.bcState ≠ .failed →
    (s.tUser.built = false → exec (.hufDecode count) s = .next (errorAt .invalidHuffmanTree s.rpos s)) ∧
    ∀ (ws : List (List Bool × Nat)) (rest : List Bool), s.tUser.built = true → ws.length = count.toNat →
      (∀ p ∈ ws, spells s.tUser p.1 p.2 ∧ p.2 < s.tUser.n) → s.bits.drop s.rpos = ws.flatMap Prod.fst ++ rest →
      within s.cfg s.cfg.symCap ws.length →
      exec (.hufDecode count) s = .next (okWith .nothing
        { s with sym := ws.map (fun p => BitVec.ofNat 16 p.2), rpos := s.rpos + (ws.flatMap Prod.fst).length })

/-- R118 with R124 and R193 to R195: where the stream ends inside a symbol `HUF.DECODE` is `TruncatedStream`, at a missing child
`InvalidHuffmanTree`, at a leaf outside the alphabet `SymbolOutOfRange`, each at the cursor just past the bits the walk took; `SYM`
holds the symbols before. -/
def Obligations.DecodeStopsWhereTheWalkStops : Prop :=
  ∀ (s : State) (count : BitVec 32) (ws : List (List Bool × Nat)) (bits w : List Bool) (k : ErrorKind) (p : Nat),
    s.bcState ≠ .failed → s.tUser.built = true → ws.length < count.toNat →
    (∀ q ∈ ws, spells s.tUser q.1 q.2 ∧ q.2 < s.tUser.n) → within s.cfg s.cfg.symCap ws.length →
    s.bits.drop s.rpos = ws.flatMap Prod.fst ++ bits → stopsAfter s.tUser bits w k →
    p = s.rpos + (ws.flatMap Prod.fst).length + w.length →
    exec (.hufDecode count) s =
      .next (errorAt k p { s with sym := ws.map (fun q => BitVec.ofNat 16 q.2), rpos := p })

/-- R126 (a), which the spec marks as derived: after `HUF.BUILD`, `HUF.ENCODE` of a symbol sequence whose members have codes, followed by `HUF.DECODE` of the same count
from where encoding began, returns the sequence and leaves the cursor at the end of the encoded bits. -/
def Obligations.HuffmanRoundTrip : Prop :=
  ∀ s t : State, s.bcState ≠ .failed → s.rpos = s.bits.length → 1 ≤ s.hufN.toNat → s.hufN.toNat ≤ 288 →
    exec .hufBuild s = .next t → (∀ x ∈ s.sym, x.toNat < s.hufN.toNat ∧ (tableEntry t.tUser x.toNat).length ≠ 0) →
    within s.cfg none (s.bits.length + 288 * s.sym.length) → within s.cfg s.cfg.symCap s.sym.length → s.sym.length < 2 ^ 32 →
    ∃ u v, exec .hufEncode t = .next u ∧ exec (.hufDecode (BitVec.ofNat 32 s.sym.length)) u = .next v ∧
      v.sym = s.sym ∧ v.bits = u.bits ∧ v.rpos = v.bits.length ∧ v.result = .ok .nothing

/-- R120: the canonical code of a symbol, left-aligned in `maxbits` bits, is the space taken by the codes that come before it: the
shorter ones, and among those of its length the ones of lower symbols. A length 0 gives no code. -/
def Obligations.CanonicalCodesAreConsecutive : Prop :=
  ∀ (lengths : List Nat) (maxbits x l : Nat), lengths[x]? = some l → l ≤ maxbits →
    ∃ e, (canon lengths maxbits)[x]? = some e ∧ e.length = l ∧
      (0 < l → e.code * 2 ^ (maxbits - l) = ((List.range lengths.length).map fun y =>
        if lengths.getD y 0 ≠ 0 ∧ (lengths.getD y 0 < l ∨ (lengths.getD y 0 = l ∧ y < x)) then 2 ^ (maxbits - lengths.getD y 0)
        else 0).sum)

/-- R121, R122: where the lengths are not over-subscribed, the tree made of them leads each symbol's canonical code to that symbol. -/
def Obligations.TreesFromLengthsSpellTheirCodes : Prop :=
  ∀ (lengths : List Nat) (maxbits x l : Nat), (∀ m ∈ lengths, m ≤ maxbits) → codeSpace lengths maxbits ≤ 2 ^ maxbits →
    lengths[x]? = some l → l ≠ 0 →
    ∃ e, (canon lengths maxbits)[x]? = some e ∧ e.length = l ∧ spells (treeOfLengths lengths maxbits) (codeBits e) x

/-- R70: the codes of the fixed trees, and that their trees lead the codes to their symbols. -/
def Obligations.FixedTreesHaveTheirCodes : Prop :=
  (∀ x, x < 288 → fixedLl.tab[x]? = some (fixedLlCode x) ∧
    walk fixedLl (codeBits (fixedLlCode x)) fixedLl.root 0 = (.ok x, (fixedLlCode x).length)) ∧
  ∀ d, d < 32 → fixedD.tab[d]? = some (fixedDCode d) ∧ walk fixedD (codeBits (fixedDCode d)) fixedD.root 0 = (.ok d, 5)

/-! ### MatchFinder -/

/-- R137, R138: the search returns the greatest place in the window, before the candidate, at which the candidate occurs, and none
where there is no such place. -/
def Obligations.FindReturnsTheNearest : Prop :=
  ∀ (data : List Byte) (w i k : Nat), i + k ≤ data.length →
    (∀ f, findMatch data w i k = some f ↔
      i - w ≤ f ∧ f < i ∧ occurs data f i k ∧ ∀ g, f < g → g < i → ¬ occurs data g i k) ∧
    (findMatch data w i k = none ↔ ∀ g, i - w ≤ g → g < i → ¬ occurs data g i k)

/-- R135 with R136 to R141: `LZ.SCAN` replaces `TOK` by the greedy scan of `IN`, and changes nothing else. -/
def Obligations.ScanIsGreedy : Prop :=
  ∀ s : State, s.bcState ≠ .failed → within s.cfg s.cfg.tokCap s.inBuf.length →
    ∃ ts, exec .lzScan s = .next (okWith .nothing { s with tok := ts }) ∧ greedy s.inBuf s.window.toNat 0 ts

/-- R142, which the spec marks as derived: the tokens of a scan are tokens, there are at most as many as bytes of input, and replaying them rebuilds `IN`. -/
def Obligations.ScanTokensRebuildTheInput : Prop :=
  ∀ (data : List Byte) (w : Nat) (ts : List Token), w ≤ 32768 → greedy data w 0 ts →
    ts = scan data w ∧ (∀ k ∈ ts, tokenLegal k = true) ∧ ts.length ≤ data.length ∧ replay ts [] = data

/-! ### Stream elements: block headers -/

/-- R153 (with R152, R166): a stored block discards the bits up to the next byte boundary, reads LEN and its complement, copies LEN
bytes and ends the block. LEN, NLEN or a raw byte that is not whole is `TruncatedStream` at the cursor before it, the bytes before it
being in `OUT`; fields that are not complements are `MalformedBlockHeader` just past them. -/
def Obligations.StoredBlockCopiesItsBytes : Prop :=
  ∀ (s : State) (f : Bool) (a : Nat), a = aligned s.rpos →
    (∀ (xs : List Byte) (rest : List Bool), xs.length ≤ 65535 →
      s.bits.drop a = field 16 xs.length ++ field 16 (65535 - xs.length) ++ byteBits xs ++ rest →
      exec (.blockStored f) s = .next (blockEnd (withHeader f 0
        { s with rpos := a + 32 + 8 * xs.length, out := s.out ++ xs }))) ∧
    (s.bits.length < a + 16 → exec (.blockStored f) s = .next (errorAt .truncatedStream (min a s.bits.length)
      (withHeader f 0 { s with rpos := min a s.bits.length }))) ∧
    (a + 16 ≤ s.bits.length → s.bits.length < a + 32 → exec (.blockStored f) s = .next (errorAt .truncatedStream (a + 16)
      (withHeader f 0 { s with rpos := a + 16 }))) ∧
    (∀ (len nlen : Nat) (rest : List Bool), len < 65536 → nlen < 65536 → len + nlen ≠ 65535 →
      s.bits.drop a = field 16 len ++ field 16 nlen ++ rest →
      exec (.blockStored f) s = .next (errorAt .malformedBlockHeader (a + 32) (withHeader f 0 { s with rpos := a + 32 }))) ∧
    (∀ (len : Nat) (xs : List Byte) (rest : List Bool), len < 65536 → xs.length < len → rest.length < 8 →
      s.bits.drop a = field 16 len ++ field 16 (65535 - len) ++ byteBits xs ++ rest →
      exec (.blockStored f) s = .next (errorAt .truncatedStream (a + 32 + 8 * xs.length)
        (withHeader f 0 { s with rpos := a + 32 + 8 * xs.length, out := s.out ++ xs })))

/-- R154 (with R152): a fixed block's header selects the fixed trees and the block's body follows; it reads no more bits. -/
def Obligations.FixedHeaderSelectsTheFixedTrees : Prop :=
  ∀ (s : State) (f : Bool), exec (.blockFixed f) s =
    .next (withHeader f 1 { s with bcState := .blockBody, tLl := fixedLl, tD := fixedD })

/-- R155 to R157 (with R152): a dynamic block's header reads HLIT, HDIST, HCLEN and the code-length code lengths, in their order, and
builds the code-length tree; over-subscribed lengths are `InvalidHuffmanTree` just past them. Counts above 286 and 30 are
`MalformedBlockHeader` just past HCLEN, before any code length is read (R200), and a field that is not whole is `TruncatedStream` at the
cursor before it. -/
def Obligations.DynamicHeaderBuildsTheCodeLengthTree : Prop :=
  ∀ (s : State) (f : Bool),
    (∀ (hlit hdist hclen : Nat) (xs : List Nat) (rest : List Bool), hlit ≤ 29 → hdist ≤ 29 → hclen < 16 →
      xs.length = hclen + 4 → (∀ x ∈ xs, x < 8) →
      s.bits.drop s.rpos = field 5 hlit ++ field 5 hdist ++ field 4 hclen ++ xs.flatMap (field 3) ++ rest →
      (codeSpace (clLengths xs) 7 ≤ 128 → exec (.blockDynamic f) s = .next (withHeader f 2
        { s with
          rpos := s.rpos + 14 + 3 * xs.length, bcState := .dynamicHuffman, tCl := treeOfLengths (clLengths xs) 7
          dynNlen := hlit + 257, dynNdist := hdist + 1, dynLens := [] })) ∧
      (128 < codeSpace (clLengths xs) 7 → exec (.blockDynamic f) s = .next (errorAt .invalidHuffmanTree
        (s.rpos + 14 + 3 * xs.length) (withHeader f 2 { s with rpos := s.rpos + 14 + 3 * xs.length })))) ∧
    (∀ (hlit hdist hclen : Nat) (rest : List Bool), hlit < 32 → hdist < 32 → hclen < 16 → 29 < hlit ∨ 29 < hdist →
      s.bits.drop s.rpos = field 5 hlit ++ field 5 hdist ++ field 4 hclen ++ rest →
      exec (.blockDynamic f) s = .next (errorAt .malformedBlockHeader (s.rpos + 14) (withHeader f 2 { s with rpos := s.rpos + 14 }))) ∧
    (∀ p : Nat, s.rpos ≤ s.bits.length → (p = s.rpos ∧ s.bits.length < p + 5) ∨
        (p = s.rpos + 5 ∧ p ≤ s.bits.length ∧ s.bits.length < p + 5) ∨
        (p = s.rpos + 10 ∧ p ≤ s.bits.length ∧ s.bits.length < p + 4) →
      exec (.blockDynamic f) s = .next (errorAt .truncatedStream p (withHeader f 2 { s with rpos := p }))) ∧
    (∀ (hlit hdist hclen : Nat) (xs : List Nat) (rest : List Bool) (p : Nat), hlit ≤ 29 → hdist ≤ 29 → hclen < 16 →
      xs.length < hclen + 4 → (∀ x ∈ xs, x < 8) → rest.length < 3 → p = s.rpos + 14 + 3 * xs.length →
      s.bits.drop s.rpos = field 5 hlit ++ field 5 hdist ++ field 4 hclen ++ xs.flatMap (field 3) ++ rest →
      exec (.blockDynamic f) s = .next (errorAt .truncatedStream p (withHeader f 2 { s with rpos := p })))

/-! ### Stream elements: symbols -/

/-- R158, R159: the code-length symbols 0 to 15 append a length; 16 repeats the last length 3 to 6 times, 17 and 18 a zero 3 to 10 and 11
to 138 times; when all lengths are there the two block trees are built. A run past the end, or 16 with nothing before it, is
`MalformedBlockHeader`. That a length is missing is part of the invariant `StateInv`. -/
def Obligations.CodeLengthSymbolsAppendLengths : Prop :=
  ∀ s : State, s.dynLens.length < s.dynNlen + s.dynNdist →
    (∀ v : BitVec 4, exec (.clLength v) s = .next (afterLengths (s.dynLens ++ [v.toNat]) s)) ∧
    (s.dynLens = [] → exec .clRep16 s = .next (errorAt .malformedBlockHeader s.rpos s)) ∧
    ∀ i extra base val, (i = .clRep16 ∧ extra = 2 ∧ base = 3 ∧ s.dynLens.getLast? = some val) ∨
        (i = .clRep17 ∧ extra = 3 ∧ base = 3 ∧ val = 0) ∨ (i = .clRep18 ∧ extra = 7 ∧ base = 11 ∧ val = 0) →
      (s.bits.length < s.rpos + extra → exec i s = .next (errorAt .truncatedStream s.rpos s)) ∧
      ∀ e rest, e < 2 ^ extra → s.bits.drop s.rpos = field extra e ++ rest →
        (s.dynLens.length + (base + e) ≤ s.dynNlen + s.dynNdist →
          exec i s = .next (afterLengths (s.dynLens ++ List.replicate (base + e) val) { s with rpos := s.rpos + extra })) ∧
        (s.dynNlen + s.dynNdist < s.dynLens.length + (base + e) →
          exec i s = .next (errorAt .malformedBlockHeader (s.rpos + extra) { s with rpos := s.rpos + extra }))

/-- R161, R71: a literal appends its byte to `OUT`. -/
def Obligations.LiteralAppendsItsByte : Prop :=
  ∀ (s : State) (b : Byte), exec (.llLiteral b) s = .next { s with out := s.out ++ [b] }

/-- R166, R162: the end of a block makes the bytes of `OUT` valid; after the last block the decode is done and `INFLATE` returns `Ok`, else
the next header is read. -/
def Obligations.EndOfBlockLoopsUnlessFinal : Prop :=
  ∀ s : State,
    (s.bfinal = false → exec .llEob s = .next { s with outValid := s.out.length, bcState := .readHeader }) ∧
    (s.bfinal = true → exec .llEob s = .next { s with outValid := s.out.length, bcState := .done, result := .ok .nothing })

/-- R163 with R72, R73: each length symbol reads its extra bits, and the length is base plus extra; the distance symbol is read next. 284
with extra bits 31 is `SymbolOutOfRange` just past the extra bits, and extra bits that are not whole are `TruncatedStream`. -/
def Obligations.LengthSymbolsGiveTheirLength : Prop :=
  ∀ (s : State), ∀ row ∈ lengthRows,
    (0 < row.extra → s.bits.length < s.rpos + row.extra → exec row.instr s = .next (errorAt .truncatedStream s.rpos s)) ∧
    ∀ e, e < 2 ^ row.extra → (s.bits.drop s.rpos).take row.extra = field row.extra e →
      (row.symbol ≠ 284 ∨ e ≠ 31 →
        exec row.instr s = .next { s with rpos := s.rpos + row.extra, lenPending := some (row.base + e) }) ∧
      (row.symbol = 284 → e = 31 → exec row.instr s = .next (errorAt .symbolOutOfRange (s.rpos + 5) { s with rpos := s.rpos + 5 }))

/-- R163 to R165 with R74, R75: each distance symbol reads its extra bits; the distance is base plus extra; a distance past the start of
`OUT` or past the window is `WindowViolation` just past the extra bits, with nothing copied; else the match is copied byte by byte. -/
def Obligations.DistanceSymbolsCopyTheMatch : Prop :=
  ∀ (s : State) (len : Nat), s.lenPending = some len → ∀ row ∈ distanceRows,
    (0 < row.extra → s.bits.length < s.rpos + row.extra → exec row.instr s = .next (errorAt .truncatedStream s.rpos s)) ∧
    ∀ e, e < 2 ^ row.extra → (s.bits.drop s.rpos).take row.extra = field row.extra e →
      (row.base + e ≤ s.out.length → row.base + e ≤ s.window.toNat →
        exec row.instr s = .next
          { s with rpos := s.rpos + row.extra, lenPending := none, out := copyBack (row.base + e) len s.out }) ∧
      (s.out.length < row.base + e ∨ s.window.toNat < row.base + e →
        exec row.instr s = .next (errorAt .windowViolation (s.rpos + row.extra) { s with rpos := s.rpos + row.extra }))

/-- R152, R160, R163, R79: the reserved block type is `MalformedBlockHeader`, the fields keeping the header's values (R196); the symbols
286, 287 of the literal/length alphabet and 30, 31 of the distance alphabet are `SymbolOutOfRange`; each at the cursor, which stands
past the element's own bits. -/
def Obligations.ReservedElementsRaise : Prop :=
  ∀ s : State, (∀ f, exec (.blockReserved f) s = .next (errorAt .malformedBlockHeader s.rpos (withHeader f 3 s))) ∧
    ∀ i ∈ [Instr.llReserved286, .llReserved287, .dReserved30, .dReserved31],
      exec i s = .next (errorAt .symbolOutOfRange s.rpos s)

/-! ### INFLATE -/

/-- R150, R151: `INFLATE` begins at the present cursor with `OUT` empty, no valid byte and no block tree, and reads a header next. The
first hypothesis on `OUT` is R13's: no bit of the stream gives more than 258 bytes. In general (R13, R204 (n); log entry 7) `INFLATE` is
refused exactly where the run that it would begin, with no other command behind it, ends with an `OUT` past its limit. That the run is made in steps, its
result `pending` until the end, is the model's choice, which R150 allows (log entries 2 and 6). -/
def Obligations.InflateStartsAtTheCursor : Prop :=
  ∀ s : State, s.bcState ≠ .failed →
    (within s.cfg s.cfg.outCap (258 * (s.bits.length - s.rpos)) →
      ∃ t, exec .inflate s = .next t ∧ t.tCl.built = false ∧ t.tLl.built = false ∧ t.tD.built = false ∧ t =
        { s with
          out := [], outValid := 0, bcState := .readHeader, tCl := t.tCl, tLl := t.tLl, tD := t.tD
          lenPending := none, dynNlen := 0, dynNdist := 0, dynLens := [], result := .pending }) ∧
    ∀ (t v : State) (k : Nat), t =
        { s with
          out := [], outValid := 0, bcState := .readHeader, tCl := Tree.unbuilt, tLl := Tree.unbuilt, tD := Tree.unbuilt
          lenPending := none, dynNlen := 0, dynNdist := 0, dynLens := [], result := .pending } →
      run k { t with cmds := [] } = .next v → v.bcState = .done ∨ v.bcState = .failed →
      (within s.cfg s.cfg.outCap v.out.length → exec .inflate s = .next t) ∧
      (¬ within s.cfg s.cfg.outCap v.out.length → exec .inflate s = .next (refusedIn s))

/-- R150 (its corner case, which the spec marks as derived), R232: an `INFLATE` ends, in `Done` or `Failed`, after at most one step for each bit that remains and one more. -/
def Obligations.InflateTerminates : Prop :=
  ∀ s : State, s.bcState ≠ .failed → within s.cfg s.cfg.outCap (258 * (s.bits.length - s.rpos)) →
    ∃ t u k, exec .inflate s = .next t ∧ k ≤ s.bits.length - s.rpos + 1 ∧ run k t = .next u ∧
      ((u.bcState = .done ∧ u.result = .ok .nothing) ∨ ∃ e, u.bcState = .failed ∧ u.result = .error e)

/-- R27, R50, R167: a step inside `INFLATE` leaves the stream, the host's commands and the configuration as they are, only moves the
cursor forward inside the stream, only appends to `OUT`, and keeps the bytes of the completed blocks valid unless a block ends. -/
def Obligations.InflateOnlyMovesForward : Prop :=
  ∀ s t : State, running s = true → s.rpos ≤ s.bits.length → step s = .next t →
    s.rpos ≤ t.rpos ∧ t.rpos ≤ s.bits.length ∧ (∃ xs, t.out = s.out ++ xs) ∧
      (t.outValid = s.outValid ∨ (t.outValid = t.out.length ∧ (t.bcState = .done ∨ t.bcState = .readHeader))) ∧ t =
      { s with
        rpos := t.rpos, bcState := t.bcState, bfinal := t.bfinal, btype := t.btype, outValid := t.outValid
        errKind := t.errKind, errBitOff := t.errBitOff, errByteOff := t.errByteOff, out := t.out
        tCl := t.tCl, tLl := t.tLl, tD := t.tD, lenPending := t.lenPending, dynNlen := t.dynNlen, dynNdist := t.dynNdist
        dynLens := t.dynLens, result := t.result }

/-! ### DEFLATE -/

/-- R170, R171: `DEFLATE STORED` replaces the stream by the stored blocks of the chunks of `IN`. That an input whose length is a positive
multiple of 65535 ends with a full chunk is the model's choice (log entry 16). -/
def Obligations.DeflateStoredWritesTheChunks : Prop :=
  ∀ (s : State) (mode : BitVec 8) (chunks : List (List Byte)), s.bcState ≠ .failed → mode.toNat = 0 → isCut s.inBuf chunks →
    within s.cfg none (storedStream chunks).length →
    exec (.deflate mode) s = .next (okWith .nothing
      { s with bits := storedStream chunks, rpos := 0, bcState := .idle, bfinal := true, btype := 0 })

/-- R170, R172 to R175: `DEFLATE FIXED` replaces `TOK` by the scan of `IN` and the stream by one fixed block of those tokens and the
end-of-block symbol. A token takes at most 31 bits. -/
def Obligations.DeflateFixedWritesTheTokens : Prop :=
  ∀ (s : State) (mode : BitVec 8), s.bcState ≠ .failed → mode.toNat = 1 → s.window.toNat ≤ 32768 →
    within s.cfg s.cfg.tokCap s.inBuf.length → within s.cfg none (31 * s.inBuf.length + 10) →
    ∃ ts bss, greedy s.inBuf s.window.toNat 0 ts ∧ List.Forall₂ tokenBits ts bss ∧
      exec (.deflate mode) s = .next (okWith .nothing
        { s with
          bits := [true, true, false] ++ bss.flatten ++ List.replicate 7 false, rpos := 0, bcState := .idle
          bfinal := true, btype := 1, tok := ts })

/-- R176, which the spec marks as derived, for `STORED`: `INFLATE` after `DEFLATE`, from cursor 0 with any window, ends in `Done` with `OUT = IN` and the whole stream
read. -/
def Obligations.StoredRoundTrip : Prop :=
  ∀ (s : State) (w : BitVec 16), s.bcState ≠ .failed →
    within s.cfg none (8 * s.inBuf.length + 40 * (s.inBuf.length / 65535 + 1)) → within s.cfg s.cfg.outCap s.inBuf.length →
    ∃ t u v k, exec (.deflate 0) s = .next t ∧ exec .inflate { t with window := w } = .next u ∧ run k u = .next v ∧
      v.bcState = .done ∧ v.result = .ok .nothing ∧ v.out = s.inBuf ∧ v.rpos = v.bits.length

/-- R176, which the spec marks as derived, for `FIXED`: `INFLATE` after `DEFLATE`, from cursor 0 with the same or a larger window, ends in `Done` with `OUT = IN` and the
whole stream read. -/
def Obligations.FixedRoundTrip : Prop :=
  ∀ (s : State) (w : BitVec 16), s.bcState ≠ .failed → s.window.toNat ≤ 32768 → s.window.toNat ≤ w.toNat →
    within s.cfg none (31 * s.inBuf.length + 10) → within s.cfg s.cfg.tokCap s.inBuf.length →
    within s.cfg s.cfg.outCap s.inBuf.length →
    ∃ t u v k, exec (.deflate 1) s = .next t ∧ exec .inflate { t with window := w } = .next u ∧ run k u = .next v ∧
      v.bcState = .done ∧ v.result = .ok .nothing ∧ v.out = s.inBuf ∧ v.rpos = v.bits.length

/-! ### The machine -/

/-- R226, R50, R63: between commands a step takes the host's next command: `step` is `exec` of the decoded command, its payload beside
it; a word that is no command is refused; with no command the instance waits. That the host's commands stand in a queue of the state is
the model's choice (log entry 2). -/
def Obligations.StepRunsTheNextCommand : Prop :=
  ∀ s : State, running s = false →
    (s.cmds = [] → step s = .next s) ∧
    ∀ c rest, s.cmds = c :: rest →
      (∀ i, decode .cmd64 c.word = .ok i → step s = exec i { s with cmds := rest, payload := c.payload }) ∧
      (∀ e, decode .cmd64 c.word = .error e → step s = .next (refusedIn { s with cmds := rest, payload := c.payload }))

/-- R150, R152, R158, R160, R163: inside `INFLATE` a step reads the element that `BC.state` names and is `exec` of it, from the state after
reading. A header is read as BFINAL, which is written at once, and BTYPE. A symbol is read from `T_CL` in `DynamicHuffman`, and in
`BlockBody` from `T_LL`, or from `T_D` while a length is pending: bits that spell a symbol give `exec` of that symbol's element with the
cursor just past them, a number outside the alphabet is `SymbolOutOfRange`, and a walk that stops raises its error just past the bits
it took (R124). -/
def Obligations.StepRunsTheNextElement : Prop :=
  ∀ s : State,
    (∀ f v s' i, nextFormat s = some f → fetchElement f s = .ok (v, s') → decode f (BitVec.ofNat 64 v) = .ok i →
      step s = exec i s') ∧
    (∀ f s', nextFormat s = some f → fetchElement f s = .error s' → step s = .next s') ∧
    (s.bcState = .readHeader →
      (∀ f b0 b1 rest i, s.bits.drop s.rpos = f :: b0 :: b1 :: rest →
        [Instr.blockStored f, .blockFixed f, .blockDynamic f, .blockReserved f][b0.toNat + 2 * b1.toNat]? = some i →
        step s = exec i { s with rpos := s.rpos + 3, bfinal := f }) ∧
      (s.bits.drop s.rpos = [] → step s = .next (errorAt .truncatedStream s.rpos s)) ∧
      (∀ f rest, s.bits.drop s.rpos = f :: rest → rest.length < 2 →
        step s = .next (errorAt .truncatedStream (s.rpos + 1) { s with rpos := s.rpos + 1, bfinal := f }))) ∧
    ∀ (f : Format) (t : Tree) (w : List Bool) (p : Nat), nextTree s f t → p = s.rpos + w.length →
      (∀ x rest, s.bits.drop s.rpos = w ++ rest → spells t w x → x < t.n →
        (∀ i, decode f (BitVec.ofNat 64 x) = .ok i → step s = exec i { s with rpos := p }) ∧
        (∀ e, decode f (BitVec.ofNat 64 x) = .error e → step s = .next (errorAt .symbolOutOfRange p { s with rpos := p }))) ∧
      ∀ k, stopsAfter t (s.bits.drop s.rpos) w k → step s = .next (errorAt k p { s with rpos := p })

/-- R150: the step through the opcode table's elements is the step that the rule of `BC.state` defines, the one by which `INFLATE`'s whole
run is made. -/
def Obligations.StepIsTheStepOfInflate : Prop :=
  ∀ s : State, StateInv s → running s = true → step s = .next (inflateStep s)

/-- R60 to R62, R66, R67, R69, R72, R74, R78: command words and element values written out from the rules decode to what they stand
for. -/
def Obligations.SpecWordsDecode : Prop :=
  decode .cmd64 0x0000000000000001 = .ok .reset ∧ decode .cmd64 0x0000040000000403 = .ok (.wrreg 4 1024) ∧
  decode .cmd64 0x0000000300000004 = .ok (.ldbuf 0 3) ∧ decode .cmd64 0x0000003000010813 = .ok (.bsPushbits 0x30 8 .msb) ∧
  decode .cmd64 0x0000000000000215 = .ok (.bsReadbits 2 .lsb) ∧ decode .cmd64 0x0000000500000023 = .ok (.hufDecode 5) ∧
  decode .cmd64 0x0000000000000030 = .ok .lzScan ∧ decode .cmd64 0x0000000000000141 = .ok (.deflate 1) ∧
  decode .blkHdr 1 = .ok (.blockStored true) ∧ decode .blkHdr 5 = .ok (.blockDynamic true) ∧
  decode .llSym 65 = .ok (.llLiteral 0x41) ∧ decode .llSym 256 = .ok .llEob ∧ decode .llSym 269 = .ok .llLen269 ∧
  decode .dSym 29 = .ok .dDist29 ∧ decode .clSym 15 = .ok (.clLength 15) ∧ decode .clSym 18 = .ok .clRep18 ∧
  decode .cmd64 0x0000000000000006 = .error (.unknownOpcode 6) ∧ decode .cmd64 0x0000000000020001 = .error .reservedNotZero ∧
  decode .cmd64 0x0000000100000001 = .error .unusedFieldNotZero

/-- R60 to R62, R66, R69, R74, R78: decoding the encoding of any instruction gives it back, with every operand at every value that
its field admits, also those that are refused when it is performed. -/
def Obligations.DecodeUndoesEncode : Prop :=
  ∀ i : Instr, decode (encode i).format (encode i).word = .ok i

/-- R61 to R63: a word has one meaning: what a word decodes to encodes to that word. So a word with a reserved or an unused bit set
decodes to no command. -/
def Obligations.EncodeUndoesDecode : Prop :=
  ∀ (f : Format) (w : CmdWord) (i : Instr), decode f w = .ok i → (encode i).format = f ∧ (encode i).word = w

/-- R11, R14 to R17, R29: the state after reset meets the invariant. -/
def Obligations.InvariantHoldsAtReset : Prop := StateInv State.reset

/-- R11, R15 to R17, R22 to R24, R40: every step keeps the invariant `StateInv`, from every state that meets it. -/
def Obligations.EveryStepKeepsTheInvariant : Prop :=
  ∀ s t : State, StateInv s → step s = .next t → StateInv t

/-- R197, R202: once Failed, an instance stays Failed with all its state, the error registers too, until it takes a `RESET`: each step
only takes a command and returns its result. -/
def Obligations.FailedIsTerminalUntilReset : Prop :=
  ∀ s t : State, s.bcState = .failed → step s = .next t →
    t = { s with cmds := t.cmds, payload := t.payload, result := t.result } ∨
      ∃ c rest, s.cmds = c :: rest ∧ decode .cmd64 c.word = .ok .reset

/-- R196, R199, R190: a step inside `INFLATE` that enters `Failed`, while it reads an element or performs it, returns `Error` with the kind
it records, and the offset it records is the cursor `BS.rpos`. An instruction that enters `Failed` returns `Error` with the kind it records, and the offset it records is the
cursor of the direction it works in: `BS.len` for `BS.PUSH`, `BS.PUSHBITS`, `HUF.COUNT` and `HUF.ENCODE`, else `BS.rpos`. The eleven
commands that R190 names raise none. -/
def Obligations.ErrorsRecordTheCursor : Prop :=
  (∀ s t : State, running s = true → step s = .next t → t.bcState = .failed →
    (∃ k, t.errKind = some k ∧ t.result = .error k) ∧ t.errBitOff = t.rpos ∧ t.errByteOff = t.errBitOff / 8) ∧
  ∀ (s t : State) (i : Instr), s.bcState ≠ .failed → exec i s = .next t → t.bcState = .failed →
    (∃ k, t.errKind = some k ∧ t.result = .error k) ∧ t.errByteOff = t.errBitOff / 8 ∧
    t.errBitOff = (match i with
      | .bsPush _ => t.bits.length
      | .bsPushbits _ _ _ => t.bits.length
      | .hufCount => t.bits.length
      | .hufEncode => t.bits.length
      | _ => t.rpos) ∧
    i ≠ .reset ∧ (∀ r, i ≠ .rdreg r) ∧ (∀ r v, i ≠ .wrreg r v) ∧ (∀ b n, i ≠ .ldbuf b n) ∧ (∀ b, i ≠ .rdbuf b) ∧
    i ≠ .bsClear ∧ (∀ n, i ≠ .bsLoad n) ∧ i ≠ .bsTobytes ∧ i ≠ .hufBuild ∧ i ≠ .lzScan ∧ ∀ m, i ≠ .deflate m

/-- R40, R17, R22, R52: who writes each space. An instruction leaves unchanged each of `IN`, `OUT`, `SYM`, `TOK`, `FREQ`, the bits of `BS`,
`T_USER`, `WINDOW` and `HUF_N` unless it is one of those named for it here. -/
def Obligations.OnlyTheNamedInstructionsWriteASpace : Prop :=
  ∀ (s t : State) (i : Instr), exec i s = .next t → i ≠ .reset →
    ((∀ b n, i ≠ .ldbuf b n) → t.inBuf = s.inBuf) ∧
    (i.format = .cmd64 → i ≠ .inflate → t.out = s.out ∧ t.outValid = s.outValid) ∧
    ((∀ b n, i ≠ .ldbuf b n) → (∀ n, i ≠ .hufDecode n) → t.sym = s.sym) ∧
    (i ≠ .lzScan → (∀ m, i ≠ .deflate m) → t.tok = s.tok) ∧
    (i ≠ .hufCount → (∀ b n, i ≠ .ldbuf b n) → (∀ r v, i ≠ .wrreg r v) → t.freq = s.freq) ∧
    (i ≠ .bsClear → (∀ n, i ≠ .bsLoad n) → (∀ b, i ≠ .bsPush b) → (∀ v n o, i ≠ .bsPushbits v n o) → i ≠ .hufEncode →
      (∀ m, i ≠ .deflate m) → t.bits = s.bits) ∧
    (i ≠ .hufBuild → (∀ r v, i ≠ .wrreg r v) → t.tUser = s.tUser) ∧
    ((∀ r v, i ≠ .wrreg r v) → t.window = s.window ∧ t.hufN = s.hufN) ∧ t.cfg = s.cfg ∧ t.cmds = s.cmds

/-- R15: `DONE` is set only at the end of a block; of the commands only an `INFLATE`, a `DEFLATE` or a `RESET` that is not refused, or error
entry, clears it, and those do. `FAILED` is set only by error entry (R196) and is cleared by no command but `RESET`. `BFINAL` and `BTYPE`
are written only by block headers, by `DEFLATE` and by `RESET`. (The part of a header that `step` reads before it performs the element
is in `StepRunsTheNextElement`.) -/
def Obligations.FlagsAreWrittenOnlyWhereNamed : Prop :=
  ∀ (s t : State) (i : Instr), exec i s = .next t →
    (t.bcState = .done → s.bcState = .done ∨ i = .llEob ∨ ∃ f, i = .blockStored f) ∧
    (i.format = .cmd64 → s.bcState = .done → t.bcState ≠ .done →
      i = .inflate ∨ (∃ m, i = .deflate m) ∨ i = .reset ∨ t.bcState = .failed) ∧
    (i = .inflate ∨ (∃ m, i = .deflate m) ∨ i = .reset → t.result ≠ .refused → t.bcState ≠ .done) ∧
    (s.bcState ≠ .failed → t.bcState = .failed → ∃ k, t.result = .error k ∧ t = errorAt k t.errBitOff t) ∧
    (i.format = .cmd64 → s.bcState = .failed → t.bcState ≠ .failed → i = .reset) ∧
    (t.bfinal ≠ s.bfinal ∨ t.btype ≠ s.btype → i = .reset ∨ (∃ m, i = .deflate m) ∨ i.format = .blkHdr)
end

