-- ==== Sys2Proof/Laws/State.lean ====
section
/-! SUPPORT. The fields of a state after each named update: one lemma per field and update, so that no proof unfolds a record. -/

namespace Sys2Proof.Machine

/-! ### `raise` -/

section
variable (k : ErrorKind) (off : Nat) (s : State)

@[simp] theorem raise_cfg : (raise k off s).cfg = s.cfg := rfl
@[simp] theorem raise_bits : (raise k off s).bits = s.bits := rfl
@[simp] theorem raise_rpos : (raise k off s).rpos = s.rpos := rfl
@[simp] theorem raise_bcState : (raise k off s).bcState = .failed := rfl
@[simp] theorem raise_bfinal : (raise k off s).bfinal = s.bfinal := rfl
@[simp] theorem raise_btype : (raise k off s).btype = s.btype := rfl
@[simp] theorem raise_outValid : (raise k off s).outValid = s.outValid := rfl
@[simp] theorem raise_errKind : (raise k off s).errKind = some k := rfl
@[simp] theorem raise_errBitOff : (raise k off s).errBitOff = off := rfl
@[simp] theorem raise_errByteOff : (raise k off s).errByteOff = off >>> 3 := rfl
@[simp] theorem raise_window : (raise k off s).window = s.window := rfl
@[simp] theorem raise_hufN : (raise k off s).hufN = s.hufN := rfl
@[simp] theorem raise_freq : (raise k off s).freq = s.freq := rfl
@[simp] theorem raise_tUser : (raise k off s).tUser = s.tUser := rfl
@[simp] theorem raise_tCl : (raise k off s).tCl = s.tCl := rfl
@[simp] theorem raise_tLl : (raise k off s).tLl = s.tLl := rfl
@[simp] theorem raise_tD : (raise k off s).tD = s.tD := rfl
@[simp] theorem raise_inBuf : (raise k off s).inBuf = s.inBuf := rfl
@[simp] theorem raise_out : (raise k off s).out = s.out := rfl
@[simp] theorem raise_sym : (raise k off s).sym = s.sym := rfl
@[simp] theorem raise_tok : (raise k off s).tok = s.tok := rfl
@[simp] theorem raise_lenPending : (raise k off s).lenPending = none := rfl
@[simp] theorem raise_dynNlen : (raise k off s).dynNlen = 0 := rfl
@[simp] theorem raise_dynNdist : (raise k off s).dynNdist = 0 := rfl
@[simp] theorem raise_dynLens : (raise k off s).dynLens = [] := rfl
@[simp] theorem raise_cmds : (raise k off s).cmds = s.cmds := rfl
@[simp] theorem raise_payload : (raise k off s).payload = s.payload := rfl
@[simp] theorem raise_result : (raise k off s).result = .error k := rfl

end

/-! ### `refuse` -/

section
variable (s : State)

@[simp] theorem refuse_cfg : (refuse s).cfg = s.cfg := rfl
@[simp] theorem refuse_bits : (refuse s).bits = s.bits := rfl
@[simp] theorem refuse_rpos : (refuse s).rpos = s.rpos := rfl
@[simp] theorem refuse_bcState : (refuse s).bcState = s.bcState := rfl
@[simp] theorem refuse_bfinal : (refuse s).bfinal = s.bfinal := rfl
@[simp] theorem refuse_btype : (refuse s).btype = s.btype := rfl
@[simp] theorem refuse_outValid : (refuse s).outValid = s.outValid := rfl
@[simp] theorem refuse_errKind : (refuse s).errKind = s.errKind := rfl
@[simp] theorem refuse_errBitOff : (refuse s).errBitOff = s.errBitOff := rfl
@[simp] theorem refuse_errByteOff : (refuse s).errByteOff = s.errByteOff := rfl
@[simp] theorem refuse_window : (refuse s).window = s.window := rfl
@[simp] theorem refuse_hufN : (refuse s).hufN = s.hufN := rfl
@[simp] theorem refuse_freq : (refuse s).freq = s.freq := rfl
@[simp] theorem refuse_tUser : (refuse s).tUser = s.tUser := rfl
@[simp] theorem refuse_tCl : (refuse s).tCl = s.tCl := rfl
@[simp] theorem refuse_tLl : (refuse s).tLl = s.tLl := rfl
@[simp] theorem refuse_tD : (refuse s).tD = s.tD := rfl
@[simp] theorem refuse_inBuf : (refuse s).inBuf = s.inBuf := rfl
@[simp] theorem refuse_out : (refuse s).out = s.out := rfl
@[simp] theorem refuse_sym : (refuse s).sym = s.sym := rfl
@[simp] theorem refuse_tok : (refuse s).tok = s.tok := rfl
@[simp] theorem refuse_lenPending : (refuse s).lenPending = s.lenPending := rfl
@[simp] theorem refuse_dynNlen : (refuse s).dynNlen = s.dynNlen := rfl
@[simp] theorem refuse_dynNdist : (refuse s).dynNdist = s.dynNdist := rfl
@[simp] theorem refuse_dynLens : (refuse s).dynLens = s.dynLens := rfl
@[simp] theorem refuse_cmds : (refuse s).cmds = s.cmds := rfl
@[simp] theorem refuse_payload : (refuse s).payload = s.payload := rfl
@[simp] theorem refuse_result : (refuse s).result = .refused := rfl

end

/-! ### `finish` -/

section
variable (v : Value) (s : State)

@[simp] theorem finish_cfg : (finish v s).cfg = s.cfg := rfl
@[simp] theorem finish_bits : (finish v s).bits = s.bits := rfl
@[simp] theorem finish_rpos : (finish v s).rpos = s.rpos := rfl
@[simp] theorem finish_bcState : (finish v s).bcState = s.bcState := rfl
@[simp] theorem finish_bfinal : (finish v s).bfinal = s.bfinal := rfl
@[simp] theorem finish_btype : (finish v s).btype = s.btype := rfl
@[simp] theorem finish_outValid : (finish v s).outValid = s.outValid := rfl
@[simp] theorem finish_errKind : (finish v s).errKind = s.errKind := rfl
@[simp] theorem finish_errBitOff : (finish v s).errBitOff = s.errBitOff := rfl
@[simp] theorem finish_errByteOff : (finish v s).errByteOff = s.errByteOff := rfl
@[simp] theorem finish_window : (finish v s).window = s.window := rfl
@[simp] theorem finish_hufN : (finish v s).hufN = s.hufN := rfl
@[simp] theorem finish_freq : (finish v s).freq = s.freq := rfl
@[simp] theorem finish_tUser : (finish v s).tUser = s.tUser := rfl
@[simp] theorem finish_tCl : (finish v s).tCl = s.tCl := rfl
@[simp] theorem finish_tLl : (finish v s).tLl = s.tLl := rfl
@[simp] theorem finish_tD : (finish v s).tD = s.tD := rfl
@[simp] theorem finish_inBuf : (finish v s).inBuf = s.inBuf := rfl
@[simp] theorem finish_out : (finish v s).out = s.out := rfl
@[simp] theorem finish_sym : (finish v s).sym = s.sym := rfl
@[simp] theorem finish_tok : (finish v s).tok = s.tok := rfl
@[simp] theorem finish_lenPending : (finish v s).lenPending = s.lenPending := rfl
@[simp] theorem finish_dynNlen : (finish v s).dynNlen = s.dynNlen := rfl
@[simp] theorem finish_dynNdist : (finish v s).dynNdist = s.dynNdist := rfl
@[simp] theorem finish_dynLens : (finish v s).dynLens = s.dynLens := rfl
@[simp] theorem finish_cmds : (finish v s).cmds = s.cmds := rfl
@[simp] theorem finish_payload : (finish v s).payload = s.payload := rfl
@[simp] theorem finish_result : (finish v s).result = .ok v := rfl

end

/-! ### `pushAll` -/

section
variable (bs : List Bool) (s : State)

@[simp] theorem pushAll_cfg : (pushAll bs s).cfg = s.cfg := rfl
@[simp] theorem pushAll_bits : (pushAll bs s).bits = s.bits ++ bs := rfl
@[simp] theorem pushAll_rpos : (pushAll bs s).rpos = s.rpos := rfl
@[simp] theorem pushAll_bcState : (pushAll bs s).bcState = s.bcState := rfl
@[simp] theorem pushAll_bfinal : (pushAll bs s).bfinal = s.bfinal := rfl
@[simp] theorem pushAll_btype : (pushAll bs s).btype = s.btype := rfl
@[simp] theorem pushAll_outValid : (pushAll bs s).outValid = s.outValid := rfl
@[simp] theorem pushAll_errKind : (pushAll bs s).errKind = s.errKind := rfl
@[simp] theorem pushAll_errBitOff : (pushAll bs s).errBitOff = s.errBitOff := rfl
@[simp] theorem pushAll_errByteOff : (pushAll bs s).errByteOff = s.errByteOff := rfl
@[simp] theorem pushAll_window : (pushAll bs s).window = s.window := rfl
@[simp] theorem pushAll_hufN : (pushAll bs s).hufN = s.hufN := rfl
@[simp] theorem pushAll_freq : (pushAll bs s).freq = s.freq := rfl
@[simp] theorem pushAll_tUser : (pushAll bs s).tUser = s.tUser := rfl
@[simp] theorem pushAll_tCl : (pushAll bs s).tCl = s.tCl := rfl
@[simp] theorem pushAll_tLl : (pushAll bs s).tLl = s.tLl := rfl
@[simp] theorem pushAll_tD : (pushAll bs s).tD = s.tD := rfl
@[simp] theorem pushAll_inBuf : (pushAll bs s).inBuf = s.inBuf := rfl
@[simp] theorem pushAll_out : (pushAll bs s).out = s.out := rfl
@[simp] theorem pushAll_sym : (pushAll bs s).sym = s.sym := rfl
@[simp] theorem pushAll_tok : (pushAll bs s).tok = s.tok := rfl
@[simp] theorem pushAll_lenPending : (pushAll bs s).lenPending = s.lenPending := rfl
@[simp] theorem pushAll_dynNlen : (pushAll bs s).dynNlen = s.dynNlen := rfl
@[simp] theorem pushAll_dynNdist : (pushAll bs s).dynNdist = s.dynNdist := rfl
@[simp] theorem pushAll_dynLens : (pushAll bs s).dynLens = s.dynLens := rfl
@[simp] theorem pushAll_cmds : (pushAll bs s).cmds = s.cmds := rfl
@[simp] theorem pushAll_payload : (pushAll bs s).payload = s.payload := rfl
@[simp] theorem pushAll_result : (pushAll bs s).result = s.result := rfl

end

/-! ### `moveCursor` -/

section
variable (p : Nat) (s : State)

@[simp] theorem moveCursor_cfg : (moveCursor p s).cfg = s.cfg := rfl
@[simp] theorem moveCursor_bits : (moveCursor p s).bits = s.bits := rfl
@[simp] theorem moveCursor_rpos : (moveCursor p s).rpos = p := rfl
@[simp] theorem moveCursor_bcState : (moveCursor p s).bcState = s.bcState := rfl
@[simp] theorem moveCursor_bfinal : (moveCursor p s).bfinal = s.bfinal := rfl
@[simp] theorem moveCursor_btype : (moveCursor p s).btype = s.btype := rfl
@[simp] theorem moveCursor_outValid : (moveCursor p s).outValid = s.outValid := rfl
@[simp] theorem moveCursor_errKind : (moveCursor p s).errKind = s.errKind := rfl
@[simp] theorem moveCursor_errBitOff : (moveCursor p s).errBitOff = s.errBitOff := rfl
@[simp] theorem moveCursor_errByteOff : (moveCursor p s).errByteOff = s.errByteOff := rfl
@[simp] theorem moveCursor_window : (moveCursor p s).window = s.window := rfl
@[simp] theorem moveCursor_hufN : (moveCursor p s).hufN = s.hufN := rfl
@[simp] theorem moveCursor_freq : (moveCursor p s).freq = s.freq := rfl
@[simp] theorem moveCursor_tUser : (moveCursor p s).tUser = s.tUser := rfl
@[simp] theorem moveCursor_tCl : (moveCursor p s).tCl = s.tCl := rfl
@[simp] theorem moveCursor_tLl : (moveCursor p s).tLl = s.tLl := rfl
@[simp] theorem moveCursor_tD : (moveCursor p s).tD = s.tD := rfl
@[simp] theorem moveCursor_inBuf : (moveCursor p s).inBuf = s.inBuf := rfl
@[simp] theorem moveCursor_out : (moveCursor p s).out = s.out := rfl
@[simp] theorem moveCursor_sym : (moveCursor p s).sym = s.sym := rfl
@[simp] theorem moveCursor_tok : (moveCursor p s).tok = s.tok := rfl
@[simp] theorem moveCursor_lenPending : (moveCursor p s).lenPending = s.lenPending := rfl
@[simp] theorem moveCursor_dynNlen : (moveCursor p s).dynNlen = s.dynNlen := rfl
@[simp] theorem moveCursor_dynNdist : (moveCursor p s).dynNdist = s.dynNdist := rfl
@[simp] theorem moveCursor_dynLens : (moveCursor p s).dynLens = s.dynLens := rfl
@[simp] theorem moveCursor_cmds : (moveCursor p s).cmds = s.cmds := rfl
@[simp] theorem moveCursor_payload : (moveCursor p s).payload = s.payload := rfl
@[simp] theorem moveCursor_result : (moveCursor p s).result = s.result := rfl

end

/-! ### `appendOut` -/

section
variable (b : Byte) (s : State)

@[simp] theorem appendOut_cfg : (appendOut b s).cfg = s.cfg := rfl
@[simp] theorem appendOut_bits : (appendOut b s).bits = s.bits := rfl
@[simp] theorem appendOut_rpos : (appendOut b s).rpos = s.rpos := rfl
@[simp] theorem appendOut_bcState : (appendOut b s).bcState = s.bcState := rfl
@[simp] theorem appendOut_bfinal : (appendOut b s).bfinal = s.bfinal := rfl
@[simp] theorem appendOut_btype : (appendOut b s).btype = s.btype := rfl
@[simp] theorem appendOut_outValid : (appendOut b s).outValid = s.outValid := rfl
@[simp] theorem appendOut_errKind : (appendOut b s).errKind = s.errKind := rfl
@[simp] theorem appendOut_errBitOff : (appendOut b s).errBitOff = s.errBitOff := rfl
@[simp] theorem appendOut_errByteOff : (appendOut b s).errByteOff = s.errByteOff := rfl
@[simp] theorem appendOut_window : (appendOut b s).window = s.window := rfl
@[simp] theorem appendOut_hufN : (appendOut b s).hufN = s.hufN := rfl
@[simp] theorem appendOut_freq : (appendOut b s).freq = s.freq := rfl
@[simp] theorem appendOut_tUser : (appendOut b s).tUser = s.tUser := rfl
@[simp] theorem appendOut_tCl : (appendOut b s).tCl = s.tCl := rfl
@[simp] theorem appendOut_tLl : (appendOut b s).tLl = s.tLl := rfl
@[simp] theorem appendOut_tD : (appendOut b s).tD = s.tD := rfl
@[simp] theorem appendOut_inBuf : (appendOut b s).inBuf = s.inBuf := rfl
@[simp] theorem appendOut_out : (appendOut b s).out = s.out ++ [b] := rfl
@[simp] theorem appendOut_sym : (appendOut b s).sym = s.sym := rfl
@[simp] theorem appendOut_tok : (appendOut b s).tok = s.tok := rfl
@[simp] theorem appendOut_lenPending : (appendOut b s).lenPending = s.lenPending := rfl
@[simp] theorem appendOut_dynNlen : (appendOut b s).dynNlen = s.dynNlen := rfl
@[simp] theorem appendOut_dynNdist : (appendOut b s).dynNdist = s.dynNdist := rfl
@[simp] theorem appendOut_dynLens : (appendOut b s).dynLens = s.dynLens := rfl
@[simp] theorem appendOut_cmds : (appendOut b s).cmds = s.cmds := rfl
@[simp] theorem appendOut_payload : (appendOut b s).payload = s.payload := rfl
@[simp] theorem appendOut_result : (appendOut b s).result = s.result := rfl

end

/-! ### `goTo` -/

section
variable (b : BcState) (s : State)

@[simp] theorem goTo_cfg : (goTo b s).cfg = s.cfg := rfl
@[simp] theorem goTo_bits : (goTo b s).bits = s.bits := rfl
@[simp] theorem goTo_rpos : (goTo b s).rpos = s.rpos := rfl
@[simp] theorem goTo_bcState : (goTo b s).bcState = b := rfl
@[simp] theorem goTo_bfinal : (goTo b s).bfinal = s.bfinal := rfl
@[simp] theorem goTo_btype : (goTo b s).btype = s.btype := rfl
@[simp] theorem goTo_outValid : (goTo b s).outValid = s.outValid := rfl
@[simp] theorem goTo_errKind : (goTo b s).errKind = s.errKind := rfl
@[simp] theorem goTo_errBitOff : (goTo b s).errBitOff = s.errBitOff := rfl
@[simp] theorem goTo_errByteOff : (goTo b s).errByteOff = s.errByteOff := rfl
@[simp] theorem goTo_window : (goTo b s).window = s.window := rfl
@[simp] theorem goTo_hufN : (goTo b s).hufN = s.hufN := rfl
@[simp] theorem goTo_freq : (goTo b s).freq = s.freq := rfl
@[simp] theorem goTo_tUser : (goTo b s).tUser = s.tUser := rfl
@[simp] theorem goTo_tCl : (goTo b s).tCl = s.tCl := rfl
@[simp] theorem goTo_tLl : (goTo b s).tLl = s.tLl := rfl
@[simp] theorem goTo_tD : (goTo b s).tD = s.tD := rfl
@[simp] theorem goTo_inBuf : (goTo b s).inBuf = s.inBuf := rfl
@[simp] theorem goTo_out : (goTo b s).out = s.out := rfl
@[simp] theorem goTo_sym : (goTo b s).sym = s.sym := rfl
@[simp] theorem goTo_tok : (goTo b s).tok = s.tok := rfl
@[simp] theorem goTo_lenPending : (goTo b s).lenPending = s.lenPending := rfl
@[simp] theorem goTo_dynNlen : (goTo b s).dynNlen = s.dynNlen := rfl
@[simp] theorem goTo_dynNdist : (goTo b s).dynNdist = s.dynNdist := rfl
@[simp] theorem goTo_dynLens : (goTo b s).dynLens = s.dynLens := rfl
@[simp] theorem goTo_cmds : (goTo b s).cmds = s.cmds := rfl
@[simp] theorem goTo_payload : (goTo b s).payload = s.payload := rfl
@[simp] theorem goTo_result : (goTo b s).result = s.result := rfl

end

/-! ### `emptyStream` -/

section
variable (s : State)

@[simp] theorem emptyStream_cfg : (emptyStream s).cfg = s.cfg := rfl
@[simp] theorem emptyStream_bits : (emptyStream s).bits = [] := rfl
@[simp] theorem emptyStream_rpos : (emptyStream s).rpos = 0 := rfl
@[simp] theorem emptyStream_bcState : (emptyStream s).bcState = s.bcState := rfl
@[simp] theorem emptyStream_bfinal : (emptyStream s).bfinal = s.bfinal := rfl
@[simp] theorem emptyStream_btype : (emptyStream s).btype = s.btype := rfl
@[simp] theorem emptyStream_outValid : (emptyStream s).outValid = s.outValid := rfl
@[simp] theorem emptyStream_errKind : (emptyStream s).errKind = s.errKind := rfl
@[simp] theorem emptyStream_errBitOff : (emptyStream s).errBitOff = s.errBitOff := rfl
@[simp] theorem emptyStream_errByteOff : (emptyStream s).errByteOff = s.errByteOff := rfl
@[simp] theorem emptyStream_window : (emptyStream s).window = s.window := rfl
@[simp] theorem emptyStream_hufN : (emptyStream s).hufN = s.hufN := rfl
@[simp] theorem emptyStream_freq : (emptyStream s).freq = s.freq := rfl
@[simp] theorem emptyStream_tUser : (emptyStream s).tUser = s.tUser := rfl
@[simp] theorem emptyStream_tCl : (emptyStream s).tCl = s.tCl := rfl
@[simp] theorem emptyStream_tLl : (emptyStream s).tLl = s.tLl := rfl
@[simp] theorem emptyStream_tD : (emptyStream s).tD = s.tD := rfl
@[simp] theorem emptyStream_inBuf : (emptyStream s).inBuf = s.inBuf := rfl
@[simp] theorem emptyStream_out : (emptyStream s).out = s.out := rfl
@[simp] theorem emptyStream_sym : (emptyStream s).sym = s.sym := rfl
@[simp] theorem emptyStream_tok : (emptyStream s).tok = s.tok := rfl
@[simp] theorem emptyStream_lenPending : (emptyStream s).lenPending = s.lenPending := rfl
@[simp] theorem emptyStream_dynNlen : (emptyStream s).dynNlen = s.dynNlen := rfl
@[simp] theorem emptyStream_dynNdist : (emptyStream s).dynNdist = s.dynNdist := rfl
@[simp] theorem emptyStream_dynLens : (emptyStream s).dynLens = s.dynLens := rfl
@[simp] theorem emptyStream_cmds : (emptyStream s).cmds = s.cmds := rfl
@[simp] theorem emptyStream_payload : (emptyStream s).payload = s.payload := rfl
@[simp] theorem emptyStream_result : (emptyStream s).result = s.result := rfl

end

/-! ### `takeHeader` -/

section
variable (f : Bool) (t : BitVec 2) (b : BcState) (s : State)

@[simp] theorem takeHeader_cfg : (takeHeader f t b s).cfg = s.cfg := rfl
@[simp] theorem takeHeader_bits : (takeHeader f t b s).bits = s.bits := rfl
@[simp] theorem takeHeader_rpos : (takeHeader f t b s).rpos = s.rpos := rfl
@[simp] theorem takeHeader_bcState : (takeHeader f t b s).bcState = b := rfl
@[simp] theorem takeHeader_bfinal : (takeHeader f t b s).bfinal = f := rfl
@[simp] theorem takeHeader_btype : (takeHeader f t b s).btype = t := rfl
@[simp] theorem takeHeader_outValid : (takeHeader f t b s).outValid = s.outValid := rfl
@[simp] theorem takeHeader_errKind : (takeHeader f t b s).errKind = s.errKind := rfl
@[simp] theorem takeHeader_errBitOff : (takeHeader f t b s).errBitOff = s.errBitOff := rfl
@[simp] theorem takeHeader_errByteOff : (takeHeader f t b s).errByteOff = s.errByteOff := rfl
@[simp] theorem takeHeader_window : (takeHeader f t b s).window = s.window := rfl
@[simp] theorem takeHeader_hufN : (takeHeader f t b s).hufN = s.hufN := rfl
@[simp] theorem takeHeader_freq : (takeHeader f t b s).freq = s.freq := rfl
@[simp] theorem takeHeader_tUser : (takeHeader f t b s).tUser = s.tUser := rfl
@[simp] theorem takeHeader_tCl : (takeHeader f t b s).tCl = s.tCl := rfl
@[simp] theorem takeHeader_tLl : (takeHeader f t b s).tLl = s.tLl := rfl
@[simp] theorem takeHeader_tD : (takeHeader f t b s).tD = s.tD := rfl
@[simp] theorem takeHeader_inBuf : (takeHeader f t b s).inBuf = s.inBuf := rfl
@[simp] theorem takeHeader_out : (takeHeader f t b s).out = s.out := rfl
@[simp] theorem takeHeader_sym : (takeHeader f t b s).sym = s.sym := rfl
@[simp] theorem takeHeader_tok : (takeHeader f t b s).tok = s.tok := rfl
@[simp] theorem takeHeader_lenPending : (takeHeader f t b s).lenPending = s.lenPending := rfl
@[simp] theorem takeHeader_dynNlen : (takeHeader f t b s).dynNlen = s.dynNlen := rfl
@[simp] theorem takeHeader_dynNdist : (takeHeader f t b s).dynNdist = s.dynNdist := rfl
@[simp] theorem takeHeader_dynLens : (takeHeader f t b s).dynLens = s.dynLens := rfl
@[simp] theorem takeHeader_cmds : (takeHeader f t b s).cmds = s.cmds := rfl
@[simp] theorem takeHeader_payload : (takeHeader f t b s).payload = s.payload := rfl
@[simp] theorem takeHeader_result : (takeHeader f t b s).result = s.result := rfl

end

/-! ### `takeCommand` -/

section
variable (c : HostCommand) (rest : List HostCommand) (s : State)

@[simp] theorem takeCommand_cfg : (takeCommand c rest s).cfg = s.cfg := rfl
@[simp] theorem takeCommand_bits : (takeCommand c rest s).bits = s.bits := rfl
@[simp] theorem takeCommand_rpos : (takeCommand c rest s).rpos = s.rpos := rfl
@[simp] theorem takeCommand_bcState : (takeCommand c rest s).bcState = s.bcState := rfl
@[simp] theorem takeCommand_bfinal : (takeCommand c rest s).bfinal = s.bfinal := rfl
@[simp] theorem takeCommand_btype : (takeCommand c rest s).btype = s.btype := rfl
@[simp] theorem takeCommand_outValid : (takeCommand c rest s).outValid = s.outValid := rfl
@[simp] theorem takeCommand_errKind : (takeCommand c rest s).errKind = s.errKind := rfl
@[simp] theorem takeCommand_errBitOff : (takeCommand c rest s).errBitOff = s.errBitOff := rfl
@[simp] theorem takeCommand_errByteOff : (takeCommand c rest s).errByteOff = s.errByteOff := rfl
@[simp] theorem takeCommand_window : (takeCommand c rest s).window = s.window := rfl
@[simp] theorem takeCommand_hufN : (takeCommand c rest s).hufN = s.hufN := rfl
@[simp] theorem takeCommand_freq : (takeCommand c rest s).freq = s.freq := rfl
@[simp] theorem takeCommand_tUser : (takeCommand c rest s).tUser = s.tUser := rfl
@[simp] theorem takeCommand_tCl : (takeCommand c rest s).tCl = s.tCl := rfl
@[simp] theorem takeCommand_tLl : (takeCommand c rest s).tLl = s.tLl := rfl
@[simp] theorem takeCommand_tD : (takeCommand c rest s).tD = s.tD := rfl
@[simp] theorem takeCommand_inBuf : (takeCommand c rest s).inBuf = s.inBuf := rfl
@[simp] theorem takeCommand_out : (takeCommand c rest s).out = s.out := rfl
@[simp] theorem takeCommand_sym : (takeCommand c rest s).sym = s.sym := rfl
@[simp] theorem takeCommand_tok : (takeCommand c rest s).tok = s.tok := rfl
@[simp] theorem takeCommand_lenPending : (takeCommand c rest s).lenPending = s.lenPending := rfl
@[simp] theorem takeCommand_dynNlen : (takeCommand c rest s).dynNlen = s.dynNlen := rfl
@[simp] theorem takeCommand_dynNdist : (takeCommand c rest s).dynNdist = s.dynNdist := rfl
@[simp] theorem takeCommand_dynLens : (takeCommand c rest s).dynLens = s.dynLens := rfl
@[simp] theorem takeCommand_cmds : (takeCommand c rest s).cmds = rest := rfl
@[simp] theorem takeCommand_payload : (takeCommand c rest s).payload = c.payload := rfl
@[simp] theorem takeCommand_result : (takeCommand c rest s).result = s.result := rfl

end

end Sys2Proof.Machine
end

