-- ==== Sys2Proof/Laws/Ops.lean ====
section
/-! SUPPORT. What each shared operation can do, said once: when it answers, and which state it leaves. Later proofs cite these and do
not unfold the operations. -/

namespace Sys2Proof.Machine

/-! ### The frame of a command -/

@[simp] theorem settled_ok (s : State) : settled (.ok s) = s := rfl

@[simp] theorem settled_error (s : State) : settled (.error s) = s := rfl

theorem unlessFailed_of_failed {body : State → State} {s : State} (h : s.bcState = .failed) : unlessFailed body s = refuse s := by
  simp [unlessFailed, h]

theorem unlessFailed_of_ne_failed {body : State → State} {s : State} (h : s.bcState ≠ .failed) : unlessFailed body s = body s := by
  simp [unlessFailed, h]

theorem unlessTooLong_cases (fits : Bool) (r s : State) :
    (fits = true ∧ unlessTooLong fits r s = r) ∨ (fits = false ∧ unlessTooLong fits r s = refuse s) := by
  cases fits <;> simp [unlessTooLong]

/-! ### Fields of bits -/

@[simp] theorem lsbBits_length (v n : Nat) : (lsbBits v n).length = n := by simp [lsbBits]

@[simp] theorem msbBits_length (v n : Nat) : (msbBits v n).length = n := by
  induction n with
  | zero => rfl
  | succ n ih => simp [msbBits, ih]

@[simp] theorem fieldBits_length (v n : Nat) (o : Order) : (fieldBits v n o).length = n := by
  cases o <;> simp [fieldBits]

theorem lsbValue_lt (bs : List Bool) : lsbValue bs < 2 ^ bs.length := by
  induction bs with
  | nil => simp [lsbValue]
  | cons b bs ih => cases b <;> simp only [lsbValue, List.length_cons, Bool.toNat_false, Bool.toNat_true] <;> omega

theorem msbValueFrom_lt (v : Nat) (bs : List Bool) : msbValueFrom v bs < (v + 1) * 2 ^ bs.length := by
  induction bs generalizing v with
  | nil => simp [msbValueFrom]
  | cons b bs ih =>
    have h := ih (2 * v + b.toNat)
    have hb : b.toNat ≤ 1 := by cases b <;> decide
    calc msbValueFrom v (b :: bs) < (2 * v + b.toNat + 1) * 2 ^ bs.length := h
      _ ≤ ((v + 1) * 2) * 2 ^ bs.length := Nat.mul_le_mul_right _ (by omega)
      _ = (v + 1) * 2 ^ (b :: bs).length := by rw [List.length_cons, pow_succ]; ring

theorem fieldValue_lt (bs : List Bool) (o : Order) : fieldValue bs o < 2 ^ bs.length := by
  cases o with
  | lsb => exact lsbValue_lt bs
  | msb => simpa [fieldValue] using msbValueFrom_lt 0 bs

@[simp] theorem backingBuffer_length (bits : List Bool) : (backingBuffer bits).length = (bits.length + 7) / 8 := by
  simp [backingBuffer]

/-! ### Reads -/

/-- `ReadBits` with enough bits left (R93). -/
theorem readBits_of_le {count : Nat} {o : Order} {s : State} (h : count ≤ s.bits.length - s.rpos) :
    readBits count o s = .ok (fieldValue ((s.bits.drop s.rpos).take count) o, moveCursor (s.rpos + count) s) := by
  simp [readBits, Nat.not_lt.mpr h]

/-- `ReadBits` with too few bits left (R93): `TruncatedStream` at the cursor, which is not moved. -/
theorem readBits_of_lt {count : Nat} {o : Order} {s : State} (h : s.bits.length - s.rpos < count) :
    readBits count o s = .error (raise .truncatedStream s.rpos s) := by
  simp [readBits, h]

theorem readBits_ok_inv {count : Nat} {o : Order} {s s' : State} {v : Nat} (h : readBits count o s = .ok (v, s')) :
    count ≤ s.bits.length - s.rpos ∧ v = fieldValue ((s.bits.drop s.rpos).take count) o ∧ s' = moveCursor (s.rpos + count) s := by
  by_cases hc : s.bits.length - s.rpos < count
  · rw [readBits_of_lt hc] at h; cases h
  · rw [readBits_of_le (Nat.not_lt.mp hc)] at h; cases h; exact ⟨Nat.not_lt.mp hc, rfl, rfl⟩

theorem readBits_error_inv {count : Nat} {o : Order} {s s' : State} (h : readBits count o s = .error s') :
    s.bits.length - s.rpos < count ∧ s' = raise .truncatedStream s.rpos s := by
  by_cases hc : s.bits.length - s.rpos < count
  · rw [readBits_of_lt hc] at h; cases h; exact ⟨hc, rfl⟩
  · rw [readBits_of_le (Nat.not_lt.mp hc)] at h; cases h

theorem readBits_value_lt {count : Nat} {o : Order} {s s' : State} {v : Nat} (h : readBits count o s = .ok (v, s')) :
    v < 2 ^ count := by
  obtain ⟨hc, rfl, -⟩ := readBits_ok_inv h
  have := fieldValue_lt ((s.bits.drop s.rpos).take count) o
  rwa [List.length_take, List.length_drop, Nat.min_eq_left hc] at this

/-- `ReadBit` inside the stream (R92). -/
theorem readBit_of_lt {s : State} (h : s.rpos < s.bits.length) :
    readBit s = .ok (s.bits[s.rpos], moveCursor (s.rpos + 1) s) := by
  unfold readBit
  rw [List.drop_eq_getElem_cons h]

/-- `ReadBit` at the end of the stream (R92). -/
theorem readBit_of_le {s : State} (h : s.bits.length ≤ s.rpos) : readBit s = .error (raise .truncatedStream s.rpos s) := by
  simp [readBit, List.drop_eq_nil_of_le h]

theorem alignRead_rpos (s : State) : (alignRead s).rpos = min (8 * ((s.rpos + 7) / 8)) s.bits.length := rfl

/-! ### One symbol -/

/-- A walk takes no more bits than there are, and takes one at least when it finds a symbol (R124). -/
theorem walk_taken (t : Tree) (bs : List Bool) (i k : Nat) : k ≤ (walk t bs i k).2 ∧ (walk t bs i k).2 ≤ k + bs.length := by
  induction bs generalizing i k with
  | nil => exact ⟨Nat.le_refl k, Nat.le_refl k⟩
  | cons b bs ih =>
    have one : k ≤ k + 1 ∧ k + 1 ≤ k + (b :: bs).length := ⟨by omega, by rw [List.length_cons]; omega⟩
    unfold walk
    split
    · exact one
    · rename_i c _
      split
      · exact one
      · exact one
      · have h := ih c (k + 1)
        rw [List.length_cons]
        omega

/-- A symbol that a walk finds is below the tree's `N`, and took a bit at least (R124). -/
theorem walk_found (t : Tree) (bs : List Bool) (i k : Nat) {x : Nat} (h : (walk t bs i k).1 = .ok x) :
    x < t.n ∧ k + 1 ≤ (walk t bs i k).2 := by
  induction bs generalizing i k with
  | nil => cases h
  | cons b bs ih =>
    unfold walk at h ⊢
    split at h
    · cases h
    · rename_i c _
      split at h
      · cases h
      · rename_i y _ _
        by_cases hn : t.n ≤ y
        · rw [if_pos hn] at h; cases h
        · rw [if_neg hn] at h; cases h
          simp only
          exact ⟨Nat.not_le.mp hn, Nat.le_refl _⟩
      · obtain ⟨h1, h2⟩ := ih c (k + 1) h
        exact ⟨h1, by omega⟩

theorem decodeSym_ok_inv {t : Tree} {s s' : State} {x : Nat} (h : decodeSym t s = .ok (x, s')) :
    x < t.n ∧ ∃ n, 1 ≤ n ∧ n ≤ s.bits.length - s.rpos ∧ s' = moveCursor (s.rpos + n) s := by
  unfold decodeSym at h
  have h2 := walk_taken t (s.bits.drop s.rpos) t.root 0
  have h3 := walk_found t (s.bits.drop s.rpos) t.root 0 (x := x)
  split at h
  · rename_i y n hw
    rw [hw] at h2 h3
    cases h
    obtain ⟨hlt, hpos⟩ := h3 rfl
    rw [List.length_drop] at h2
    exact ⟨hlt, n, by omega, by omega, rfl⟩
  · cases h

theorem decodeSym_error_inv {t : Tree} {s s' : State} (h : decodeSym t s = .error s') :
    ∃ kind n, n ≤ s.bits.length - s.rpos ∧ s' = raise kind (s.rpos + n) (moveCursor (s.rpos + n) s) := by
  unfold decodeSym at h
  have h2 := walk_taken t (s.bits.drop s.rpos) t.root 0
  split at h
  · cases h
  · rename_i kind n hw
    rw [hw] at h2
    cases h
    rw [List.length_drop] at h2
    exact ⟨kind, n, by omega, rfl⟩

/-! ### Trees from lengths -/

theorem treeFromLengths_ok_inv {lengths : List Nat} {maxbits : Nat} {s : State} {t : Tree}
    (h : treeFromLengths lengths maxbits s = .ok t) : overSubscribed lengths maxbits = false ∧ t = treeOfLengths lengths maxbits := by
  unfold treeFromLengths at h
  split at h
  · cases h
  · cases h; exact ⟨Bool.not_eq_true _ ▸ ‹¬_›, rfl⟩

theorem treeFromLengths_error_inv {lengths : List Nat} {maxbits : Nat} {s s' : State}
    (h : treeFromLengths lengths maxbits s = .error s') :
    overSubscribed lengths maxbits = true ∧ s' = raise .invalidHuffmanTree s.rpos s := by
  unfold treeFromLengths at h
  split at h
  · cases h; exact ⟨‹_›, rfl⟩
  · cases h

@[simp] theorem treeOfLengths_built (lengths : List Nat) (maxbits : Nat) : (treeOfLengths lengths maxbits).built = true := rfl

@[simp] theorem treeOfLengths_n (lengths : List Nat) (maxbits : Nat) : (treeOfLengths lengths maxbits).n = lengths.length := rfl

/-! ### The user tree -/

@[simp] theorem assignCodes_length (arena : List Node) (fuel i addr len : Nat) (tab : List CodeEntry) :
    (assignCodes arena fuel i addr len tab).length = tab.length := by
  induction fuel generalizing i addr len tab with
  | zero => rfl
  | succ fuel ih =>
    unfold assignCodes
    split
    · rfl
    · simp
    · split <;> split <;> simp [ih]

@[simp] theorem buildTree_built (n : Nat) (freq : List Freq) : (buildTree n freq).built = true := by
  unfold buildTree
  split
  · rfl
  · split <;> rfl

@[simp] theorem buildTree_n (n : Nat) (freq : List Freq) : (buildTree n freq).n = n := by
  unfold buildTree
  split
  · rfl
  · split <;> rfl

/-- The table of a built tree has an entry for each symbol of the alphabet (R21). -/
@[simp] theorem buildTree_tab_length (n : Nat) (freq : List Freq) : (buildTree n freq).tab.length = n := by
  unfold buildTree
  split
  · simp [degenerateTree]
  · split
    · simp [degenerateTree]
    · simp [generalTree]

/-! ### Copies into `OUT` -/

/-- Copying raw bytes appends as many bytes as asked and takes eight bits for each (R153). -/
theorem copyRaw_ok_inv {n : Nat} {s s' : State} (h : copyRaw n s = .ok s') :
    ∃ bs : List Byte, bs.length = n ∧ s' = { s with out := s.out ++ bs, rpos := s.rpos + 8 * n } := by
  induction n generalizing s with
  | zero => cases h; exact ⟨[], rfl, by simp⟩
  | succ n ih =>
    unfold copyRaw at h
    split at h
    · cases h
    · rename_i x s1 hr
      obtain ⟨-, -, rfl⟩ := readBits_ok_inv hr
      obtain ⟨bs, hl, rfl⟩ := ih h
      refine ⟨BitVec.ofNat 8 x :: bs, by simp [hl], ?_⟩
      simp only [appendOut, moveCursor, List.append_assoc, List.singleton_append, State.mk.injEq, and_true, true_and]
      omega

/-- Copying raw bytes from a stream that ends raises `TruncatedStream` before the first byte that is not whole (R153). -/
theorem copyRaw_error_inv {n : Nat} {s s' : State} (h : copyRaw n s = .error s') :
    ∃ (bs : List Byte) (s1 : State), s1 = { s with out := s.out ++ bs, rpos := s.rpos + 8 * bs.length } ∧ bs.length < n ∧
      s1.bits.length - s1.rpos < 8 ∧ s' = raise .truncatedStream s1.rpos s1 := by
  induction n generalizing s with
  | zero => cases h
  | succ n ih =>
    unfold copyRaw at h
    split at h
    · rename_i hr
      cases h
      obtain ⟨hc, rfl⟩ := readBits_error_inv hr
      exact ⟨[], s, by simp, Nat.succ_pos n, hc, rfl⟩
    · rename_i x s1 hr
      obtain ⟨-, -, rfl⟩ := readBits_ok_inv hr
      obtain ⟨bs, s2, rfl, hlt, hc, rfl⟩ := ih h
      have hs : ({ appendOut (BitVec.ofNat 8 x) (moveCursor (s.rpos + 8) s) with
            out := (appendOut (BitVec.ofNat 8 x) (moveCursor (s.rpos + 8) s)).out ++ bs
            rpos := (appendOut (BitVec.ofNat 8 x) (moveCursor (s.rpos + 8) s)).rpos + 8 * bs.length } : State) =
          { s with out := s.out ++ (BitVec.ofNat 8 x :: bs), rpos := s.rpos + 8 * (BitVec.ofNat 8 x :: bs).length } := by
        simp only [appendOut, moveCursor, List.append_assoc, List.singleton_append, List.length_cons, State.mk.injEq, and_true, true_and]
        omega
      rw [hs] at hc ⊢
      exact ⟨BitVec.ofNat 8 x :: bs, _, rfl, by simp only [List.length_cons]; omega, hc, rfl⟩

/-- A match copy appends as many bytes as asked and changes nothing else (R165). -/
theorem copyMatch_spec (d n : Nat) (s : State) : ∃ bs : List Byte, bs.length = n ∧ copyMatch d n s = { s with out := s.out ++ bs } := by
  induction n generalizing s with
  | zero => exact ⟨[], rfl, by simp [copyMatch]⟩
  | succ n ih =>
    obtain ⟨bs, hl, he⟩ := ih (appendOut (s.out.getD (s.out.length - d) 0) s)
    refine ⟨s.out.getD (s.out.length - d) 0 :: bs, by simp [hl], ?_⟩
    rw [copyMatch, he]
    simp [appendOut]

/-! ### Loops over symbols -/

/-- Encoding appends bits and changes nothing else (R117). -/
theorem encodeSymbols_ok_inv {t : Tree} {xs : List Sym} {s s' : State} (h : encodeSymbols t xs s = .ok s') :
    s' = { s with bits := s.bits ++ xs.flatMap fun x => msbBits (codeOf t x.toNat).code (codeOf t x.toNat).length } ∧
      ∀ x ∈ xs, x.toNat < t.n ∧ (codeOf t x.toNat).length ≠ 0 := by
  induction xs generalizing s with
  | nil => cases h; exact ⟨by simp, by simp⟩
  | cons x xs ih =>
    unfold encodeSymbols at h
    split at h
    · cases h
    · rename_i hx
      obtain ⟨rfl, hxs⟩ := ih h
      refine ⟨by simp [encodeSym], ?_⟩
      intro y hy
      rcases List.mem_cons.mp hy with rfl | hy
      · exact ⟨by omega, fun h0 => hx (.inr h0)⟩
      · exact hxs y hy

/-- Encoding that raises leaves the bits of the symbols before, and the error is at the end of the stream (R117). -/
theorem encodeSymbols_error_inv {t : Tree} {xs : List Sym} {s s' : State} (h : encodeSymbols t xs s = .error s') :
    ∃ bs : List Bool, s' = raise .symbolOutOfRange (s.bits ++ bs).length { s with bits := s.bits ++ bs } := by
  induction xs generalizing s with
  | nil => cases h
  | cons x xs ih =>
    unfold encodeSymbols at h
    split at h
    · cases h; exact ⟨[], by simp⟩
    · obtain ⟨bs, rfl⟩ := ih h
      exact ⟨msbBits (codeOf t x.toNat).code (codeOf t x.toNat).length ++ bs, by simp [encodeSym, pushAll]⟩

/-- Decoding appends one symbol of the alphabet for each count, moves the cursor inside the stream, and changes nothing else (R118). -/
theorem decodeSymbols_ok_inv {t : Tree} {k : Nat} {s s' : State} (h : decodeSymbols t k s = .ok s') :
    ∃ (xs : List Nat) (n : Nat), xs.length = k ∧ (∀ x ∈ xs, x < t.n) ∧ k ≤ n ∧ n ≤ s.bits.length - s.rpos ∧
      s' = { s with sym := s.sym ++ xs.map (BitVec.ofNat 16), rpos := s.rpos + n } := by
  induction k generalizing s with
  | zero => cases h; exact ⟨[], 0, rfl, by simp, Nat.le_refl 0, Nat.zero_le _, by simp⟩
  | succ k ih =>
    unfold decodeSymbols at h
    split at h
    · cases h
    · rename_i x s1 hd
      obtain ⟨hx, m, hm, hle, rfl⟩ := decodeSym_ok_inv hd
      obtain ⟨xs, n, hl, hxs, hk, hn, rfl⟩ := ih h
      simp only [moveCursor] at hn
      refine ⟨x :: xs, m + n, by simp [hl], ?_, by omega, by omega, ?_⟩
      · intro y hy
        rcases List.mem_cons.mp hy with rfl | hy
        · exact hx
        · exact hxs y hy
      · simp [moveCursor, Nat.add_assoc]

/-! ### Steps of the block state machine -/

theorem endOfBlock_cases (s : State) :
    (s.bfinal = true ∧ endOfBlock s = finish .nothing (goTo .done { s with outValid := s.out.length })) ∨
      (s.bfinal = false ∧ endOfBlock s = goTo .readHeader { s with outValid := s.out.length }) := by
  unfold endOfBlock
  cases s.bfinal <;> simp

/-- The code-length lengths are three bits each, and their number stays (R156). -/
theorem readClLengths_ok_inv {order cl cl' : List Nat} {s s' : State} (h : readClLengths order cl s = .ok (cl', s')) :
    cl'.length = cl.length ∧ 3 * order.length ≤ s.bits.length - s.rpos ∧ s' = moveCursor (s.rpos + 3 * order.length) s := by
  induction order generalizing cl s with
  | nil => cases h; exact ⟨rfl, Nat.zero_le _, rfl⟩
  | cons i order ih =>
    unfold readClLengths at h
    split at h
    · cases h
    · rename_i x s1 hr
      obtain ⟨hc, -, rfl⟩ := readBits_ok_inv hr
      obtain ⟨hl, hle, rfl⟩ := ih h
      simp only [moveCursor] at hle
      refine ⟨by simpa using hl, by rw [List.length_cons]; omega, ?_⟩
      simp only [moveCursor, List.length_cons, State.mk.injEq, and_true, true_and]
      omega

/-- The last step of a dynamic header: one of two errors, or the body begins (R159). -/
theorem buildBlockTrees_cases (s : State) :
    (∃ t : Tree, buildBlockTrees s = raise .invalidHuffmanTree s.rpos { s with tLl := t }) ∨
      buildBlockTrees s = goTo .blockBody
        { s with
          tLl := treeOfLengths (s.dynLens.take s.dynNlen) maxBitsBlock
          tD := treeOfLengths (s.dynLens.drop s.dynNlen) maxBitsBlock
          dynNlen := 0, dynNdist := 0, dynLens := [] } := by
  unfold buildBlockTrees
  split
  · rename_i s' h
    obtain ⟨-, rfl⟩ := treeFromLengths_error_inv h
    exact .inl ⟨s.tLl, rfl⟩
  · rename_i tl h
    obtain ⟨-, rfl⟩ := treeFromLengths_ok_inv h
    split
    · rename_i s' h2
      obtain ⟨-, rfl⟩ := treeFromLengths_error_inv h2
      exact .inl ⟨_, rfl⟩
    · rename_i td h2
      obtain ⟨-, rfl⟩ := treeFromLengths_ok_inv h2
      exact .inr rfl

theorem appendLengths_cases (xs : List Nat) (s : State) :
    (s.dynLens.length + xs.length < s.dynNlen + s.dynNdist ∧ appendLengths xs s = { s with dynLens := s.dynLens ++ xs }) ∨
      (s.dynNlen + s.dynNdist ≤ s.dynLens.length + xs.length ∧
        appendLengths xs s = buildBlockTrees { s with dynLens := s.dynLens ++ xs }) := by
  unfold appendLengths
  split
  · exact .inr ⟨‹_›, rfl⟩
  · exact .inl ⟨Nat.not_le.mp ‹_›, rfl⟩

/-- A length symbol: extra bits that are not whole, the reserved length, or a pending length (R163). -/
theorem lengthSymbol_cases (x : Nat) (s : State) :
    lengthSymbol x s = raise .truncatedStream s.rpos s ∨
      ((rowOf lenTab x).extra ≤ s.bits.length - s.rpos ∧
        ((x = 284 ∧ lengthSymbol x s = raise .symbolOutOfRange (s.rpos + (rowOf lenTab x).extra)
            (moveCursor (s.rpos + (rowOf lenTab x).extra) s)) ∨
          ∃ e, e < 2 ^ (rowOf lenTab x).extra ∧ ¬ (x = 284 ∧ e = 31) ∧ lengthSymbol x s =
            { moveCursor (s.rpos + (rowOf lenTab x).extra) s with lenPending := some ((rowOf lenTab x).base + e) })) := by
  unfold lengthSymbol
  split
  · rename_i h
    obtain ⟨-, rfl⟩ := readBits_error_inv h
    exact .inl rfl
  · rename_i e s' h
    have he := readBits_value_lt h
    obtain ⟨hc, -, rfl⟩ := readBits_ok_inv h
    refine .inr ⟨hc, ?_⟩
    split
    · exact .inl ⟨(‹_ ∧ _›).1, rfl⟩
    · exact .inr ⟨e, he, ‹_›, rfl⟩

/-- A distance symbol: extra bits that are not whole, a distance outside the window, or the copy (R163 to R165). -/
theorem distanceSymbol_cases (x : Nat) (s : State) :
    distanceSymbol x s = raise .truncatedStream s.rpos s ∨
      ((rowOf distTab x).extra ≤ s.bits.length - s.rpos ∧
        (distanceSymbol x s = raise .windowViolation (s.rpos + (rowOf distTab x).extra)
            (moveCursor (s.rpos + (rowOf distTab x).extra) s) ∨
          ∃ bs : List Byte, bs.length = s.lenPending.getD 0 ∧ distanceSymbol x s =
            { moveCursor (s.rpos + (rowOf distTab x).extra) s with lenPending := none, out := s.out ++ bs })) := by
  unfold distanceSymbol
  split
  · rename_i h
    obtain ⟨-, rfl⟩ := readBits_error_inv h
    exact .inl rfl
  · rename_i e s' h
    obtain ⟨hc, -, rfl⟩ := readBits_ok_inv h
    refine .inr ⟨hc, ?_⟩
    unfold performMatch
    split
    · exact .inl rfl
    · obtain ⟨bs, hl, he⟩ := copyMatch_spec ((rowOf distTab x).base + e)
        ((moveCursor (s.rpos + (rowOf distTab x).extra) s).lenPending.getD 0)
        { moveCursor (s.rpos + (rowOf distTab x).extra) s with lenPending := none }
      exact .inr ⟨bs, hl, he⟩

/-! ### The writing direction -/

theorem encodeSym_eq (t : Tree) (x : Nat) (s : State) :
    encodeSym t x s = { s with bits := s.bits ++ msbBits (codeOf t x).code (codeOf t x).length } := rfl

/-- Writing a token appends bits and changes nothing else (R173, R174). -/
theorem writeToken_spec (t : Token) (s : State) : ∃ bs : List Bool, writeToken t s = { s with bits := s.bits ++ bs } := by
  cases t with
  | literal b => exact ⟨_, rfl⟩
  | backRef len dist => exact ⟨_, by simp only [writeToken, writeRanged, encodeSym, pushBits, pushAll, List.append_assoc]; rfl⟩

theorem writeTokens_spec (ts : List Token) (s : State) : ∃ bs : List Bool, writeTokens ts s = { s with bits := s.bits ++ bs } := by
  induction ts generalizing s with
  | nil => exact ⟨[], by simp [writeTokens]⟩
  | cons t ts ih =>
    obtain ⟨b1, h1⟩ := writeToken_spec t s
    obtain ⟨b2, h2⟩ := ih (writeToken t s)
    exact ⟨b1 ++ b2, by rw [writeTokens, h2, h1]; simp⟩

theorem writeRaw_spec (xs : List Byte) (s : State) :
    writeRaw xs s = { s with bits := s.bits ++ xs.flatMap fun x => lsbBits x.toNat 8 } := by
  induction xs generalizing s with
  | nil => simp [writeRaw]
  | cons x xs ih => rw [writeRaw, ih]; simp [pushBits, pushAll, fieldBits]

/-- A stored block appends bits and writes the two header fields (R171). -/
theorem writeStoredBlock_spec (f : Bool) (c : List Byte) (s : State) :
    ∃ bs : List Bool, writeStoredBlock f c s = { s with bits := s.bits ++ bs, bfinal := f, btype := 0 } := by
  unfold writeStoredBlock
  rw [writeRaw_spec]
  exact ⟨_, by simp only [padWrite, writeHeader, pushBits, pushBit, pushAll, List.append_assoc]; rfl⟩

end Sys2Proof.Machine
end

