-- ==== Sys2Proof/Laws/Memory.lean ====
section
/-! SUPPORT. The form of the address spaces (`Memory.wf`; spec/20_memory.md R40): every operation that writes one keeps it, and the
state after reset has it. -/

namespace Sys2Proof.Machine

open Sys2Proof

theorem memory_wf_iff (s : State) :
    Memory.wf s = true ↔ s.freq.length = s.hufN.toNat ∧ s.rpos ≤ s.bits.length ∧ ∀ t ∈ s.tok, tokenLegal t = true := by
  simp only [Memory.wf, Bool.and_eq_true, decide_eq_true_eq, List.all_eq_true, and_assoc]

/-- Two states with the same four fields have the same form. -/
theorem memory_wf_congr {s t : State} (hf : t.freq = s.freq) (hn : t.hufN = s.hufN) (hr : t.rpos = s.rpos) (hb : t.bits = s.bits)
    (ht : t.tok = s.tok) : Memory.wf t = Memory.wf s := by
  simp only [Memory.wf, hf, hn, hr, hb, ht]

theorem memory_wf_reset : Memory.wf State.reset = true :=
  (memory_wf_iff _).mpr ⟨List.length_replicate, Nat.le_refl 0, fun _ ht => absurd ht List.not_mem_nil⟩

/-! ### The frame operations -/

@[simp] theorem memory_wf_raise (k : ErrorKind) (off : Nat) (s : State) : Memory.wf (raise k off s) = Memory.wf s := rfl

@[simp] theorem memory_wf_refuse (s : State) : Memory.wf (refuse s) = Memory.wf s := rfl

@[simp] theorem memory_wf_finish (v : Value) (s : State) : Memory.wf (finish v s) = Memory.wf s := rfl

@[simp] theorem memory_wf_goTo (b : BcState) (s : State) : Memory.wf (goTo b s) = Memory.wf s := rfl

@[simp] theorem memory_wf_appendOut (b : Byte) (s : State) : Memory.wf (appendOut b s) = Memory.wf s := rfl

@[simp] theorem memory_wf_takeCommand (c : HostCommand) (rest : List HostCommand) (s : State) :
    Memory.wf (takeCommand c rest s) = Memory.wf s := rfl

/-! ### The stream -/

theorem memory_wf_emptyStream {s : State} (h : Memory.wf s = true) : Memory.wf (emptyStream s) = true := by
  rw [memory_wf_iff] at h ⊢
  exact ⟨h.1, Nat.zero_le _, h.2.2⟩

theorem memory_wf_loadStream {s : State} (n : Nat) (h : Memory.wf s = true) : Memory.wf (loadStream n s) = true := by
  rw [memory_wf_iff] at h ⊢
  exact ⟨h.1, Nat.zero_le _, h.2.2⟩

theorem memory_wf_pushAll {s : State} (bs : List Bool) (h : Memory.wf s = true) : Memory.wf (pushAll bs s) = true := by
  rw [memory_wf_iff] at h ⊢
  refine ⟨h.1, ?_, h.2.2⟩
  simp only [pushAll_rpos, pushAll_bits, List.length_append]
  omega

theorem memory_wf_pushBit {s : State} (b : Bool) (h : Memory.wf s = true) : Memory.wf (pushBit b s) = true :=
  memory_wf_pushAll _ h

theorem memory_wf_pushBits {s : State} (v n : Nat) (o : Order) (h : Memory.wf s = true) : Memory.wf (pushBits v n o s) = true :=
  memory_wf_pushAll _ h

theorem memory_wf_padWrite {s : State} (h : Memory.wf s = true) : Memory.wf (padWrite s) = true := memory_wf_pushAll _ h

theorem memory_wf_encodeSym {s : State} (t : Tree) (x : Nat) (h : Memory.wf s = true) : Memory.wf (encodeSym t x s) = true :=
  memory_wf_pushAll _ h

theorem memory_wf_moveCursor {s : State} {p : Nat} (hp : p ≤ s.bits.length) (h : Memory.wf s = true) :
    Memory.wf (moveCursor p s) = true := by
  rw [memory_wf_iff] at h ⊢
  exact ⟨h.1, hp, h.2.2⟩

theorem memory_wf_alignRead {s : State} (h : Memory.wf s = true) : Memory.wf (alignRead s) = true :=
  memory_wf_moveCursor (Nat.min_le_right _ _) h

theorem memory_wf_readBits {s s' : State} {n v : Nat} {o : Order} (h : Memory.wf s = true) (hr : readBits n o s = .ok (v, s')) :
    Memory.wf s' = true := by
  obtain ⟨hc, -, rfl⟩ := readBits_ok_inv hr
  have hb := ((memory_wf_iff s).mp h).2.1
  exact memory_wf_moveCursor (by omega) h

theorem memory_wf_readBits_error {s s' : State} {n : Nat} {o : Order} (h : Memory.wf s = true) (hr : readBits n o s = .error s') :
    Memory.wf s' = true := by
  obtain ⟨-, rfl⟩ := readBits_error_inv hr
  exact h

theorem memory_wf_decodeSym {s s' : State} {t : Tree} {x : Nat} (h : Memory.wf s = true) (hd : decodeSym t s = .ok (x, s')) :
    Memory.wf s' = true := by
  obtain ⟨-, n, -, hn, rfl⟩ := decodeSym_ok_inv hd
  have hb := ((memory_wf_iff s).mp h).2.1
  exact memory_wf_moveCursor (by omega) h

theorem memory_wf_decodeSym_error {s s' : State} {t : Tree} (h : Memory.wf s = true) (hd : decodeSym t s = .error s') :
    Memory.wf s' = true := by
  obtain ⟨k, n, hn, rfl⟩ := decodeSym_error_inv hd
  have hb := ((memory_wf_iff s).mp h).2.1
  rw [memory_wf_raise]
  exact memory_wf_moveCursor (by omega) h

/-! ### The buffers -/

theorem memory_wf_resetState (s : State) : Memory.wf (resetState s) = true := by
  have h : Memory.wf (resetState s) = Memory.wf State.reset := rfl
  rw [h, memory_wf_reset]

theorem memory_wf_loadIn {s : State} (h : Memory.wf s = true) : Memory.wf (loadIn s) = true := h

theorem memory_wf_loadSym {s : State} (h : Memory.wf s = true) : Memory.wf (loadSym s) = true := h

theorem memory_wf_loadFreq {s : State} (hl : s.payload.length = s.hufN.toNat) (h : Memory.wf s = true) :
    Memory.wf (loadFreq s) = true := by
  rw [memory_wf_iff] at h ⊢
  exact ⟨by simp [loadFreq, hl], h.2.1, h.2.2⟩

/-- A write of `HUF_N` gives `FREQ` its new number of elements (R17). -/
theorem memory_wf_writeHufN {s : State} (val : BitVec 32) (h : Memory.wf s = true) : Memory.wf (writeHufN val s) = true := by
  unfold writeHufN
  split
  · exact h
  · rename_i hv
    rw [memory_wf_finish, memory_wf_iff]
    rw [memory_wf_iff] at h
    refine ⟨?_, h.2.1, h.2.2⟩
    simp only [List.length_replicate, BitVec.toNat_ofNat]
    omega

/-- Counting keeps the number of frequencies (R110), whether it raises or not. -/
theorem countSymbols_freq_length (n : Nat) (xs : List Sym) (s : State) :
    (settled (countSymbols n xs s)).freq.length = s.freq.length := by
  induction xs generalizing s with
  | nil => rfl
  | cons x xs ih =>
    unfold countSymbols
    split
    · rfl
    · rw [ih]; simp

/-- Counting writes `FREQ` and the error registers only (R110). -/
theorem countSymbols_frame (n : Nat) (xs : List Sym) (s : State) :
    (settled (countSymbols n xs s)).hufN = s.hufN ∧ (settled (countSymbols n xs s)).rpos = s.rpos ∧
      (settled (countSymbols n xs s)).bits = s.bits ∧ (settled (countSymbols n xs s)).tok = s.tok := by
  induction xs generalizing s with
  | nil => exact ⟨rfl, rfl, rfl, rfl⟩
  | cons x xs ih =>
    unfold countSymbols
    split
    · exact ⟨rfl, rfl, rfl, rfl⟩
    · exact ih _

theorem memory_wf_countSymbols {s : State} (n : Nat) (xs : List Sym) (h : Memory.wf s = true) :
    Memory.wf (settled (countSymbols n xs s)) = true := by
  obtain ⟨h1, h2, h3, h4⟩ := countSymbols_frame n xs s
  rw [memory_wf_iff] at h ⊢
  rw [countSymbols_freq_length, h1, h2, h3, h4]
  exact h

/-! ### The tokens of a scan -/

/-- A place that the search finds is inside the window and before the candidate, and the candidate occurs there (R137). -/
theorem findBelow_some {data : List Byte} {i k lo top f : Nat} (h : findBelow data i k lo top = some f) :
    lo ≤ f ∧ f < top ∧ agrees data f i k = true := by
  induction top with
  | zero => cases h
  | succ top ih =>
    unfold findBelow at h
    split at h
    · cases h
    · split at h
      · cases h; exact ⟨Nat.not_lt.mp ‹_›, Nat.lt_succ_self _, ‹_›⟩
      · obtain ⟨h1, h2, h3⟩ := ih h
        exact ⟨h1, Nat.lt_succ_of_lt h2, h3⟩

/-- What a grown candidate satisfies (R136): at most 258 bytes, found inside the window before its own place. -/
theorem growCandidate_bounds {data : List Byte} {w i fuel len : Nat} {m : Option Nat} (hlen : len ≤ 258)
    (hm : ∀ f, m = some f → i - w ≤ f ∧ f < i) :
    (growCandidate data w i fuel len m).1 ≤ 258 ∧ ∀ f, (growCandidate data w i fuel len m).2 = some f → i - w ≤ f ∧ f < i := by
  induction fuel generalizing len m with
  | zero => exact ⟨hlen, hm⟩
  | succ fuel ih =>
    unfold growCandidate
    split
    · exact ⟨hlen, hm⟩
    · split
      · exact ⟨hlen, hm⟩
      · rename_i hne
        have hne' : len ≠ 258 := hne
        split
        · exact ⟨hlen, hm⟩
        · rename_i f hf
          obtain ⟨h1, h2, -⟩ := findBelow_some hf
          exact ih (by omega) (by rintro g hg; cases hg; exact ⟨h1, h2⟩)

theorem scanFrom_legal {data : List Byte} {w : Nat} (hw : w ≤ 32768) (fuel i : Nat) :
    ∀ t ∈ scanFrom data w fuel i, tokenLegal t = true := by
  induction fuel generalizing i with
  | zero => intro t ht; cases ht
  | succ fuel ih =>
    unfold scanFrom
    split
    · intro t ht; cases ht
    · have hb := growCandidate_bounds (data := data) (w := w) (i := i) (fuel := maxMatch + 1) (len := 0) (m := none)
        (Nat.zero_le _) (by intro f hf; cases hf)
      split
      · rename_i len m hlm
        have hlm' : growCandidate data w i (maxMatch + 1) 0 none = (len, some m) := hlm
        rw [hlm'] at hb
        obtain ⟨hmw, hmi⟩ := hb.2 m rfl
        have hl : len ≤ 258 := hb.1
        split
        · rename_i hmin
          have hmin' : 3 ≤ len := hmin
          intro t ht
          rcases List.mem_cons.mp ht with rfl | ht
          · simp only [tokenLegal, decide_eq_true_eq]; omega
          · exact ih _ t ht
        · intro t ht
          rcases List.mem_cons.mp ht with rfl | ht
          · rfl
          · exact ih _ t ht
      · intro t ht
        rcases List.mem_cons.mp ht with rfl | ht
        · rfl
        · exact ih _ t ht

/-- A scan writes tokens that the type of R23 allows, if the window is legal (R17). -/
theorem memory_wf_scanned {s : State} (hw : s.window.toNat ≤ 32768) (h : Memory.wf s = true) : Memory.wf (scanned s) = true := by
  rw [memory_wf_iff] at h ⊢
  exact ⟨h.1, h.2.1, scanFrom_legal hw _ _⟩

end Sys2Proof.Machine
end

