-- ==== Sys2Proof/Laws/PerInstr.lean ====
section
/-! SUPPORT. What holds of every instruction as it is written: its word fits in the bits the opcode table gives its format
(spec/30_encoding.md R61, R66, R69, R74, R78). -/

namespace Sys2Proof.Laws.EncodingWidth

/-- The word of the instruction has no bit at or above its format's width. -/
def Statement (i : Instr) : Prop := (encode i).word.toNat < 2 ^ (encode i).format.bits

/-- A 64-bit word has no bit at or above 64. -/
theorem cmd64_fits (w : CmdWord) : w.toNat < 2 ^ Format.bits .cmd64 := w.isLt

theorem reset : Statement .reset := cmd64_fits _

theorem rdreg (r : BitVec 8) : Statement (.rdreg r) := cmd64_fits _

theorem wrreg (r : BitVec 8) (val : BitVec 32) : Statement (.wrreg r val) := cmd64_fits _

theorem ldbuf (b : BitVec 8) (n : BitVec 32) : Statement (.ldbuf b n) := cmd64_fits _

theorem rdbuf (b : BitVec 8) : Statement (.rdbuf b) := cmd64_fits _

theorem bsClear : Statement .bsClear := cmd64_fits _

theorem bsLoad (bitlen : BitVec 32) : Statement (.bsLoad bitlen) := cmd64_fits _

theorem bsPush (bit : BitVec 8) : Statement (.bsPush bit) := cmd64_fits _

theorem bsPushbits (value : BitVec 32) (count : BitVec 8) (order : Order) : Statement (.bsPushbits value count order) := cmd64_fits _

theorem bsRead : Statement .bsRead := cmd64_fits _

theorem bsReadbits (count : BitVec 8) (order : Order) : Statement (.bsReadbits count order) := cmd64_fits _

theorem bsTobytes : Statement .bsTobytes := cmd64_fits _

theorem hufCount : Statement .hufCount := cmd64_fits _

theorem hufBuild : Statement .hufBuild := cmd64_fits _

theorem hufEncode : Statement .hufEncode := cmd64_fits _

theorem hufDecode (count : BitVec 32) : Statement (.hufDecode count) := cmd64_fits _

theorem lzScan : Statement .lzScan := cmd64_fits _

theorem inflate : Statement .inflate := cmd64_fits _

theorem deflate (mode : BitVec 8) : Statement (.deflate mode) := cmd64_fits _

theorem blockStored (bfinal : Bool) : Statement (.blockStored bfinal) := by unfold Statement; cases bfinal <;> decide

theorem blockFixed (bfinal : Bool) : Statement (.blockFixed bfinal) := by unfold Statement; cases bfinal <;> decide

theorem blockDynamic (bfinal : Bool) : Statement (.blockDynamic bfinal) := by unfold Statement; cases bfinal <;> decide

theorem blockReserved (bfinal : Bool) : Statement (.blockReserved bfinal) := by unfold Statement; cases bfinal <;> decide

theorem llLiteral (byte : Byte) : Statement (.llLiteral byte) := by
  have h := byte.isLt
  simp only [Statement, encode, Format.bits, BitVec.toNat_setWidth]
  omega

theorem llEob : Statement .llEob := by unfold Statement; decide

theorem llLen257 : Statement .llLen257 := by unfold Statement; decide

theorem llLen258 : Statement .llLen258 := by unfold Statement; decide

theorem llLen259 : Statement .llLen259 := by unfold Statement; decide

theorem llLen260 : Statement .llLen260 := by unfold Statement; decide

theorem llLen261 : Statement .llLen261 := by unfold Statement; decide

theorem llLen262 : Statement .llLen262 := by unfold Statement; decide

theorem llLen263 : Statement .llLen263 := by unfold Statement; decide

theorem llLen264 : Statement .llLen264 := by unfold Statement; decide

theorem llLen265 : Statement .llLen265 := by unfold Statement; decide

theorem llLen266 : Statement .llLen266 := by unfold Statement; decide

theorem llLen267 : Statement .llLen267 := by unfold Statement; decide

theorem llLen268 : Statement .llLen268 := by unfold Statement; decide

theorem llLen269 : Statement .llLen269 := by unfold Statement; decide

theorem llLen270 : Statement .llLen270 := by unfold Statement; decide

theorem llLen271 : Statement .llLen271 := by unfold Statement; decide

theorem llLen272 : Statement .llLen272 := by unfold Statement; decide

theorem llLen273 : Statement .llLen273 := by unfold Statement; decide

theorem llLen274 : Statement .llLen274 := by unfold Statement; decide

theorem llLen275 : Statement .llLen275 := by unfold Statement; decide

theorem llLen276 : Statement .llLen276 := by unfold Statement; decide

theorem llLen277 : Statement .llLen277 := by unfold Statement; decide

theorem llLen278 : Statement .llLen278 := by unfold Statement; decide

theorem llLen279 : Statement .llLen279 := by unfold Statement; decide

theorem llLen280 : Statement .llLen280 := by unfold Statement; decide

theorem llLen281 : Statement .llLen281 := by unfold Statement; decide

theorem llLen282 : Statement .llLen282 := by unfold Statement; decide

theorem llLen283 : Statement .llLen283 := by unfold Statement; decide

theorem llLen284 : Statement .llLen284 := by unfold Statement; decide

theorem llLen285 : Statement .llLen285 := by unfold Statement; decide

theorem llReserved286 : Statement .llReserved286 := by unfold Statement; decide

theorem llReserved287 : Statement .llReserved287 := by unfold Statement; decide

theorem dDist0 : Statement .dDist0 := by unfold Statement; decide

theorem dDist1 : Statement .dDist1 := by unfold Statement; decide

theorem dDist2 : Statement .dDist2 := by unfold Statement; decide

theorem dDist3 : Statement .dDist3 := by unfold Statement; decide

theorem dDist4 : Statement .dDist4 := by unfold Statement; decide

theorem dDist5 : Statement .dDist5 := by unfold Statement; decide

theorem dDist6 : Statement .dDist6 := by unfold Statement; decide

theorem dDist7 : Statement .dDist7 := by unfold Statement; decide

theorem dDist8 : Statement .dDist8 := by unfold Statement; decide

theorem dDist9 : Statement .dDist9 := by unfold Statement; decide

theorem dDist10 : Statement .dDist10 := by unfold Statement; decide

theorem dDist11 : Statement .dDist11 := by unfold Statement; decide

theorem dDist12 : Statement .dDist12 := by unfold Statement; decide

theorem dDist13 : Statement .dDist13 := by unfold Statement; decide

theorem dDist14 : Statement .dDist14 := by unfold Statement; decide

theorem dDist15 : Statement .dDist15 := by unfold Statement; decide

theorem dDist16 : Statement .dDist16 := by unfold Statement; decide

theorem dDist17 : Statement .dDist17 := by unfold Statement; decide

theorem dDist18 : Statement .dDist18 := by unfold Statement; decide

theorem dDist19 : Statement .dDist19 := by unfold Statement; decide

theorem dDist20 : Statement .dDist20 := by unfold Statement; decide

theorem dDist21 : Statement .dDist21 := by unfold Statement; decide

theorem dDist22 : Statement .dDist22 := by unfold Statement; decide

theorem dDist23 : Statement .dDist23 := by unfold Statement; decide

theorem dDist24 : Statement .dDist24 := by unfold Statement; decide

theorem dDist25 : Statement .dDist25 := by unfold Statement; decide

theorem dDist26 : Statement .dDist26 := by unfold Statement; decide

theorem dDist27 : Statement .dDist27 := by unfold Statement; decide

theorem dDist28 : Statement .dDist28 := by unfold Statement; decide

theorem dDist29 : Statement .dDist29 := by unfold Statement; decide

theorem dReserved30 : Statement .dReserved30 := by unfold Statement; decide

theorem dReserved31 : Statement .dReserved31 := by unfold Statement; decide

theorem clLength (len : BitVec 4) : Statement (.clLength len) := by
  have h := len.isLt
  simp only [Statement, encode, Format.bits, BitVec.toNat_setWidth]
  omega

theorem clRep16 : Statement .clRep16 := by unfold Statement; decide

theorem clRep17 : Statement .clRep17 := by unfold Statement; decide

theorem clRep18 : Statement .clRep18 := by unfold Statement; decide

end Sys2Proof.Laws.EncodingWidth
end

