-- ==== Sys2Proof/Tests/Slice0.lean ====
section
/-! SUPPORT. Tests of the model, each about one step, with results from spec/95_test_vectors.md or worked out by hand from the rules;
and for every statement that has hypotheses a witness that they can all be met, at the boundaries of its clauses. -/

namespace Sys2Proof.Tests

open Sys2Proof Sys2Proof.Machine Sys2Proof.Claims

-- One theorem at a time: each kernel evaluation would else hold a thread of its own.
set_option Elab.async false

/-! ### Decoding -/

/-- Command words built by hand from R60 to R62 (`op | a << 8 | ord << 16 | v << 32`), as spec/95_test_vectors.md B1 prints them. -/
theorem test_decode_commands_system_bitstream :
    [1, 0x0000000000000B02, 0x0000040000000403, 0x0000000500000204, 0x0000000000000405, 0x10, 0x0000005000000011,
     0x000000000000FF12, 0x0000003000010813, 0x14, 0x0000000000001015, 0x16].map (decode .cmd64) =
      [.reset, .rdreg 11, .wrreg 4 1024, .ldbuf 2 5, .rdbuf 4, .bsClear, .bsLoad 80, .bsPush 255, .bsPushbits 0x30 8 .msb,
       .bsRead, .bsReadbits 16 .lsb, .bsTobytes].map Except.ok := by decide

/-- The same for the other families (B1). -/
theorem test_decode_commands_codec :
    [0x20, 0x21, 0x22, 0x0000000700000023, 0x30, 0x40, 0x0000000000000141].map (decode .cmd64) =
      [.hufCount, .hufBuild, .hufEncode, .hufDecode 7, .lzScan, .inflate, .deflate 1].map Except.ok := by decide

/-- Block headers: BFINAL is bit 0 and BTYPE bits 2:1 (R66, R67). -/
theorem test_decode_headers :
    [0, 1, 0b010, 0b011, 0b100, 0b101, 0b110, 0b111].map (decode .blkHdr) =
      [Instr.blockStored false, .blockStored true, .blockFixed false, .blockFixed true, .blockDynamic false,
       .blockDynamic true, .blockReserved false, .blockReserved true].map Except.ok := by decide

/-- Literals, EOB and the reserved symbols are their own numbers (R69). -/
theorem test_decode_literals :
    [0, 255, 256, 286, 287].map (decode .llSym) =
      [Instr.llLiteral 0, .llLiteral 255, .llEob, .llReserved286, .llReserved287].map Except.ok := by decide

/-- The length symbols (R72). -/
theorem test_decode_lengths_low :
    [257, 258, 259, 260, 261, 262, 263, 264, 265, 266, 267, 268, 269, 270, 271].map (decode .llSym) =
      [Instr.llLen257, .llLen258, .llLen259, .llLen260, .llLen261, .llLen262, .llLen263, .llLen264, .llLen265, .llLen266,
       .llLen267, .llLen268, .llLen269, .llLen270, .llLen271].map Except.ok := by decide

/-- The length symbols (R72). -/
theorem test_decode_lengths_high :
    [272, 273, 274, 275, 276, 277, 278, 279, 280, 281, 282, 283, 284, 285].map (decode .llSym) =
      [Instr.llLen272, .llLen273, .llLen274, .llLen275, .llLen276, .llLen277, .llLen278, .llLen279, .llLen280, .llLen281,
       .llLen282, .llLen283, .llLen284, .llLen285].map Except.ok := by decide

/-- The distance symbols (R74). -/
theorem test_decode_distances_low :
    [0, 1, 2, 3, 4, 5, 6, 7, 8, 9, 10, 11, 12, 13, 14, 15].map (decode .dSym) =
      [Instr.dDist0, .dDist1, .dDist2, .dDist3, .dDist4, .dDist5, .dDist6, .dDist7, .dDist8, .dDist9, .dDist10, .dDist11,
       .dDist12, .dDist13, .dDist14, .dDist15].map Except.ok := by decide

/-- The distance symbols (R74, R79). -/
theorem test_decode_distances_high :
    [16, 17, 18, 19, 20, 21, 22, 23, 24, 25, 26, 27, 28, 29, 30, 31].map (decode .dSym) =
      [Instr.dDist16, .dDist17, .dDist18, .dDist19, .dDist20, .dDist21, .dDist22, .dDist23, .dDist24, .dDist25, .dDist26,
       .dDist27, .dDist28, .dDist29, .dReserved30, .dReserved31].map Except.ok := by decide

/-- The code-length symbols (R78). -/
theorem test_decode_code_lengths :
    [0, 15, 16, 17, 18].map (decode .clSym) =
      [Instr.clLength 0, .clLength 15, .clRep16, .clRep17, .clRep18].map Except.ok := by decide

/-- R63, R204 (a), (b): words that are no command, rejected by name (B1). -/
theorem test_decode_rejects :
    [decode .cmd64 0, decode .cmd64 0x17, decode .cmd64 0x20001, decode .cmd64 0x101, decode .cmd64 0x0000000100000001,
      decode .cmd64 0x10112] =
    [.error (.unknownOpcode 0), .error (.unknownOpcode 0x17), .error .reservedNotZero, .error .unusedFieldNotZero,
      .error .unusedFieldNotZero, .error .unusedFieldNotZero] := by decide

/-- Values outside an alphabet (R78, R79). -/
theorem test_decode_outside_alphabets :
    [decode .blkHdr 8, decode .llSym 288, decode .dSym 32, decode .clSym 19] =
    [.error (.outsideAlphabet 4), .error (.outsideAlphabet 288), .error (.outsideAlphabet 32), .error (.outsideAlphabet 19)] := by
  decide

/-- WellFormed: an ill-formed term for each check of R62 (B1), which the check refuses. -/
theorem test_ill_formed :
    [Instr.rdreg 12, .wrreg 0 0, .wrreg 4 0, .wrreg 4 32769, .wrreg 5 0, .wrreg 5 289, .ldbuf 1 0, .ldbuf 3 0, .rdbuf 5,
      .bsPushbits 0 33 .lsb, .bsReadbits 33 .lsb, .deflate 2].map Instr.wellFormed = List.replicate 12 false := by decide

/-- The boundary values that the same checks accept. -/
theorem test_well_formed :
    [Instr.rdreg 11, .wrreg 4 1, .wrreg 4 32768, .wrreg 5 1, .wrreg 5 288, .ldbuf 0 0, .ldbuf 2 0, .ldbuf 4 0, .rdbuf 4,
      .bsPush 255, .bsPushbits 0 32 .lsb, .bsReadbits 32 .lsb, .deflate 1].map Instr.wellFormed = List.replicate 13 true := by decide

/-- The table word of `HUF.DECODE 5` is read as that command, and it is what the next step runs: `InvalidHuffmanTree` with no tree built
(R118). -/
theorem test_fetch_word :
    decodeTableWord 64 0x0000000500000023 = some (.hufDecode 5) ∧
      (match step (State.reset.withFetchWord 64 0x0000000500000023) with
        | .next t => t.result = .error .invalidHuffmanTree
        | _ => False) := ⟨by decide, rfl⟩

/-! ### Small states -/

/-- The reset state with an alphabet of four symbols. -/
def base : State := { State.reset with hufN := 4, freq := [0, 0, 0, 0] }

/-- `base` with a stream and a cursor. -/
def withStream (bits : List Bool) (rpos : Nat) : State := { base with bits := bits, rpos := rpos }

/-- A Failed instance. -/
def failedState : State := errorAt .invalidBitValue 4 base

/-- `base` with streams of at most 15 bits: `LEN_W` = 4 (R13). -/
def narrow : State := { base with cfg := { Config.standard with lenW := 4 } }

/-- What an instruction answers satisfies a test. -/
def answers (o : Step) (p : State → Bool) : Bool :=
  match o with
  | .next t => p t
  | .fault _ => false
  | .refused _ => false

/-- The tree of R112's example. -/
def exampleFreq : List Freq := [5, 1, 1, 2]

/-- `base` with R112's tree built. -/
def withTree : State := { base with freq := exampleFreq, tUser := buildTree 4 exampleFreq }

/-- `base` with R114's degenerate tree built. -/
def withOneLeaf : State := { base with freq := [0, 0, 7, 0], tUser := buildTree 4 [0, 0, 7, 0] }

theorem within_standard (n : Nat) (h : n ≤ 2 ^ 64 - 1) : within Config.standard none n := ⟨h, rfl⟩

theorem forall_of_all {P : Sym → Prop} [DecidablePred P] {xs : List Sym} (h : xs.all (fun x => decide (P x)) = true) :
    ∀ x ∈ xs, P x := fun x hx => of_decide_eq_true (List.all_eq_true.mp h x hx)

/-- A state in which an `INFLATE` reads a header meets the invariant. -/
theorem inv_reading (bits : List Bool) (rpos : Nat) (h : rpos ≤ bits.length) :
    StateInv { withStream bits rpos with bcState := .readHeader } where
  memory := by
    rw [memory_wf_iff]
    exact ⟨rfl, h, fun _ ht => absurd ht List.not_mem_nil⟩
  window := (by decide : 1 ≤ base.window.toNat ∧ base.window.toNat ≤ 32768)
  hufN := (by decide : 1 ≤ base.hufN.toNat ∧ base.hufN.toNat ≤ 288)
  errOffset := (by decide : (0 : Nat) = 0 / 8)
  errKind := (by decide : (none : Option ErrorKind).isSome = true ↔ BcState.readHeader = .failed)
  outValid := Nat.le_refl 0
  userTree := by intro h; cases h
  lenPending := by intro len h; cases h
  dynIdle := fun _ => ⟨rfl, rfl, rfl⟩
  dynRunning := by intro h; cases h
  blockTrees := by intro h; cases h

/-! ### System commands -/

/-- R180: after an error, `RESET` clears `STATUS` and `ERR_KIND`. -/
theorem test_reset_after_error :
    answers (exec .reset failedState) (fun t => registers t == [0, 0, 0, 0, 32768, 256, 0, 0, 0, 0, 0, 0]) = true := by decide

/-- R181: the two `STATUS` examples, 0xC6 after a clean decode and 0xFD after `BTYPE` = 3. -/
theorem test_rdreg_status :
    answers (exec (.rdreg 0) { base with bcState := .done, bfinal := true })
        (fun t => t.result == .ok (.number 0xC6)) = true ∧
      answers (exec (.rdreg 0) { base with bcState := .failed, bfinal := true, btype := 3 })
        (fun t => t.result == .ok (.number 0xFD)) = true := by decide

/-- R181: the last register, and the first number past it. -/
theorem test_rdreg_boundary :
    answers (exec (.rdreg 11) { failedState with sym := [7, 8] }) (fun t => t.result == .ok (.number 2)) = true ∧
      answers (exec (.rdreg 12) base) (fun t => t.result == .refused) = true := by decide

/-- R182: the boundary values of `WINDOW`. -/
theorem witness_wrreg_window :
    base.bcState ≠ .failed ∧ answers (exec (.wrreg 4 32768) base) (fun t => t.window == 0x8000 && t.result == .ok .nothing) = true ∧
      answers (exec (.wrreg 4 1) base) (fun t => t.window == 1) = true ∧
      answers (exec (.wrreg 4 0) base) (fun t => t == refusedIn base) = true ∧
      answers (exec (.wrreg 4 32769) base) (fun t => t == refusedIn base) = true := by decide +kernel

/-- R182: the boundary values of `HUF_N`, its side effects, and a register that is not writable. -/
theorem witness_wrreg_huf_n :
    withTree.bcState ≠ .failed ∧
      answers (exec (.wrreg 5 4) withTree) (fun t => t.freq == [0, 0, 0, 0] && !t.tUser.built && t.result == .ok .nothing) = true ∧
      answers (exec (.wrreg 5 288) withTree) (fun t => t.hufN == 288 && t.freq.length == 288) = true ∧
      answers (exec (.wrreg 5 0) withTree) (fun t => t == refusedIn withTree) = true ∧
      answers (exec (.wrreg 5 289) withTree) (fun t => t == refusedIn withTree) = true ∧
      answers (exec (.wrreg 6 1) withTree) (fun t => t == refusedIn withTree) = true := by decide +kernel

/-- R183: payloads that fit, in the three buffers. -/
theorem witness_ldbuf_loads :
    ([0x41, 0xFF].length = (2 : BitVec 32).toNat ∧ ∀ x ∈ [0x41, 0xFF], x ≤ 0xFF) ∧
      answers (exec (.ldbuf 0 2) { base with payload := [0x41, 0xFF] }) (fun t => t.inBuf == [0x41, 0xFF]) = true ∧
      answers (exec (.ldbuf 2 1) { base with payload := [0xFFFF] }) (fun t => t.sym == [0xFFFF]) = true ∧
      answers (exec (.ldbuf 4 4) { base with payload := [5, 1, 1, 0xFFFFFFFF] })
        (fun t => t.freq == [5, 1, 1, 0xFFFFFFFF] && t.result == .ok .nothing) = true := by decide +kernel

/-- R183: the refusals, each one past its boundary: an element, the capacity, the length of `FREQ`, a buffer that is not loaded. -/
theorem witness_ldbuf_refusals :
    answers (exec (.ldbuf 0 1) { base with payload := [0x100] }) (fun t => t.result == .refused && t.inBuf == []) = true ∧
      answers (exec (.ldbuf 0 2) { base with payload := [1, 2], cfg := { Config.standard with inCap := some 1 } })
        (fun t => t.result == .refused) = true ∧
      answers (exec (.ldbuf 2 1) { base with payload := [0x10000] }) (fun t => t.result == .refused) = true ∧
      answers (exec (.ldbuf 4 3) { base with payload := [5, 1, 1] }) (fun t => t.result == .refused) = true ∧
      answers (exec (.ldbuf 4 4) { base with payload := [0, 0, 0, 0x100000000] }) (fun t => t.result == .refused) = true ∧
      answers (exec (.ldbuf 1 0) base) (fun t => t.result == .refused) = true := by decide +kernel

/-- Log entry 5: the one fault. -/
theorem test_ldbuf_false_length : (match exec (.ldbuf 0 2) { base with payload := [1] } with
    | .fault (.payloadMismatch 2 1) => True
    | _ => False) := trivial

/-- R184: the token entries of the rule's example, the last buffer, and the first number past it. -/
theorem witness_rdbuf :
    (∀ k ∈ [Token.literal 0x41, .literal 0x42, .backRef 4 1], tokenLegal k = true) ∧
      answers (exec (.rdbuf 3) { failedState with tok := [.literal 0x41, .literal 0x42, .backRef 4 1] })
        (fun t => t.result == .ok (.elements [0x00000041, 0x00000042, 0x80040001])) = true ∧
      answers (exec (.rdbuf 4) withTree) (fun t => t.result == .ok (.elements [5, 1, 1, 2])) = true ∧
      answers (exec (.rdbuf 5) base) (fun t => t.result == .refused) = true := by decide +kernel

/-- R197: the hypotheses of the refusal, and the refusal. -/
theorem witness_failed_refuses :
    failedState.bcState = .failed ∧ (Instr.bsPush 1).format = .cmd64 ∧
      answers (exec (.bsPush 1) failedState) (fun t => t == refusedIn failedState) = true := by decide +kernel

/-- R63: an operand out of range. -/
theorem witness_operand_out_of_range :
    (Instr.deflate 2).wellFormed = false ∧ answers (exec (.deflate 2) base) (fun t => t == refusedIn base) = true := by decide +kernel

/-- R13, R204 (n): commands that complete at the reset parameters, with a result that passes a limit of `LEN_W` = 4 or a capacity, and
their refusals there. -/
theorem witness_results_past_a_limit :
    answers (exec .hufEncode { withTree with sym := List.replicate 16 0 })
        (fun t => t.result == .ok .nothing && t.bits.length == 16) = true ∧
      answers (exec .hufEncode { withTree with sym := List.replicate 16 0, cfg := narrow.cfg })
        (fun t => t.result == .refused && t.bits == []) = true ∧
      answers (exec (.hufDecode 2) { withTree with bits := [true, true] })
        (fun t => t.result == .ok .nothing && t.sym.length == 2) = true ∧
      answers (exec (.hufDecode 2) { withTree with bits := [true, true], cfg := { Config.standard with symCap := some 1 } })
        (fun t => t.result == .refused && t.rpos == 0) = true ∧
      answers (exec .lzScan { base with inBuf := [7, 8] }) (fun t => t.result == .ok .nothing && t.tok.length == 2) = true ∧
      answers (exec .lzScan { base with inBuf := [7, 8], cfg := { Config.standard with tokCap := some 1 } })
        (fun t => t.result == .refused && t.tok == []) = true := by decide +kernel

/-- The same for the two modes of `DEFLATE`: a stream of 40 bits, and a `TOK` of one token. -/
theorem witness_deflate_past_a_limit :
    answers (exec (.deflate 0) base) (fun t => t.result == .ok .nothing && t.bits.length == 40) = true ∧
      answers (exec (.deflate 0) narrow) (fun t => t == refusedIn narrow) = true ∧
      answers (exec (.deflate 1) { base with inBuf := [7] }) (fun t => t.result == .ok .nothing && t.tok.length == 1) = true ∧
      answers (exec (.deflate 1) { base with inBuf := [7], cfg := { Config.standard with tokCap := some 0 } })
        (fun t => t.result == .refused && t.bits == []) = true := by decide +kernel

/-! ### BitStream commands -/

/-- R96's example. -/
theorem witness_clear :
    (withStream [true] 1).bcState ≠ .failed ∧
      answers (exec .bsClear (withStream [true] 1)) (fun t => t.bits == [] && t.rpos == 0) = true := by decide

/-- R97's example, `IN` of one byte `0D`, its last bit, and one bit too many. -/
theorem witness_load :
    answers (exec (.bsLoad 4) { base with inBuf := [0x0D] }) (fun t => t.bits == [true, false, true, true]) = true ∧
      answers (exec (.bsLoad 8) { base with inBuf := [0x0D] }) (fun t => t.bits.length == 8) = true ∧
      answers (exec (.bsLoad 9) { base with inBuf := [0x0D] }) (fun t => t.result == .refused) = true ∧
      answers (exec (.bsLoad 16) { narrow with inBuf := [1, 2] }) (fun t => t.result == .refused) = true := by decide +kernel

/-- R98: 0 and 1 are appended, 2 is `InvalidBitValue` with `ERR_BITOFF` = `BS.len`. -/
theorem witness_push :
    within base.cfg none ((withStream [true, false, true, true] 0).bits.length + 1) ∧
      answers (exec (.bsPush 1) base) (fun t => t.bits == [true]) = true ∧
      answers (exec (.bsPush 0) base) (fun t => t.bits == [false]) = true ∧
      answers (exec (.bsPush 2) (withStream [true, false, true, true] 0))
        (fun t => t.result == .error .invalidBitValue && t.errBitOff == 4 && t.bits.length == 4) = true :=
  ⟨within_standard _ (by decide), by decide +kernel⟩

/-- R13: at the greatest length a push is refused. -/
theorem witness_push_limit :
    ¬ within narrow.cfg none (15 + 1) ∧
      answers (exec (.bsPush 1) { narrow with bits := List.replicate 15 true }) (fun t => t.result == .refused) = true :=
  ⟨fun h => absurd h.1 (by decide), by decide +kernel⟩

/-- R99's examples: the two orders; `count` = 0 with a value that is not 0; a count above 32. -/
theorem witness_pushbits :
    (0b1011 : BitVec 32).toNat < 2 ^ (4 : BitVec 8).toNat ∧
      answers (exec (.bsPushbits 0b1011 4 .lsb) base) (fun t => t.bits == [true, true, false, true]) = true ∧
      answers (exec (.bsPushbits 0b1011 4 .msb) base) (fun t => t.bits == [true, false, true, true]) = true ∧
      answers (exec (.bsPushbits 1 0 .lsb) base) (fun t => t.result == .error .invalidBitValue) = true ∧
      answers (exec (.bsPushbits 0 33 .lsb) base) (fun t => t.result == .refused) = true := by decide +kernel

/-- R99: the widest field, and R13 where it does not fit. -/
theorem witness_pushbits_wide :
    answers (exec (.bsPushbits 0xFFFFFFFF 32 .lsb) base) (fun t => t.bits == List.replicate 32 true) = true ∧
      answers (exec (.bsPushbits 0 16 .lsb) narrow) (fun t => t.result == .refused) = true := by decide +kernel

/-- R100's example: the last bit, and the read after it. -/
theorem witness_read :
    answers (exec .bsRead (withStream [true, false, true, true] 3)) (fun t => t.result == .ok (.bit true) && t.rpos == 4) = true ∧
      answers (exec .bsRead (withStream [true, false, true, true] 4))
        (fun t => t.result == .error .truncatedStream && t.errBitOff == 4) = true := by decide

/-- R101's example (`IN` = `05`: 1, then 2), `MSB` order, `count` = 0 at the end, and the two errors at their boundaries. -/
theorem witness_readbits :
    answers (exec (.bsReadbits 2 .lsb) (withStream [true, false, true] 1)) (fun t => t.result == .ok (.number 2) && t.rpos == 3) = true ∧
      answers (exec (.bsReadbits 2 .msb) (withStream [true, false, true] 1)) (fun t => t.result == .ok (.number 1)) = true ∧
      answers (exec (.bsReadbits 0 .lsb) (withStream [] 0)) (fun t => t.result == .ok (.number 0)) = true ∧
      answers (exec (.bsReadbits 3 .lsb) (withStream [true, false, true] 1))
        (fun t => t.result == .error .truncatedStream && t.rpos == 1 && t.errBitOff == 1) = true ∧
      answers (exec (.bsReadbits 33 .lsb) (withStream [true] 0)) (fun t => t.result == .refused) = true := by decide +kernel

/-- R102's example: `{65 08}`, in `Failed` too. -/
theorem test_tobytes :
    answers (exec .bsTobytes
        { failedState with bits := [true, false, true, false, false, true, true, false, false, false, false, true, false] })
      (fun t => t.result == .ok (.elements [0x65, 0x08]) && t.bcState == .failed) = true := by decide +kernel

/-- R93, R103 (a): a field at the cursor of a stream that is read to its end. -/
theorem witness_push_and_read :
    (withStream [true] 1).rpos = (withStream [true] 1).bits.length ∧ (5 : BitVec 32).toNat < 2 ^ (3 : BitVec 8).toNat ∧
      within base.cfg none ((withStream [true] 1).bits.length + 3) := ⟨rfl, by decide, within_standard _ (by decide)⟩

/-- R103 (c): nine bits come back from their two bytes. -/
theorem witness_load_undoes_tobytes :
    exec .bsTobytes (withStream [true, true, true, true, true, true, true, true, true] 0) =
        .next (okWith (.elements [0xFF, 0x01]) (withStream [true, true, true, true, true, true, true, true, true] 0)) ∧
      answers (exec (.bsLoad 9) { base with inBuf := [0xFF, 0x01] }) (fun t => t.bits == List.replicate 9 true) = true :=
  ⟨rfl, by decide +kernel⟩

/-- R103 (d): an instruction that appends. -/
theorem witness_bits_never_change : exec (.bsPush 1) (withStream [false] 0) =
    .next (okWith .nothing (withStream [false, true] 0)) := rfl

/-! ### HuffmanTree commands -/

/-- R110's example: all symbols are in the alphabet. -/
theorem witness_count :
    (∀ x ∈ ([0, 3, 1, 0, 2, 0, 0, 3, 0] : List Sym), x.toNat < base.hufN.toNat) ∧
      answers (exec .hufCount { base with sym := [0, 3, 1, 0, 2, 0, 0, 3, 0] }) (fun t => t.freq == [5, 1, 1, 2]) = true :=
  ⟨forall_of_all (by decide +kernel), by decide +kernel⟩

/-- R110: the first symbol outside the alphabet is its size. -/
theorem witness_count_error :
    (∀ x ∈ ([4, 1] : List Sym).head?, base.hufN.toNat ≤ x.toNat) ∧
      answers (exec .hufCount { base with sym := [3, 3, 4, 1], bits := [true] })
        (fun t => t.freq == [0, 0, 0, 2] && t.result == .error .symbolOutOfRange && t.errBitOff == 1) = true :=
  ⟨by rintro x ⟨⟩; decide, by decide +kernel⟩

/-- R114's example, and the alphabet of one symbol. -/
theorem witness_build_degenerate :
    (withOneLeaf.freq.getD 2 0 ≠ 0 ∧ ∀ y, y < withOneLeaf.hufN.toNat → y ≠ 2 → withOneLeaf.freq.getD y 0 = 0) ∧
      answers (exec .hufBuild withOneLeaf)
        (fun t => t.tUser.arena == [.leaf 2 7] && t.tUser.tab.map CodeEntry.length == [0, 0, 1, 0]) = true ∧
      answers (exec .hufBuild { base with hufN := 1, freq := [0] }) (fun t => t.tUser.tab == [⟨0, 1⟩]) = true := by decide +kernel

/-- R112's example: not exactly one frequency, and the table of R116. -/
theorem witness_build_general :
    2 ≤ withTree.hufN.toNat ∧ ¬ oneFrequency 4 withTree.freq ∧
      answers (exec .hufBuild withTree) (fun t => t.tUser.tab == [⟨0b1, 1⟩, ⟨0b010, 3⟩, ⟨0b011, 3⟩, ⟨0b00, 2⟩]) = true := by
  refine ⟨by decide, ?_, by decide +kernel⟩
  rintro ⟨x, hx, -, h⟩
  by_cases h0 : x = 0
  · exact absurd (h 1 (by decide) (by omega)) (by decide)
  · exact absurd (h 0 (by decide) (by omega)) (by decide)

/-- R113's example: the saturating sum and the order among equal frequencies. -/
theorem test_build_saturates :
    answers (exec .hufBuild { base with freq := [0xFFFFFFFF, 0xFFFFFFFF, 1, 0] })
      (fun t => t.tUser.tab == [⟨0b11, 2⟩, ⟨0b0, 1⟩, ⟨0b101, 3⟩, ⟨0b100, 3⟩]) = true := by decide +kernel

/-- R117's example: ten bits. -/
theorem witness_encode :
    (∀ x ∈ ([0, 3, 1, 0, 2] : List Sym), x.toNat < withTree.tUser.n ∧ (tableEntry withTree.tUser x.toNat).length ≠ 0) ∧
      answers (exec .hufEncode { withTree with sym := [0, 3, 1, 0, 2] })
        (fun t => t.bits == [true, false, false, false, true, false, true, false, true, true]) = true :=
  ⟨forall_of_all (by decide +kernel), by decide +kernel⟩

/-- R117: no tree; a symbol outside the alphabet; a symbol without a code in the degenerate tree. -/
theorem witness_encode_errors :
    answers (exec .hufEncode { base with bits := [true] })
        (fun t => t.result == .error .invalidHuffmanTree && t.errBitOff == 1) = true ∧
      answers (exec .hufEncode { withTree with sym := [3, 4] })
        (fun t => t.result == .error .symbolOutOfRange && t.errBitOff == 2 && t.bits == [false, false]) = true ∧
      answers (exec .hufEncode { withOneLeaf with sym := [2, 0] })
        (fun t => t.result == .error .symbolOutOfRange && t.errBitOff == 1) = true := by decide +kernel

/-- R118's example: the bits `1, 00, 010` spell 0, 3, 1 and the rest stays unread. -/
theorem witness_decode :
    (spells withTree.tUser [true] 0 ∧ spells withTree.tUser [false, false] 3 ∧ spells withTree.tUser [false, true, false] 1) ∧
      answers (exec (.hufDecode 3) { withTree with bits := [true, false, false, false, true, false, true] })
        (fun t => t.sym == [0, 3, 1] && t.rpos == 6) = true :=
  ⟨⟨.inl ⟨by decide, 0, 5, by decide +kernel, by decide +kernel⟩, .inl ⟨by decide, 3, 2, by decide +kernel, by decide +kernel⟩,
    .inl ⟨by decide, 1, 1, by decide +kernel, by decide +kernel⟩⟩, by decide +kernel⟩

/-- R118 without a tree; R118's degenerate example: `04` decodes 2, 2 and stops at bit 3 (a missing child). -/
theorem witness_decode_missing :
    missing withOneLeaf.tUser [] true ∧ spells withOneLeaf.tUser [false] 2 ∧
      answers (exec (.hufDecode 7) { withOneLeaf with bits := [false, false, true, false, false, false, false] })
        (fun t => t.sym == [2, 2] && t.result == .error .invalidHuffmanTree && t.errBitOff == 3 && t.rpos == 3) = true ∧
      answers (exec (.hufDecode 0) base) (fun t => t.result == .error .invalidHuffmanTree) = true :=
  ⟨.inr ⟨rfl, rfl, 2, 7, by decide +kernel⟩, .inr ⟨rfl, 7, by decide +kernel⟩, by decide +kernel, by decide +kernel⟩

/-- R193: a stream that ends inside a symbol, and one that ends between two. -/
theorem witness_decode_truncated :
    unfinished withTree.tUser [false, true] ∧ unfinished withTree.tUser [] ∧
      answers (exec (.hufDecode 2) { withTree with bits := [true, false, true] })
        (fun t => t.sym == [0] && t.result == .error .truncatedStream && t.errBitOff == 3) = true ∧
      answers (exec (.hufDecode 1) withTree) (fun t => t.result == .error .truncatedStream && t.errBitOff == 0) = true :=
  ⟨.inr ⟨4, 2, some 1, some 2, by decide +kernel, by decide +kernel⟩, .inl rfl, by decide +kernel, by decide +kernel⟩

/-- R124: a leaf outside the alphabet, in a tree made elsewhere. -/
theorem witness_decode_out_of_range :
    answers (exec (.hufDecode 1) { base with tUser := { oneCodeTree 5 with n := 4 }, bits := [false] })
      (fun t => t.result == .error .symbolOutOfRange && t.errBitOff == 1) = true ∧
    spells { oneCodeTree 5 with n := 4 } [false] 5 :=
  ⟨by decide +kernel, .inl ⟨by decide, 1, 0, rfl, rfl⟩⟩

/-- R126 (a): a state that meets the hypotheses of the round trip. -/
theorem witness_huffman_round_trip :
    exec .hufBuild { withTree with sym := [0, 3] } = .next (okWith .nothing { withTree with sym := [0, 3] }) ∧
      (∀ x ∈ ([0, 3] : List Sym), x.toNat < withTree.hufN.toNat ∧ (tableEntry withTree.tUser x.toNat).length ≠ 0) ∧
      within base.cfg none (0 + 288 * 2) := ⟨rfl, forall_of_all (by decide +kernel), within_standard _ (by decide)⟩

/-- R120's example, the RFC's. -/
theorem test_canon :
    canon [3, 3, 3, 3, 3, 2, 4, 4] 4 =
      [⟨0b010, 3⟩, ⟨0b011, 3⟩, ⟨0b100, 3⟩, ⟨0b101, 3⟩, ⟨0b110, 3⟩, ⟨0b00, 2⟩, ⟨0b1110, 4⟩, ⟨0b1111, 4⟩] := by decide

/-- R120: a length that is the greatest, and a length 0. -/
theorem witness_canon :
    ([2, 0, 2] : List Nat)[0]? = some 2 ∧ ([2, 0, 2] : List Nat)[1]? = some 0 ∧ 2 ≤ 2 ∧ canon [2, 0, 2] 2 = [⟨0, 2⟩, ⟨0, 0⟩, ⟨1, 2⟩] := by
  decide

/-- R121, R122: lengths that fill the code space, and the example that exceeds it. -/
theorem witness_tree_from_lengths :
    (∀ m ∈ [2, 1, 2], m ≤ 7) ∧ codeSpace [2, 1, 2] 7 = 2 ^ 7 ∧ codeSpace [1, 1, 1, 1] 7 = 256 ∧
      spells (treeOfLengths [2, 1, 2] 7) [true, false] 0 := by
  exact ⟨by decide, by decide, by decide, .inl ⟨by decide, 3, 0, by decide, by decide⟩⟩

/-! ### MatchFinder -/

/-- R137, R138: the nearest of two occurrences, one outside the window, and none. -/
theorem witness_find :
    findMatch [1, 2, 1, 2, 1, 2] 32768 4 2 = some 2 ∧ findMatch [1, 2, 3, 1, 2, 3] 2 3 3 = none ∧
      findMatch [1, 2, 3, 1, 2, 3] 3 3 3 = some 0 := by decide

/-- R135's example, and R140's cap at 258 bytes is reached by no shorter input. -/
theorem witness_scan :
    base.bcState ≠ .failed ∧ within base.cfg base.cfg.tokCap 6 ∧
      answers (exec .lzScan { base with inBuf := [0x41, 0x42, 0x42, 0x42, 0x42, 0x42] })
        (fun t => t.tok == [.literal 0x41, .literal 0x42, .backRef 4 1]) = true :=
  ⟨by decide, within_standard _ (by decide), by decide +kernel⟩

/-- The worked trace of `A B C X A B C Y A B C`: the nearer of two places. -/
theorem test_scan_nearest :
    scan [0x41, 0x42, 0x43, 0x58, 0x41, 0x42, 0x43, 0x59, 0x41, 0x42, 0x43] 32768 =
      [.literal 0x41, .literal 0x42, .literal 0x43, .literal 0x58, .backRef 3 4, .literal 0x59, .backRef 3 4] := by decide +kernel

/-- R142: a greedy sequence, and its replay. -/
theorem witness_greedy :
    greedy [7, 7] 32768 0 [.literal 7, .literal 7] ∧ replay [.literal 0x41, .literal 0x42, .backRef 4 1] [] =
      [0x41, 0x42, 0x42, 0x42, 0x42, 0x42] := by
  refine ⟨⟨rfl, ?_, rfl, ?_, Nat.le_refl 2⟩, by decide⟩
  · rintro d ⟨h1, h2, -⟩ -
    omega
  · rintro d - ⟨h, -⟩
    exact absurd h (by decide)

/-! ### Block headers -/

/-- R150's example: the stored block of "Hello" from its third bit on; the cursor is not at a byte boundary. -/
theorem witness_stored :
    answers (exec (.blockStored true)
        (withStream ([true, false, false, false, false, false, false, false] ++ field 16 5 ++ field 16 0xFFFA ++
          byteBits [0x48, 0x65, 0x6C, 0x6C, 0x6F]) 3))
      (fun t => t.out == [0x48, 0x65, 0x6C, 0x6C, 0x6F] && t.rpos == 80 && t.outValid == 5 && t.bcState == .done &&
        t.result == .ok .nothing) = true := by decide +kernel

/-- R153: no raw byte; `NLEN` that is no complement; each field cut one bit short; the last byte cut one bit short. -/
theorem witness_stored_errors :
    answers (exec (.blockStored false) (withStream (field 16 0 ++ field 16 0xFFFF) 0))
        (fun t => t.bcState == .readHeader && t.rpos == 32) = true ∧
      answers (exec (.blockStored true) (withStream (field 16 5 ++ field 16 0xFFFB) 0))
        (fun t => t.result == .error .malformedBlockHeader && t.errBitOff == 32) = true ∧
      answers (exec (.blockStored true) (withStream (List.replicate 15 true) 0))
        (fun t => t.result == .error .truncatedStream && t.errBitOff == 0) = true ∧
      answers (exec (.blockStored true) (withStream (List.replicate 31 true) 0))
        (fun t => t.result == .error .truncatedStream && t.errBitOff == 16) = true ∧
      answers (exec (.blockStored true) (withStream (field 16 2 ++ field 16 0xFFFD ++ byteBits [9] ++ List.replicate 7 true) 0))
        (fun t => t.result == .error .truncatedStream && t.errBitOff == 40 && t.out == [9]) = true := by decide +kernel

/-- R154: no bit is read. -/
theorem test_fixed_header :
    answers (exec (.blockFixed true) (withStream [true, true, false] 3))
      (fun t => t.rpos == 3 && t.bcState == .blockBody && t.bfinal && t.btype == 1 && t.tLl.built && t.tLl.n == 288) = true := by
  decide +kernel

/-- A dynamic header of the greatest counts with four code-length lengths 1, 1, 0, 0 (R155 to R157). -/
theorem witness_dynamic :
    (29 ≤ 29 ∧ ([1, 1, 0, 0] : List Nat).length = 0 + 4 ∧ codeSpace (clLengths [1, 1, 0, 0]) 7 = 128) ∧
      answers (exec (.blockDynamic false)
          (withStream (field 5 29 ++ field 5 29 ++ field 4 0 ++ [1, 1, 0, 0].flatMap (field 3)) 0))
        (fun t => t.dynNlen == 286 && t.dynNdist == 30 && t.rpos == 26 && t.bcState == .dynamicHuffman &&
          t.tCl.tab[16]? == some ⟨0, 1⟩ && t.tCl.tab[17]? == some ⟨1, 1⟩) = true := by decide +kernel

/-- R122's example of over-subscribed lengths; counts one too great; each field cut short; a length cut short. -/
theorem witness_dynamic_errors :
    answers (exec (.blockDynamic false)
        (withStream (field 5 0 ++ field 5 0 ++ field 4 0 ++ [1, 1, 1, 1].flatMap (field 3)) 0))
        (fun t => t.result == .error .invalidHuffmanTree && t.errBitOff == 26 && t.dynNlen == 0) = true ∧
      answers (exec (.blockDynamic false) (withStream (field 5 30 ++ field 5 0 ++ field 4 0) 0))
        (fun t => t.result == .error .malformedBlockHeader && t.errBitOff == 14) = true ∧
      answers (exec (.blockDynamic false) (withStream (field 4 0) 0))
        (fun t => t.result == .error .truncatedStream && t.errBitOff == 0) = true ∧
      answers (exec (.blockDynamic false) (withStream (field 9 0) 0))
        (fun t => t.result == .error .truncatedStream && t.errBitOff == 5) = true ∧
      answers (exec (.blockDynamic false) (withStream (field 13 0) 0))
        (fun t => t.result == .error .truncatedStream && t.errBitOff == 10) = true ∧
      answers (exec (.blockDynamic false) (withStream (field 14 0 ++ [1].flatMap (field 3) ++ [true, true]) 0))
        (fun t => t.result == .error .truncatedStream && t.errBitOff == 17) = true := by decide +kernel

/-! ### Symbols -/

/-- `base` in a dynamic header that needs `nlen + ndist` lengths and has `lens`. -/
def inLengths (lens : List Nat) (bits : List Bool) : State :=
  { withStream bits 0 with bcState := .dynamicHuffman, dynNlen := 257, dynNdist := 1, dynLens := lens }

/-- R158: a length; a copy of the last one (3 + 3 times); runs of zeros; nothing to copy. -/
theorem witness_code_lengths :
    (inLengths [] []).dynLens.length < (inLengths [] []).dynNlen + (inLengths [] []).dynNdist ∧
      answers (exec (.clLength 15) (inLengths [] [])) (fun t => t.dynLens == [15]) = true ∧
      answers (exec .clRep16 (inLengths [4] [true, true])) (fun t => t.dynLens == List.replicate 7 4 && t.rpos == 2) = true ∧
      answers (exec .clRep17 (inLengths [4] (field 3 7))) (fun t => t.dynLens == 4 :: List.replicate 10 0) = true ∧
      answers (exec .clRep18 (inLengths [] (field 7 127))) (fun t => t.dynLens == List.replicate 138 0) = true ∧
      answers (exec .clRep16 (inLengths [] [])) (fun t => t.result == .error .malformedBlockHeader && t.errBitOff == 0) = true := by
  decide +kernel

/-- R158, R159: extra bits cut short; a run one past the end; the last length, after which the trees are built. -/
theorem witness_code_lengths_end :
    answers (exec .clRep17 (inLengths [] [true, true])) (fun t => t.result == .error .truncatedStream && t.errBitOff == 0) = true ∧
      answers (exec .clRep17 (inLengths (List.replicate 256 0) (field 3 0)))
        (fun t => t.result == .error .malformedBlockHeader && t.errBitOff == 3) = true ∧
      answers (exec (.clLength 1) (inLengths (List.replicate 256 0 ++ [1]) []))
        (fun t => t.bcState == .blockBody && t.tLl.n == 257 && t.tD.n == 1 && t.dynLens == []) = true ∧
      answers (exec (.clLength 0) (inLengths (List.replicate 257 1) []))
        (fun t => t.result == .error .invalidHuffmanTree) = true := by decide +kernel

/-- R162, R166: the two ends of a block. -/
theorem witness_end_of_block :
    answers (exec .llEob { base with bfinal := false, out := [1, 2] }) (fun t => t.outValid == 2 && t.bcState == .readHeader) = true ∧
      answers (exec .llEob { base with bfinal := true, out := [1, 2] })
        (fun t => t.bcState == .done && t.result == .ok .nothing) = true := by decide

/-- R161: the greatest literal. -/
theorem test_literal : answers (exec (.llLiteral 255) { base with out := [1] }) (fun t => t.out == [1, 255]) = true := by decide

/-- R73's example: extra bits `0b01` against symbol 269 give 20; no extra bits; and bits cut short. -/
theorem witness_lengths :
    ⟨.llLen269, 269, 2, 19, 22⟩ ∈ lengthRows ∧ ((withStream [true, false] 0).bits.drop 0).take 2 = field 2 1 ∧
      answers (exec .llLen269 (withStream [true, false] 0)) (fun t => t.lenPending == some 20 && t.rpos == 2) = true ∧
      answers (exec .llLen285 (withStream [] 0)) (fun t => t.lenPending == some 258 && t.rpos == 0) = true ∧
      answers (exec .llLen269 (withStream [true] 0)) (fun t => t.result == .error .truncatedStream && t.rpos == 0) = true := by
  decide +kernel

/-- R72's row 284: extra 30 is 257, extra 31 is reserved. -/
theorem witness_length_284 :
    ⟨.llLen284, 284, 5, 227, 257⟩ ∈ lengthRows ∧
      answers (exec .llLen284 (withStream (field 5 30) 0)) (fun t => t.lenPending == some 257) = true ∧
      answers (exec .llLen284 (withStream (field 5 31) 0))
        (fun t => t.result == .error .symbolOutOfRange && t.errBitOff == 5 && t.lenPending == none) = true := by decide +kernel

/-- R165's example, Match(4,1) after `A B`; the greatest distance that fits; one past the output; one past the window; bits cut short. -/
theorem witness_distances :
    answers (exec .dDist0 { base with out := [0x41, 0x42], lenPending := some 4 })
        (fun t => t.out == [0x41, 0x42, 0x42, 0x42, 0x42, 0x42] && t.lenPending == none) = true ∧
      answers (exec .dDist4 { withStream [false] 0 with out := [1, 2, 3, 4, 5], lenPending := some 3 })
        (fun t => t.out == [1, 2, 3, 4, 5, 1, 2, 3] && t.rpos == 1) = true ∧
      answers (exec .dDist4 { withStream [true] 0 with out := [1, 2, 3, 4, 5], lenPending := some 3 })
        (fun t => t.result == .error .windowViolation && t.errBitOff == 1 && t.out.length == 5) = true ∧
      answers (exec .dDist2 { base with out := [1, 2, 3], lenPending := some 3, window := 2 })
        (fun t => t.result == .error .windowViolation) = true ∧
      answers (exec .dDist29 { withStream (field 12 0) 0 with lenPending := some 3 })
        (fun t => t.result == .error .truncatedStream && t.rpos == 0) = true := by decide +kernel

/-- R79: a reserved element of each kind. -/
theorem test_reserved :
    answers (exec (.blockReserved true) (withStream [true, true, true] 3))
        (fun t => t.result == .error .malformedBlockHeader && t.errBitOff == 3 && t.btype == 3) = true ∧
      answers (exec .llReserved286 base) (fun t => t.result == .error .symbolOutOfRange) = true ∧
      answers (exec .llReserved287 base) (fun t => t.result == .error .symbolOutOfRange) = true ∧
      answers (exec .dReserved30 base) (fun t => t.result == .error .symbolOutOfRange) = true ∧
      answers (exec .dReserved31 base) (fun t => t.result == .error .symbolOutOfRange) = true := by decide +kernel

/-! ### INFLATE and DEFLATE -/

/-- R151: the hypotheses of the start and of the end of an `INFLATE`, and its start at a cursor that is not 0. -/
theorem witness_inflate :
    (withStream [true, true, true, false] 1).bcState ≠ .failed ∧
      within base.cfg base.cfg.outCap (258 * ((withStream [true, true, true, false] 1).bits.length - 1)) ∧
      answers (exec .inflate { withStream [true, true, true, false] 1 with out := [1], outValid := 1 })
        (fun t => t.out == [] && t.outValid == 0 && t.rpos == 1 && t.bcState == .readHeader && t.result == .pending) = true :=
  ⟨by decide, within_standard _ (by decide), by decide +kernel⟩

/-- A state with the stored block of two bytes and no room for more than `cap` bytes in `OUT`. -/
def storedPair (cap : Nat) : State :=
  { withStream ([true] ++ List.replicate 7 false ++ field 16 2 ++ field 16 0xFFFD ++ byteBits [7, 8]) 0 with
    cfg := { Config.standard with outCap := some cap } }

/-- R13, R204 (n): the run that `INFLATE` would begin ends with two bytes: one fits, or two. -/
theorem witness_inflate_past_the_limit :
    answers (run 1 { inflateStart (storedPair 1) with cmds := [] }) (fun v => v.bcState == .done && v.out == [7, 8]) = true ∧
      answers (exec .inflate (storedPair 1)) (fun t => t == refusedIn (storedPair 1)) = true ∧
      answers (exec .inflate (storedPair 2)) (fun t => t.bcState == .readHeader && t.result == .pending) = true := by decide +kernel

/-- R152: an empty stream ends in its first step. -/
theorem test_inflate_of_nothing :
    answers (step { base with bcState := .readHeader })
      (fun t => t.bcState == .failed && t.result == .error .truncatedStream && t.errBitOff == 0) = true := by decide

/-- R27: a state inside `INFLATE` whose step completes. -/
theorem witness_inflate_forward :
    running { withStream [true, true, true] 0 with bcState := .readHeader } = true ∧ 0 ≤ (withStream [true, true, true] 0).bits.length ∧
      answers (step { withStream [true, true, true] 0 with bcState := .readHeader })
        (fun t => t.rpos == 3 && t.result == .error .malformedBlockHeader) = true := by decide +kernel

/-- R171's examples: "Hello" and the empty input; the cut of each. -/
theorem witness_deflate_stored :
    isCut [0x48, 0x65, 0x6C, 0x6C, 0x6F] [[0x48, 0x65, 0x6C, 0x6C, 0x6F]] ∧ isCut [] [[]] ∧
      answers (exec (.deflate 0) { base with inBuf := [0x48, 0x65, 0x6C, 0x6C, 0x6F] })
        (fun t => backingBuffer t.bits == [0x01, 0x05, 0x00, 0xFA, 0xFF, 0x48, 0x65, 0x6C, 0x6C, 0x6F] && t.bits.length == 80) = true ∧
      answers (exec (.deflate 0) base) (fun t => backingBuffer t.bits == [0x01, 0x00, 0x00, 0xFF, 0xFF]) = true :=
  ⟨⟨rfl, by decide⟩, ⟨rfl, by decide⟩, by decide +kernel, by decide +kernel⟩

/-- R171: an input of one byte more than a chunk has two chunks. -/
theorem witness_deflate_two_chunks :
    isCut (List.replicate 65535 0 ++ [1]) [List.replicate 65535 0, [1]] :=
  ⟨List.length_replicate, by decide, (List.take_left' List.length_replicate).symm, (List.drop_left' List.length_replicate).symm, by decide⟩

/-- Log entry 16: an input as long as a chunk is one chunk. -/
theorem witness_deflate_full_chunk :
    isCut (List.replicate 65535 0) [List.replicate 65535 0] ∧ storedChunks 1 (List.replicate 65535 0) = [List.replicate 65535 0] :=
  ⟨⟨rfl, List.length_replicate.le⟩, if_pos List.length_replicate.le⟩

/-- R170's example: `A B B B B B` gives 38 bits `{73 74 02 01 00}`. -/
theorem witness_deflate_fixed :
    base.window.toNat ≤ 32768 ∧ within base.cfg none (31 * 6 + 10) ∧
      answers (exec (.deflate 1) { base with inBuf := [0x41, 0x42, 0x42, 0x42, 0x42, 0x42] })
        (fun t => backingBuffer t.bits == [0x73, 0x74, 0x02, 0x01, 0x00] && t.bits.length == 38 && t.tok.length == 3) = true :=
  ⟨by decide, within_standard _ (by decide), by decide +kernel⟩

/-- R176: the hypotheses of the two round trips, with a larger window on the decoding side. -/
theorem witness_round_trips :
    within base.cfg none (8 * 6 + 40 * (6 / 65535 + 1)) ∧ within base.cfg base.cfg.outCap 6 ∧ within base.cfg base.cfg.tokCap 6 ∧
      (3 : BitVec 16).toNat ≤ (4 : BitVec 16).toNat ∧ (3 : BitVec 16).toNat ≤ 32768 :=
  ⟨within_standard _ (by decide), within_standard _ (by decide), within_standard _ (by decide), by decide, by decide⟩

/-! ### The machine -/

/-- R226: a command, a word that is none, and no command. -/
theorem witness_step_command :
    running base = false ∧ decode .cmd64 0x0000000000000112 = .ok (.bsPush 1) ∧ decode .cmd64 0x17 = .error (.unknownOpcode 0x17) ∧
      answers (step { base with cmds := [⟨0x0000000000000112, []⟩] }) (fun t => t.bits == [true] && t.cmds == []) = true ∧
      answers (step { base with cmds := [⟨0x17, []⟩] }) (fun t => t.result == .refused && t.cmds == []) = true ∧
      answers (step base) (fun t => t == base) = true := by decide +kernel

/-- R152: a header that is read, and headers that are cut short. -/
theorem witness_step_header :
    nextFormat { withStream [true, true, true] 0 with bcState := .readHeader } = some .blkHdr ∧
      answers (step { withStream [true] 0 with bcState := .readHeader })
        (fun t => t.result == .error .truncatedStream && t.errBitOff == 1 && t.bfinal) = true ∧
      answers (step { withStream [true, false] 0 with bcState := .readHeader })
        (fun t => t.result == .error .truncatedStream && t.errBitOff == 1) = true := by decide +kernel

/-- R160, R163: a symbol that is read and performed, for each of the three trees. -/
theorem witness_step_symbol :
    answers (step { withStream [false] 0 with bcState := .blockBody, tLl := oneCodeTree 65 }) (fun t => t.out == [65]) = true ∧
      answers (step { withStream [false] 0 with bcState := .blockBody, lenPending := some 3, tD := oneCodeTree 0, out := [7] })
        (fun t => t.out == [7, 7, 7, 7]) = true ∧
      answers (step { inLengths [] [false] with tCl := oneCodeTree 15 }) (fun t => t.dynLens == [15] && t.rpos == 1) = true ∧
      answers (step { withStream [true] 0 with bcState := .blockBody, tLl := oneCodeTree 65 })
        (fun t => t.result == .error .invalidHuffmanTree && t.errBitOff == 1) = true := by decide +kernel

/-- A state in the body of a block, with a tree of one code for each kind of symbol. -/
def inBody (bits : List Bool) (pending : Option Nat) : State :=
  { withStream bits 0 with bcState := .blockBody, lenPending := pending, tLl := oneCodeTree 300, tD := oneCodeTree 0 }

/-- R124, R160, R163: which tree is read, and bits that spell a symbol of it, one that is a symbol and one that is none (R195). -/
theorem witness_next_tree :
    nextTree (inBody [false] none) .llSym (oneCodeTree 300) ∧ nextTree (inBody [false] (some 3)) .dSym (oneCodeTree 0) ∧
      nextTree { inLengths [] [false] with tCl := oneCodeTree 15 } .clSym (oneCodeTree 15) ∧
      (spells (oneCodeTree 0) [false] 0 ∧ 0 < (oneCodeTree 0).n ∧ decode .dSym (BitVec.ofNat 64 0) = .ok .dDist0) ∧
      (spells (oneCodeTree 300) [false] 300 ∧ 300 < (oneCodeTree 300).n ∧
        decode .llSym (BitVec.ofNat 64 300) = .error (.outsideAlphabet 300)) ∧
      answers (step (inBody [false] none)) (fun t => t.result == .error .symbolOutOfRange && t.errBitOff == 1) = true :=
  ⟨.inr (.inl ⟨rfl, rfl, rfl, rfl⟩), .inr (.inr ⟨rfl, rfl, rfl, rfl⟩), .inl ⟨rfl, rfl, rfl⟩,
    ⟨.inl ⟨by decide, 1, 0, rfl, rfl⟩, by decide, rfl⟩, ⟨.inl ⟨by decide, 1, 0, by decide +kernel, by decide +kernel⟩, by decide +kernel,
      by decide +kernel⟩, by decide +kernel⟩

/-- R124: the three ways in which the walk stops, and the steps that meet them. -/
theorem witness_walk_stops :
    stopsAfter (oneCodeTree 0) [] [] .truncatedStream ∧ stopsAfter (oneCodeTree 0) [true, true] [true] .invalidHuffmanTree ∧
      stopsAfter { oneCodeTree 0 with n := 0 } [false] [false] .symbolOutOfRange ∧
      answers (step (inBody [] (some 3))) (fun t => t.result == .error .truncatedStream && t.errBitOff == 0) = true ∧
      answers (step (inBody [true, true] (some 3))) (fun t => t.result == .error .invalidHuffmanTree && t.errBitOff == 1) = true ∧
      answers (step { inBody [false] (some 3) with tD := { oneCodeTree 0 with n := 0 } })
        (fun t => t.result == .error .symbolOutOfRange && t.errBitOff == 1) = true :=
  ⟨.inl ⟨rfl, rfl, .inl rfl⟩,
    .inr (.inl ⟨rfl, [], true, [true], rfl, rfl, .inl ⟨0, 0, some 1, none, rfl, rfl, rfl⟩⟩),
    .inr (.inr ⟨rfl, 0, [], rfl, .inl ⟨by decide, 1, 0, rfl, rfl⟩, by decide⟩), by decide +kernel, by decide +kernel, by decide +kernel⟩

/-- R150: a state that meets the invariant and is inside `INFLATE`. -/
theorem witness_step_is_inflate_step :
    StateInv { withStream [true, true, true] 0 with bcState := .readHeader } ∧
      running { withStream [true, true, true] 0 with bcState := .readHeader } = true := ⟨inv_reading _ _ (by decide), rfl⟩

/-- A word that decodes. -/
theorem witness_encode_undoes_decode : decode .clSym 18 = .ok .clRep18 ∧ encode .clRep18 = ⟨.clSym, 18⟩ := by decide

/-- A step from a state that meets the invariant. -/
theorem witness_invariant_step :
    StateInv { withStream [] 0 with bcState := .readHeader } ∧
      step { withStream [] 0 with bcState := .readHeader } =
        .next (errorAt .truncatedStream 0 { withStream [] 0 with bcState := .readHeader }) :=
  ⟨inv_reading _ _ (by decide), rfl⟩

/-- R197, R202: a Failed instance refuses a push, and takes a `RESET`. -/
theorem witness_failed_step :
    answers (step { failedState with cmds := [⟨0x0000000000000112, []⟩] })
        (fun t => t == { failedState with result := .refused }) = true ∧
      decode .cmd64 1 = .ok .reset := by decide +kernel

/-- R199: an error of each direction, and one of a step inside `INFLATE` before an element is performed. -/
theorem witness_errors_record :
    answers (exec (.bsPush 2) (withStream [true, true] 1)) (fun t => t.bcState == .failed && t.errBitOff == t.bits.length) = true ∧
      answers (exec (.bsReadbits 2 .lsb) (withStream [true, true] 1)) (fun t => t.bcState == .failed && t.errBitOff == t.rpos) = true ∧
      running (inBody [true] none) = true ∧
      answers (step (inBody [true] none)) (fun t => t.bcState == .failed && t.errKind == some .invalidHuffmanTree && t.rpos == 1 &&
        t.errBitOff == 1) = true := by
  decide +kernel

/-- R40, R15: an instruction that completes and writes neither a buffer nor a flag. -/
theorem witness_frames : exec .bsRead (withStream [true] 0) = .next (okWith (.bit true) (withStream [true] 1)) := rfl

/-- R15: `DONE` is entered at the end of the final block, and a header writes `BFINAL`. -/
theorem witness_flags :
    answers (exec .llEob { base with bfinal := true }) (fun t => t.bcState == .done) = true ∧
      answers (exec (.blockReserved true) base) (fun t => t.bfinal && t.btype == 3) = true := by decide

/-- R15: `BS.CLEAR` keeps `DONE`; `INFLATE` and `DEFLATE` clear it; an error sets `FAILED` in its place. -/
theorem witness_done :
    answers (exec .bsClear { base with bcState := .done }) (fun t => t.bcState == .done) = true ∧
      answers (exec .inflate { base with bcState := .done }) (fun t => t.bcState == .readHeader) = true ∧
      answers (exec (.deflate 1) { base with bcState := .done }) (fun t => t.bcState == .idle) = true ∧
      answers (exec (.bsPush 2) { base with bcState := .done }) (fun t => t == errorAt .invalidBitValue t.errBitOff t) = true := by
  decide +kernel

end Sys2Proof.Tests
end

namespace Sys2Proof.Machine

open Sys2Proof Sys2Proof.Claims

/-! ### The search and the scan (R136 to R142) -/

theorem agrees_iff {data : List Byte} {f i k : Nat} : agrees data f i k = true ↔ ∀ j, j < k → data[f + j]? = data[i + j]? := by
  simp [agrees]

/-- Inside the input the search's test is the claims' `occurs` (R137). -/
theorem agrees_iff_occurs {data : List Byte} {f i k : Nat} (h : i + k ≤ data.length) :
    agrees data f i k = true ↔ occurs data f i k := by
  simp [agrees_iff, occurs, h]

/-- Where a candidate occurs, so does every shorter one (R136). -/
theorem occurs_of_le {data : List Byte} {f i k k' : Nat} (hk : k' ≤ k) (h : occurs data f i k) : occurs data f i k' :=
  ⟨by have := h.1; omega, fun j hj => h.2 j (by omega)⟩

/-- The search takes the greatest place below its start (R138). -/
theorem findBelow_some_nearest {data : List Byte} {i k lo top f : Nat} (h : findBelow data i k lo top = some f) :
    ∀ g, f < g → g < top → agrees data g i k = false := by
  induction top with
  | zero => cases h
  | succ top ih =>
    unfold findBelow at h
    split at h
    · cases h
    · split at h
      · cases h; intro g _ _; omega
      · rename_i hag
        intro g hfg hg
        obtain hlt | rfl : g < top ∨ g = top := by omega
        · exact ih h g hfg hlt
        · exact Bool.not_eq_true _ ▸ hag

/-- A search that finds nothing has met no place at which the candidate occurs (R138). -/
theorem findBelow_none {data : List Byte} {i k lo top : Nat} (h : findBelow data i k lo top = none) :
    ∀ g, lo ≤ g → g < top → agrees data g i k = false := by
  induction top with
  | zero => intro g _ hg; omega
  | succ top ih =>
    unfold findBelow at h
    split at h
    · intro g _ _; omega
    · split at h
      · cases h
      · rename_i hag
        intro g hlo hg
        obtain hlt | rfl : g < top ∨ g = top := by omega
        · exact ih h g hlo hlt
        · exact Bool.not_eq_true _ ▸ hag

/-- `Find` returns the nearest place in the window at which the candidate occurs (R137, R138). -/
theorem findMatch_some {data : List Byte} {w i k f : Nat} (hk : i + k ≤ data.length) (h : findMatch data w i k = some f) :
    i - w ≤ f ∧ f < i ∧ occurs data f i k ∧ ∀ g, f < g → g < i → ¬ occurs data g i k := by
  obtain ⟨hlo, hi, hag⟩ := findBelow_some h
  refine ⟨hlo, hi, (agrees_iff_occurs hk).mp hag, fun g hfg hg hocc => ?_⟩
  have hno := findBelow_some_nearest h g hfg hg
  rw [(agrees_iff_occurs hk).mpr hocc] at hno
  cases hno

/-- `Find` returns nothing only where the candidate occurs nowhere in the window (R137). -/
theorem findMatch_none {data : List Byte} {w i k : Nat} (hk : i + k ≤ data.length) (h : findMatch data w i k = none) :
    ∀ g, i - w ≤ g → g < i → ¬ occurs data g i k := by
  intro g hlo hg hocc
  have hno := findBelow_none h g hlo hg
  rw [(agrees_iff_occurs hk).mpr hocc] at hno
  cases hno

/-- What the candidate and its place satisfy at every round of the inner loop (R136): there is none yet, or it is the one that
`Find` gives for its length. -/
def CandidateAt (data : List Byte) (w i len : Nat) (m : Option Nat) : Prop :=
  (len = 0 ∧ m = none) ∨ ∃ f, m = some f ∧ 0 < len ∧ i + len ≤ data.length ∧ findMatch data w i len = some f

/-- The candidate is the longest one: no longer one, up to 258 bytes, occurs in the window (R136, R139, R140). -/
def LongestAt (data : List Byte) (w i len : Nat) : Prop :=
  len ≤ 258 ∧ (len < 258 → ∀ g, i - w ≤ g → g < i → ¬ occurs data g i (len + 1))

/-- The inner loop ends with the longest candidate, at the place that `Find` gives for it (R136). -/
theorem growCandidate_longest {data : List Byte} {w i fuel len : Nat} {m : Option Nat} (hfuel : 259 ≤ len + fuel) (hlen : len ≤ 258)
    (hc : CandidateAt data w i len m) :
    CandidateAt data w i (growCandidate data w i fuel len m).1 (growCandidate data w i fuel len m).2 ∧
      LongestAt data w i (growCandidate data w i fuel len m).1 := by
  induction fuel generalizing len m with
  | zero => omega
  | succ fuel ih =>
    unfold growCandidate
    split
    case isTrue hend => exact ⟨hc, hlen, fun _ g _ _ hocc => by have := hocc.1; omega⟩
    case isFalse hin =>
      split
      case isTrue hmax => exact ⟨hc, hlen, fun hlt => absurd hmax (Nat.ne_of_lt hlt)⟩
      case isFalse hmax =>
        split
        case h_1 hnone => exact ⟨hc, hlen, fun _ => findMatch_none (by omega) hnone⟩
        case h_2 f hsome =>
          have hne : len ≠ 258 := hmax
          exact ih (by omega) (by omega) (.inr ⟨f, rfl, Nat.succ_pos len, by omega, hsome⟩)

theorem longestMatch_spec (data : List Byte) (w i : Nat) :
    CandidateAt data w i (longestMatch data w i).1 (longestMatch data w i).2 ∧ LongestAt data w i (longestMatch data w i).1 :=
  growCandidate_longest (Nat.le_refl 259) (Nat.zero_le _) (.inl ⟨rfl, rfl⟩)

/-- A place in the window is a distance in the window (R137). -/
theorem inWindow_sub {w i g : Nat} (hlo : i - w ≤ g) (hg : g < i) : inWindow w i (i - g) ∧ i - (i - g) = g :=
  ⟨⟨by omega, by omega, by omega⟩, by omega⟩

/-- Where no three bytes occur in the window the longest candidate is shorter than a match (R141). -/
theorem longestMatch_short {data : List Byte} {w i : Nat} (h : ∀ d, inWindow w i d → ¬ occurs data (i - d) i 3) :
    (longestMatch data w i).1 < 3 := by
  obtain ⟨⟨h0, -⟩ | ⟨f, -, -, hle, hf⟩, -⟩ := longestMatch_spec data w i
  · omega
  · obtain ⟨hlo, hi, hocc, -⟩ := findMatch_some hle hf
    obtain ⟨hin, hsub⟩ := inWindow_sub hlo hi
    by_contra hlong
    exact h _ hin (by rw [hsub]; exact occurs_of_le (by omega) hocc)

/-- The greedy match at an index is the one that the inner loop finds (R136 to R138). -/
theorem longestMatch_of_greedy {data : List Byte} {w i len d : Nat} (hpos : 0 < len) (hlen : len ≤ 258) (hd : inWindow w i d)
    (hocc : occurs data (i - d) i len) (hnear : ∀ d', inWindow w i d' → d' < d → ¬ occurs data (i - d') i len)
    (hlong : len < 258 → ∀ d', inWindow w i d' → ¬ occurs data (i - d') i (len + 1)) :
    longestMatch data w i = (len, some (i - d)) := by
  obtain ⟨hd1, hdi, hdw⟩ := hd
  obtain ⟨hcand, hmax, hno⟩ := longestMatch_spec data w i
  have hge : len ≤ (longestMatch data w i).1 := by
    by_contra hlt
    exact hno (by omega) (i - d) (by omega) (by omega) (occurs_of_le (by omega) hocc)
  obtain ⟨h0, -⟩ | ⟨f, hm, -, hle, hf⟩ := hcand
  · omega
  obtain ⟨hlo, hi, hoccf, hnearf⟩ := findMatch_some hle hf
  obtain ⟨hin, hsub⟩ := inWindow_sub hlo hi
  have hlen' : (longestMatch data w i).1 = len := by
    by_contra hne
    exact hlong (by omega) _ hin (by rw [hsub]; exact occurs_of_le (by omega) hoccf)
  rw [hlen'] at hoccf hnearf
  have hplace : f = i - d := by
    rcases Nat.lt_trichotomy f (i - d) with hlt | heq | hgt
    · exact absurd hocc (hnearf _ hlt (by omega))
    · exact heq
    · exact absurd (hsub.symm ▸ hoccf) (hnear _ hin (by omega))
  exact Prod.ext hlen' (hm.trans (congrArg some hplace))

theorem scanFrom_of_le {data : List Byte} {w fuel i : Nat} (h : data.length ≤ i) : scanFrom data w fuel i = [] := by
  cases fuel with
  | zero => rfl
  | succ fuel => simp [scanFrom, h]

theorem scanFrom_literal {data : List Byte} {w fuel i : Nat} {b : Byte} (hb : data[i]? = some b)
    (h : (longestMatch data w i).1 < 3) : scanFrom data w (fuel + 1) i = .literal b :: scanFrom data w fuel (i + 1) := by
  simp only [scanFrom, hb]
  split
  · rename_i len m hlm
    rw [hlm] at h
    exact if_neg (Nat.not_le.mpr h)
  · rfl

theorem scanFrom_match {data : List Byte} {w fuel i len d : Nat} (hi : i < data.length) (hlen : 3 ≤ len) (hd : d ≤ i)
    (h : longestMatch data w i = (len, some (i - d))) :
    scanFrom data w (fuel + 1) i = .backRef len d :: scanFrom data w fuel (i + len) := by
  have hsub : i - (i - d) = d := by omega
  simp only [scanFrom, List.getElem?_eq_getElem hi, h, hsub]
  exact if_pos hlen

/-- The greedy tokens are unique: the scan gives them (R136). -/
theorem scanFrom_of_greedy {data : List Byte} {w : Nat} {ts : List Token} {i fuel : Nat} (h : greedy data w i ts)
    (hfuel : data.length ≤ i + fuel) : ts = scanFrom data w fuel i := by
  induction ts generalizing i fuel with
  | nil => exact (scanFrom_of_le h).symm
  | cons t ts ih =>
    cases t with
    | literal b =>
      obtain ⟨hb, hno, hrest⟩ := h
      have hi : i < data.length := (List.getElem?_eq_some_iff.mp hb).1
      obtain ⟨fuel, rfl⟩ : ∃ n, fuel = n + 1 := ⟨fuel - 1, by omega⟩
      rw [scanFrom_literal hb (longestMatch_short hno), ← ih hrest (by omega)]
    | backRef len d =>
      obtain ⟨h3, h258, hd, hocc, hnear, hlong, hrest⟩ := h
      have hfit := hocc.1
      obtain ⟨fuel, rfl⟩ : ∃ n, fuel = n + 1 := ⟨fuel - 1, by omega⟩
      rw [scanFrom_match (by omega) h3 hd.2.1 (longestMatch_of_greedy (by omega) h258 hd hocc hnear hlong), ← ih hrest (by omega)]

/-- Each greedy token covers a byte at least (R136). -/
theorem greedy_length_le {data : List Byte} {w : Nat} {ts : List Token} {i : Nat} (h : greedy data w i ts) :
    ts.length ≤ data.length - i := by
  induction ts generalizing i with
  | nil => exact Nat.zero_le _
  | cons t ts ih =>
    cases t with
    | literal b =>
      obtain ⟨hb, -, hrest⟩ := h
      have hi : i < data.length := (List.getElem?_eq_some_iff.mp hb).1
      have hlen := ih hrest
      rw [List.length_cons]; omega
    | backRef len d =>
      obtain ⟨h3, -, -, hocc, -, -, hrest⟩ := h
      have hfit := hocc.1
      have hlen := ih hrest
      rw [List.length_cons]; omega

/-- Copying from `d` bytes back continues the input, where each of its next bytes is the one `d` bytes before it (R142, R165). -/
theorem copyBack_take {data : List Byte} {d n j : Nat} (hd : 1 ≤ d) (hdj : d ≤ j) (hn : j + n ≤ data.length)
    (h : ∀ k, j ≤ k → k < j + n → data[k - d]? = data[k]?) : copyBack d n (data.take j) = data.take (j + n) := by
  induction n generalizing j with
  | zero => rfl
  | succ n ih =>
    have hbyte : (data.take j).getD ((data.take j).length - d) 0 = data[j] := by
      rw [List.length_take_of_le (by omega), List.getD_eq_getElem?_getD, List.getElem?_take_of_lt (by omega),
        h j (Nat.le_refl j) (by omega), List.getElem?_eq_getElem (by omega), Option.getD_some]
    rw [copyBack, hbyte, List.take_append_getElem (by omega), ih (by omega) (by omega) (fun k hk hk' => h k (by omega) (by omega))]
    congr 1; omega

/-- Replaying greedy tokens after the bytes before them rebuilds the input (R142). -/
theorem replay_of_greedy {data : List Byte} {w : Nat} {ts : List Token} {i : Nat} (h : greedy data w i ts) :
    replay ts (data.take i) = data := by
  induction ts generalizing i with
  | nil => exact List.take_of_length_le h
  | cons t ts ih =>
    cases t with
    | literal b =>
      obtain ⟨hb, -, hrest⟩ := h
      obtain ⟨hi, rfl⟩ := List.getElem?_eq_some_iff.mp hb
      rw [replay, List.take_append_getElem hi, ih hrest]
    | backRef len d =>
      obtain ⟨-, -, ⟨hd1, hdi, -⟩, ⟨hfit, hocc⟩, -, -, hrest⟩ := h
      have hback : ∀ k, i ≤ k → k < i + len → data[k - d]? = data[k]? := by
        intro k hk hk'
        have hj := hocc (k - i) (by omega)
        rwa [show i - d + (k - i) = k - d by omega, show i + (k - i) = k by omega] at hj
      rw [replay, copyBack_take hd1 hdi hfit hback, ih hrest]

/-- Settles O32: the scan is the one greedy sequence, and its replay is followed token by token along the input. -/
theorem scanTokensRebuildTheInput : Obligations.ScanTokensRebuildTheInput := by
  unfold Obligations.ScanTokensRebuildTheInput
  intro data w ts hw h
  have hscan : ts = scan data w := scanFrom_of_greedy h (by omega)
  refine ⟨hscan, ?_, greedy_length_le h, replay_of_greedy h⟩
  rw [hscan]
  exact scanFrom_legal hw _ _

end Sys2Proof.Machine

namespace Sys2Proof.Machine

open Sys2Proof Sys2Proof.Claims

/-! ### What a stream element does

One inversion for all stream elements: an element raises an error, ends the block, or goes on (`Performed`). What every step inside
`INFLATE` keeps is derived from it. -/

/-- The fields that no step inside `INFLATE` writes (R50). -/
structure Frame (s t : State) : Prop where
  cfg : t.cfg = s.cfg
  bits : t.bits = s.bits
  window : t.window = s.window
  hufN : t.hufN = s.hufN
  freq : t.freq = s.freq
  tUser : t.tUser = s.tUser
  inBuf : t.inBuf = s.inBuf
  sym : t.sym = s.sym
  tok : t.tok = s.tok
  cmds : t.cmds = s.cmds
  payload : t.payload = s.payload

theorem Frame.raise {s t : State} (h : Frame s t) (k : ErrorKind) (off : Nat) : Frame s (raise k off t) := { h with }

theorem Frame.endOfBlock {s t : State} (h : Frame s t) : Frame s (endOfBlock t) := by
  obtain ⟨-, he⟩ | ⟨-, he⟩ := endOfBlock_cases t <;> rw [he] <;> exact { h with }

/-- The cursor moves to `p`, forward and inside the stream, while at most `m` bytes are written: 258 for each bit that is read, and
258 for the symbol's own bits, which were read before. A pending length is a match length (R163). -/
def Forward (s : State) (p m : Nat) : Prop :=
  s.rpos ≤ s.bits.length → s.rpos ≤ p ∧ p ≤ s.bits.length ∧ (s.lenPending.getD 0 ≤ 258 → m ≤ 258 * (p - s.rpos + 1))

theorem Forward.stay (s : State) : Forward s s.rpos 0 := fun h => ⟨Nat.le_refl _, h, fun _ => Nat.zero_le _⟩

theorem Forward.add {s : State} {n : Nat} (hn : n ≤ s.bits.length - s.rpos) : Forward s (s.rpos + n) 0 :=
  fun _ => ⟨by omega, by omega, fun _ => Nat.zero_le _⟩

/-- What an element does before it raises, ends the block or goes on: beside `Frame` it keeps the error registers and `OUT_VALID`;
only a block header writes the header fields (R152); bytes are only appended to `OUT`, and the cursor only moves forward (R167). -/
structure Reads (f : Format) (s t : State) : Prop extends Frame s t where
  errKind : t.errKind = s.errKind
  errBitOff : t.errBitOff = s.errBitOff
  errByteOff : t.errByteOff = s.errByteOff
  outValid : t.outValid = s.outValid
  header : f ≠ .blkHdr → t.bfinal = s.bfinal ∧ t.btype = s.btype
  out : ∃ xs, t.out = s.out ++ xs ∧ Forward s t.rpos xs.length

/-- The updates that keep the header fields. -/
theorem Reads.of_update {f : Format} {s : State} {p : Nat} {xs : List Byte} {b : BcState} {tc tl td : Tree} {l : Option Nat}
    {n d : Nat} {ls : List Nat} (hp : Forward s p xs.length) :
    Reads f s { s with
      rpos := p, out := s.out ++ xs, bcState := b, tCl := tc, tLl := tl, tD := td, lenPending := l, dynNlen := n, dynNdist := d,
      dynLens := ls } :=
  { cfg := rfl, bits := rfl, window := rfl, hufN := rfl, freq := rfl, tUser := rfl, inBuf := rfl, sym := rfl, tok := rfl
    cmds := rfl, payload := rfl, errKind := rfl, errBitOff := rfl, errByteOff := rfl, outValid := rfl
    header := fun _ => ⟨rfl, rfl⟩, out := ⟨xs, rfl, hp⟩ }

/-- The same without bytes for `OUT`. -/
theorem Reads.of_move {f : Format} {s : State} {p : Nat} {b : BcState} {tc tl td : Tree} {l : Option Nat} {n d : Nat}
    {ls : List Nat} (hp : Forward s p 0) :
    Reads f s { s with
      rpos := p, bcState := b, tCl := tc, tLl := tl, tD := td, lenPending := l, dynNlen := n, dynNdist := d, dynLens := ls } := by
  have h := Reads.of_update (f := f) (xs := []) (b := b) (tc := tc) (tl := tl) (td := td) (l := l) (n := n) (d := d) (ls := ls) hp
  rwa [List.append_nil] at h

theorem Reads.refl (f : Format) (s : State) : Reads f s s := Reads.of_move (Forward.stay s)

/-- Taking the header fields is a part of a header element (R152). -/
theorem Reads.of_takeHeader {s t : State} {b : Bool} {ty : BitVec 2} {c : BcState} (h : Reads .blkHdr (takeHeader b ty c s) t) :
    Reads .blkHdr s t := { h with header := fun hf => absurd rfl hf }

/-- The clauses of `StateInv` on the transient state and the trees of an `INFLATE`. -/
structure BlockInv (s : State) : Prop where
  lenPending : ∀ len, s.lenPending = some len → s.bcState = .blockBody ∧ 3 ≤ len ∧ len ≤ 258
  dynIdle : s.bcState ≠ .dynamicHuffman → s.dynNlen = 0 ∧ s.dynNdist = 0 ∧ s.dynLens = []
  dynRunning : s.bcState = .dynamicHuffman →
    257 ≤ s.dynNlen ∧ s.dynNlen ≤ 286 ∧ 1 ≤ s.dynNdist ∧ s.dynNdist ≤ 30 ∧
      s.dynLens.length < s.dynNlen + s.dynNdist ∧ s.tCl.built = true ∧ s.tCl.n = 19
  blockTrees : s.bcState = .blockBody → s.tLl.built = true ∧ s.tLl.n ≤ 288 ∧ s.tD.built = true ∧ s.tD.n ≤ 32

theorem BlockInv.of_stateInv {s : State} (h : StateInv s) : BlockInv s := { h with }

/-- No length is pending and no dynamic header is being read. -/
def Quiet (s : State) : Prop := s.lenPending = none ∧ s.dynNlen = 0 ∧ s.dynNdist = 0 ∧ s.dynLens = []

theorem Quiet.ne_some {s : State} {len : Nat} (h : Quiet s) (hl : s.lenPending = some len) : False := by
  rw [h.1] at hl; cases hl

theorem BlockInv.of_quiet {s : State} (hq : Quiet s) (hd : s.bcState ≠ .dynamicHuffman) (hb : s.bcState ≠ .blockBody) :
    BlockInv s where
  lenPending _ h := (hq.ne_some h).elim
  dynIdle _ := hq.2
  dynRunning h := absurd h hd
  blockTrees h := absurd h hb

theorem BlockInv.quiet {s : State} (h : BlockInv s) (hd : s.bcState ≠ .dynamicHuffman)
    (hl : s.bcState = .blockBody → s.lenPending = none) :
    Quiet s := by
  refine ⟨?_, h.dynIdle hd⟩
  cases hp : s.lenPending with
  | none => rfl
  | some len => rw [hl (h.lenPending len hp).1] at hp; cases hp

theorem BlockInv.raise (k : ErrorKind) (off : Nat) (s : State) : BlockInv (raise k off s) :=
  .of_quiet ⟨rfl, rfl, rfl, rfl⟩ (by simp) (by simp)

theorem BlockInv.endOfBlock {s : State} (hq : Quiet s) : BlockInv (endOfBlock s) := by
  obtain ⟨-, he⟩ | ⟨-, he⟩ := endOfBlock_cases s <;> rw [he] <;> exact .of_quiet hq (by simp) (by simp)

/-- A pending length is a match length (R163). -/
theorem BlockInv.pending_le {s : State} (h : BlockInv s) : s.lenPending.getD 0 ≤ 258 := by
  cases hp : s.lenPending with
  | none => exact Nat.zero_le _
  | some len => exact (h.lenPending len hp).2.2

/-- `BC.state` is one in which an element of the format is performed (R150). -/
def Expects (f : Format) (s : State) : Prop :=
  match f with
  | .blkHdr => s.bcState = .readHeader ∨ s.bcState = .stored ∨ s.bcState = .fixedHuffman
  | .clSym => s.bcState = .dynamicHuffman
  | .llSym => s.bcState = .blockBody ∧ s.lenPending = none
  | .dSym => s.bcState = .blockBody
  | .cmd64 => False

theorem BlockInv.quiet_of_header {s : State} (h : BlockInv s) (he : Expects .blkHdr s) : Quiet s := by
  refine h.quiet ?_ ?_ <;> intro hs <;> rcases he with he | he | he <;> rw [he] at hs <;> cases hs

theorem BlockInv.quiet_of_llSym {s : State} (h : BlockInv s) (he : Expects .llSym s) : Quiet s :=
  h.quiet (by rw [he.1]; simp) (fun _ => he.2)

/-- The element of value `v` can end a block: the end-of-block symbol (R162), or a stored block's header (R153). -/
def EndsBlock (f : Format) (v : Nat) : Prop := (f = .llSym ∧ v = 256) ∨ (f = .blkHdr ∧ v / 2 = 0)

/-- Where an element that neither raises nor ends the block leaves `BC.state` (R150). -/
def StaysInBlock (s t : State) : Prop := t.bcState = s.bcState ∨ t.bcState = .blockBody ∨ t.bcState = .dynamicHuffman

/-- What the element of format `f` and value `v` leaves. -/
inductive Performed (f : Format) (v : Nat) (s : State) : State → Prop
  | raised {t : State} (k : ErrorKind) : Reads f s t → Performed f v s (raise k t.rpos t)
  | ended {t : State} : EndsBlock f v → Reads f s t → (Quiet s → Quiet t) → Performed f v s (endOfBlock t)
  | continued {t : State} : Reads f s t → StaysInBlock s t → (Expects f s → BlockInv s → BlockInv t) → Performed f v s t

/-! #### Symbols of a block's body -/

/-- The lengths of R72 are match lengths. -/
theorem lengthRow_range {v : Nat} (h1 : 257 ≤ v) (h2 : v ≤ 285) :
    3 ≤ (rowOf lenTab v).base ∧ (rowOf lenTab v).base + 2 ^ (rowOf lenTab v).extra ≤ 259 := by
  have h : ∀ j < 29, 3 ≤ (rowOf lenTab (257 + j)).base ∧
      (rowOf lenTab (257 + j)).base + 2 ^ (rowOf lenTab (257 + j)).extra ≤ 259 := by decide
  have hv := h (v - 257) (by omega)
  rwa [Nat.add_sub_cancel' h1] at hv

theorem lengthSymbol_performed {v : Nat} (s : State) (h1 : 257 ≤ v) (h2 : v ≤ 285) : Performed .llSym v s (lengthSymbol v s) := by
  obtain he | ⟨hc, ⟨-, he⟩ | ⟨e, hlt, -, he⟩⟩ := lengthSymbol_cases v s <;> rw [he]
  · exact .raised _ (.refl _ s)
  · exact .raised _ (.of_move (Forward.add hc))
  · obtain ⟨hbase, htop⟩ := lengthRow_range h1 h2
    refine .continued (.of_move (Forward.add hc)) (.inl rfl) fun hx hi => { hi with lenPending := ?_ }
    intro len hl
    obtain rfl : (rowOf lenTab v).base + e = len := Option.some.inj hl
    exact ⟨hx.1, by omega, by omega⟩

theorem reservedSymbol_performed (f : Format) (v : Nat) (s : State) : Performed f v s (reservedSymbol s) := .raised _ (.refl _ s)

theorem llElement_performed (v : Nat) (s : State) : Performed .llSym v s (llElement v s) := by
  unfold llElement
  split
  case isTrue =>
    exact .continued (.of_update fun h => ⟨Nat.le_refl _, h, fun _ => by simp⟩) (.inl rfl) fun _ hi => { hi with }
  case isFalse h255 =>
    split
    case isTrue hv => exact .ended (.inl ⟨rfl, hv⟩) (.refl _ s) id
    case isFalse hv =>
      have hne : v ≠ 256 := hv
      split
      case isTrue h285 => exact lengthSymbol_performed s (by omega) h285
      case isFalse => exact reservedSymbol_performed _ _ s

theorem dElement_performed (v : Nat) (s : State) : Performed .dSym v s (dElement v s) := by
  unfold dElement
  split
  case isTrue => exact reservedSymbol_performed _ _ s
  case isFalse =>
    obtain he | ⟨hc, he | ⟨bs, hl, he⟩⟩ := distanceSymbol_cases v s <;> rw [he]
    · exact .raised _ (.refl _ s)
    · exact .raised _ (.of_move (Forward.add hc))
    · refine .continued (.of_update (p := s.rpos + (rowOf distTab v).extra) fun _ => ⟨by omega, by omega, fun _ => by omega⟩)
        (.inl rfl) fun _ hi => { hi with lenPending := ?_ }
      intro len hl
      cases hl

/-! #### Code-length symbols -/

theorem buildBlockTrees_performed {v p : Nat} {lens : List Nat} {s : State} (hp : Forward s p 0)
    (hfit : Expects .clSym s → BlockInv s → lens.length ≤ s.dynNlen + s.dynNdist) :
    Performed .clSym v s (buildBlockTrees { s with rpos := p, dynLens := lens }) := by
  obtain ⟨t, he⟩ | he := buildBlockTrees_cases { s with rpos := p, dynLens := lens } <;> rw [he]
  · exact .raised _ (.of_move hp)
  · refine .continued (.of_move hp) (.inr (.inl rfl)) fun hx hi => ?_
    obtain ⟨-, hn, -, hd, -⟩ := hi.dynRunning hx
    have hlens := hfit hx hi
    refine ⟨?_, fun _ => ⟨rfl, rfl, rfl⟩, by simp, fun _ => ⟨rfl, ?_, rfl, ?_⟩⟩
    · intro len hl
      obtain ⟨hb, -⟩ := hi.lenPending len hl
      rw [show s.bcState = .dynamicHuffman from hx] at hb
      cases hb
    · simp only [goTo_tLl, treeOfLengths_n, List.length_take]; omega
    · simp only [goTo_tD, treeOfLengths_n, List.length_drop]; omega

theorem appendLengths_performed {v p : Nat} {xs : List Nat} {s : State} (hp : Forward s p 0)
    (hfit : Expects .clSym s → BlockInv s → s.dynLens.length + xs.length ≤ s.dynNlen + s.dynNdist) :
    Performed .clSym v s (appendLengths xs (moveCursor p s)) := by
  obtain ⟨hlt, he⟩ | ⟨-, he⟩ := appendLengths_cases xs (moveCursor p s) <;> rw [he]
  · refine .continued (.of_move hp) (.inl rfl) fun hx hi => { hi with dynIdle := fun hne => absurd hx hne, dynRunning := fun _ => ?_ }
    obtain ⟨h1, h2, h3, h4, -, h5⟩ := hi.dynRunning hx
    exact ⟨h1, h2, h3, h4, by simpa using hlt, h5⟩
  · exact buildBlockTrees_performed hp fun hx hi => by simpa using hfit hx hi

theorem repeatLengths_performed (v extra base val : Nat) (s : State) : Performed .clSym v s (repeatLengths extra base val s) := by
  unfold repeatLengths
  split
  case h_1 h =>
    obtain ⟨-, rfl⟩ := readBits_error_inv h
    exact .raised _ (.refl _ s)
  case h_2 h =>
    obtain ⟨hc, -, rfl⟩ := readBits_ok_inv h
    split
    case isTrue => exact .raised _ (.of_move (Forward.add hc))
    case isFalse hle => exact appendLengths_performed (Forward.add hc) fun _ _ => by simpa using hle

theorem clElement_performed (v : Nat) (s : State) : Performed .clSym v s (clElement v s) := by
  unfold clElement
  split
  case isTrue =>
    refine appendLengths_performed (p := s.rpos) (Forward.stay s) fun hx hi => ?_
    obtain ⟨-, -, -, -, hlt, -⟩ := hi.dynRunning hx
    exact hlt
  case isFalse =>
    split
    · unfold repeatPrevious
      split
      · exact .raised _ (.refl _ s)
      · exact repeatLengths_performed ..
    split
    · exact repeatLengths_performed ..
    split
    · exact repeatLengths_performed ..
    · exact .raised _ (.refl _ s)

/-! #### Block headers -/

theorem alignRead_eq (s : State) : ∃ p, alignRead s = moveCursor p s ∧ (s.rpos ≤ s.bits.length → s.rpos ≤ p) ∧ p ≤ s.bits.length :=
  ⟨_, rfl, fun h => by omega, Nat.min_le_right _ _⟩

/-- Copying raw bytes leaves the cursor inside the stream (R153). -/
theorem copyRaw_rpos_le {n : Nat} {s : State} (h : s.rpos ≤ s.bits.length) : (settled (copyRaw n s)).rpos ≤ s.bits.length := by
  induction n generalizing s with
  | zero => exact h
  | succ n ih =>
    unfold copyRaw
    split
    case h_1 hr =>
      obtain ⟨-, rfl⟩ := readBits_error_inv hr
      exact h
    case h_2 x s1 hr =>
      obtain ⟨hc, -, rfl⟩ := readBits_ok_inv hr
      exact ih (s := appendOut (BitVec.ofNat 8 x) (moveCursor (s.rpos + 8) s)) (by simp; omega)

/-- The cursor at `p` and bytes appended to `OUT`. -/
def advance (p : Nat) (xs : List Byte) (s : State) : State := { s with rpos := p, out := s.out ++ xs }

theorem advance_nil (p : Nat) (s : State) : advance p [] s = moveCursor p s := by simp [advance, moveCursor]

/-- A stored block moves the cursor forward and appends bytes to `OUT`, and then raises or ends (R153). -/
theorem storedBody_cases (s : State) : ∃ p xs, Forward s p xs.length ∧
    ((∃ k, storedBody s = raise k p (advance p xs s)) ∨ storedBody s = endOfBlock (advance p xs s)) := by
  obtain ⟨a, ha, hfwd, hend⟩ := alignRead_eq s
  unfold storedBody
  rw [ha]
  split
  case h_1 h =>
    obtain ⟨-, rfl⟩ := readBits_error_inv h
    exact ⟨a, [], fun h => ⟨hfwd h, hend, fun _ => Nat.zero_le _⟩, .inl ⟨_, by rw [advance_nil]; rfl⟩⟩
  case h_2 len s1 h1 =>
    obtain ⟨hc1, -, rfl⟩ := readBits_ok_inv h1
    simp only [moveCursor_bits, moveCursor_rpos] at hc1
    split
    case h_1 h =>
      obtain ⟨-, rfl⟩ := readBits_error_inv h
      exact ⟨a + 16, [], fun h => ⟨by have := hfwd h; omega, by omega, fun _ => Nat.zero_le _⟩, .inl ⟨_, by rw [advance_nil]; rfl⟩⟩
    case h_2 nlen s2 h2 =>
      obtain ⟨hc2, -, rfl⟩ := readBits_ok_inv h2
      simp only [moveCursor_bits, moveCursor_rpos] at hc2
      split
      case isTrue =>
        exact ⟨a + 32, [], fun h => ⟨by have := hfwd h; omega, by omega, fun _ => Nat.zero_le _⟩, .inl ⟨_, by rw [advance_nil]; rfl⟩⟩
      case isFalse =>
        have hin := copyRaw_rpos_le (n := len) (s := moveCursor (a + 32) s) (by simp; omega)
        change ∃ p xs, _ ∧ ((∃ k, settled ((copyRaw len (moveCursor (a + 32) s)).map endOfBlock) = _) ∨
          settled ((copyRaw len (moveCursor (a + 32) s)).map endOfBlock) = _)
        cases hcopy : copyRaw len (moveCursor (a + 32) s) with
        | error s3 =>
          obtain ⟨bs, s4, rfl, -, -, rfl⟩ := copyRaw_error_inv hcopy
          rw [hcopy] at hin
          have hin : a + 32 + 8 * bs.length ≤ s.bits.length := hin
          refine ⟨a + 32 + 8 * bs.length, bs, fun h => ?_, .inl ⟨_, rfl⟩⟩
          have ha := hfwd h
          exact ⟨by omega, hin, fun _ => by omega⟩
        | ok s3 =>
          obtain ⟨bs, hl, rfl⟩ := copyRaw_ok_inv hcopy
          rw [hcopy] at hin
          have hin : a + 32 + 8 * len ≤ s.bits.length := hin
          refine ⟨a + 32 + 8 * len, bs, fun h => ?_, .inr rfl⟩
          have ha := hfwd h
          exact ⟨by omega, hin, fun _ => by omega⟩

theorem storedBody_performed (v : Nat) (hv : v / 2 = 0) (s : State) : Performed .blkHdr v s (storedBody s) := by
  obtain ⟨p, xs, hp, ⟨k, he⟩ | he⟩ := storedBody_cases s <;> rw [he]
  · exact .raised (t := advance p xs s) k (.of_update hp)
  · exact .ended (.inr ⟨rfl, hv⟩) (.of_update hp) id

theorem storedBlock_performed (v : Nat) (hv : v / 2 = 0) (b : Bool) (s : State) : Performed .blkHdr v s (storedBlock b s) := by
  unfold storedBlock
  obtain ⟨p, xs, hp, ⟨k, he⟩ | he⟩ := storedBody_cases (takeHeader b 0 .stored s) <;> rw [he]
  · exact .raised (t := advance p xs _) k (Reads.of_update hp).of_takeHeader
  · exact .ended (.inr ⟨rfl, hv⟩) (Reads.of_update hp).of_takeHeader id

theorem fixedLl_n : fixedLl.n = 288 := by
  simp only [fixedLl, treeOfLengths_n, fixedLlLengths, List.length_append, List.length_replicate]

theorem fixedD_n : fixedD.n = 32 := by simp only [fixedD, treeOfLengths_n, fixedDLengths, List.length_replicate]

theorem BlockInv.fixedBody {s : State} (hq : Quiet s) : BlockInv (fixedBody s) where
  lenPending _ h := (hq.ne_some h).elim
  dynIdle _ := hq.2
  dynRunning h := by cases h
  blockTrees _ := ⟨rfl, fixedLl_n.le, rfl, fixedD_n.le⟩

theorem fixedBody_performed (v : Nat) (s : State) : Performed .blkHdr v s (fixedBody s) :=
  .continued (.of_move (Forward.stay s)) (.inr (.inl rfl)) fun hx hi => .fixedBody (hi.quiet_of_header hx)

theorem fixedBlock_performed (v : Nat) (b : Bool) (s : State) : Performed .blkHdr v s (fixedBlock b s) :=
  .continued (Reads.of_move (Forward.stay (takeHeader b 1 .fixedHuffman s))).of_takeHeader (.inr (.inl rfl))
    fun hx hi => .fixedBody (s := takeHeader b 1 .fixedHuffman s) (hi.quiet_of_header hx)

theorem readClLengths_error_inv {order cl : List Nat} {s s' : State} (h : readClLengths order cl s = .error s') :
    ∃ n, n ≤ s.bits.length - s.rpos ∧ s' = raise .truncatedStream (s.rpos + n) (moveCursor (s.rpos + n) s) := by
  induction order generalizing cl s with
  | nil => cases h
  | cons i order ih =>
    unfold readClLengths at h
    split at h
    · rename_i hr
      cases h
      obtain ⟨-, rfl⟩ := readBits_error_inv hr
      exact ⟨0, Nat.zero_le _, rfl⟩
    · rename_i hr
      obtain ⟨hc, -, rfl⟩ := readBits_ok_inv hr
      obtain ⟨n, hn, rfl⟩ := ih h
      simp only [moveCursor_bits, moveCursor_rpos] at hn
      exact ⟨3 + n, by omega, by simp [moveCursor, raise, Nat.add_assoc]⟩

/-- A dynamic block's header raises, or leaves legal counts and the code-length tree (R155 to R157). -/
theorem dynamicBody_cases (s : State) : ∃ p, Forward s p 0 ∧
    ((∃ k, dynamicBody s = raise k p (moveCursor p s)) ∨
      ∃ cl nlen ndist, cl.length = 19 ∧ 257 ≤ nlen ∧ nlen ≤ 286 ∧ 1 ≤ ndist ∧ ndist ≤ 30 ∧ dynamicBody s =
        { moveCursor p s with tCl := treeOfLengths cl maxBitsCl, dynNlen := nlen, dynNdist := ndist, dynLens := [] }) := by
  unfold dynamicBody
  split
  case h_1 h =>
    obtain ⟨-, rfl⟩ := readBits_error_inv h
    exact ⟨s.rpos, Forward.stay s, .inl ⟨_, rfl⟩⟩
  case h_2 hlit s1 h1 =>
    obtain ⟨hc1, -, rfl⟩ := readBits_ok_inv h1
    split
    case h_1 h =>
      obtain ⟨-, rfl⟩ := readBits_error_inv h
      exact ⟨s.rpos + 5, Forward.add hc1, .inl ⟨_, rfl⟩⟩
    case h_2 hdist s2 h2 =>
      obtain ⟨hc2, -, rfl⟩ := readBits_ok_inv h2
      simp only [moveCursor_bits, moveCursor_rpos] at hc2
      split
      case h_1 h =>
        obtain ⟨-, rfl⟩ := readBits_error_inv h
        exact ⟨s.rpos + 10, Forward.add (by omega), .inl ⟨_, rfl⟩⟩
      case h_2 hclen s3 h3 =>
        obtain ⟨hc3, -, rfl⟩ := readBits_ok_inv h3
        simp only [moveCursor_bits, moveCursor_rpos] at hc3
        split
        case isTrue => exact ⟨s.rpos + 14, Forward.add (by omega), .inl ⟨_, rfl⟩⟩
        case isFalse hcount =>
          split
          case h_1 h =>
            obtain ⟨n, hn, rfl⟩ := readClLengths_error_inv h
            simp only [moveCursor_bits, moveCursor_rpos] at hn
            exact ⟨s.rpos + 14 + n, by rw [Nat.add_assoc]; exact Forward.add (by omega), .inl ⟨_, rfl⟩⟩
          case h_2 cl s4 h =>
            obtain ⟨hlen, hn, rfl⟩ := readClLengths_ok_inv h
            simp only [moveCursor_bits, moveCursor_rpos] at hn
            refine ⟨s.rpos + 14 + 3 * (clOrder.take (hclen + 4)).length, by rw [Nat.add_assoc]; exact Forward.add (by omega), ?_⟩
            unfold buildClTree
            split
            case h_1 h =>
              obtain ⟨-, rfl⟩ := treeFromLengths_error_inv h
              exact .inl ⟨_, rfl⟩
            case h_2 h =>
              obtain ⟨-, rfl⟩ := treeFromLengths_ok_inv h
              exact .inr ⟨cl, hlit + 257, hdist + 1, by simpa using hlen, by omega, by omega, by omega, by omega, rfl⟩

theorem dynamicBlock_performed (v : Nat) (b : Bool) (s : State) : Performed .blkHdr v s (dynamicBlock b s) := by
  unfold dynamicBlock
  obtain ⟨p, hp, ⟨k, he⟩ | ⟨cl, nlen, ndist, hcl, h1, h2, h3, h4, he⟩⟩ :=
    dynamicBody_cases (takeHeader b 2 .dynamicHuffman s) <;> rw [he]
  · exact .raised (t := moveCursor p _) k (Reads.of_move hp).of_takeHeader
  · refine .continued (Reads.of_move hp).of_takeHeader (.inr (.inr rfl)) fun hx hi => ?_
    exact ⟨fun _ hl => ((hi.quiet_of_header hx).ne_some hl).elim, fun hne => absurd rfl hne,
      fun _ => ⟨h1, h2, h3, h4, by simp only [List.length_nil]; omega, rfl, hcl⟩, fun hb => by cases hb⟩

theorem headerElement_performed (v : Nat) (s : State) : Performed .blkHdr v s (headerElement v s) := by
  unfold headerElement
  split
  case h_1 h => exact storedBlock_performed v h _ s
  case h_2 => exact fixedBlock_performed ..
  case h_3 => exact dynamicBlock_performed ..
  case h_4 => exact .raised _ { Reads.refl .blkHdr s with header := fun hf => absurd rfl hf }

/-- What every stream element leaves (R150): it raises, ends the block, or goes on. -/
theorem performElement_performed {f : Format} (hf : f ≠ .cmd64) (v : Nat) (s : State) : Performed f v s (performElement f v s) := by
  cases f with
  | cmd64 => exact absurd rfl hf
  | blkHdr => exact headerElement_performed v s
  | llSym => exact llElement_performed v s
  | dSym => exact dElement_performed v s
  | clSym => exact clElement_performed v s

end Sys2Proof.Machine

namespace Sys2Proof.Machine

open Sys2Proof Sys2Proof.Claims

/-! ### The element that an instruction performs

`exec` of a stream element is `performElement` at the element's number, and so is what the decoder makes of a number. -/

theorem llElement_literal {v : Nat} (h : v < 256) (s : State) : llElement v s = appendOut (BitVec.ofNat 8 v) s :=
  if_pos (Nat.le_of_lt_succ h)

theorem clElement_length {v : Nat} (h : v < 16) (s : State) : clElement v s = appendLengths [v] s := if_pos (Nat.le_of_lt_succ h)

/-- The meaning of a stream element is the operation of its row at its number. -/
theorem exec_element {i : Instr} (hi : i.format ≠ .cmd64) (s : State) :
    exec i s = .next (performElement i.format (encode i).word.toNat s) := by
  cases i with
  | reset | rdreg _ | wrreg _ _ | ldbuf _ _ | rdbuf _ | bsClear | bsLoad _ | bsPush _ | bsPushbits _ _ _ | bsRead | bsReadbits _ _
  | bsTobytes | hufCount | hufBuild | hufEncode | hufDecode _ | lzScan | inflate | deflate _ => exact absurd rfl hi
  | blockStored b | blockFixed b | blockDynamic b | blockReserved b => cases b <;> rfl
  | llLiteral b =>
    have hv : (encode (.llLiteral b)).word.toNat = b.toNat := by
      simp only [encode, BitVec.toNat_setWidth]; have := b.isLt; omega
    rw [hv]
    change Host.Outcome.next (appendOut b s) = .next (llElement b.toNat s)
    rw [llElement_literal b.isLt, BitVec.ofNat_toNat, BitVec.setWidth_eq]
  | clLength len =>
    have hv : (encode (.clLength len)).word.toNat = len.toNat := by
      simp only [encode, BitVec.toNat_setWidth]; have := len.isLt; omega
    rw [hv]
    change Host.Outcome.next (appendLengths [len.toNat] s) = .next (clElement len.toNat s)
    rw [clElement_length len.isLt]
  | _ => rfl

/-- The two instructions that can end a block. -/
theorem endsBlock_encode {i : Instr} (h : EndsBlock i.format (encode i).word.toNat) : i = .llEob ∨ ∃ b, i = .blockStored b := by
  cases i with
  | llEob => exact .inl rfl
  | blockStored b => exact .inr ⟨b, rfl⟩
  | blockFixed b | blockDynamic b | blockReserved b =>
    obtain ⟨hf, -⟩ | ⟨-, hv⟩ := h
    · cases hf
    · cases b <;> cases hv
  | llLiteral b =>
    obtain ⟨-, hv⟩ | ⟨hf, -⟩ := h
    · simp only [encode, BitVec.toNat_setWidth] at hv; have := b.isLt; omega
    · cases hf
  | reset | rdreg _ | wrreg _ _ | ldbuf _ _ | rdbuf _ | bsClear | bsLoad _ | bsPush _ | bsPushbits _ _ _ | bsRead | bsReadbits _ _
  | bsTobytes | hufCount | hufBuild | hufEncode | hufDecode _ | lzScan | inflate | deflate _ | clLength _ =>
    obtain ⟨hf, -⟩ | ⟨hf, -⟩ := h <;> cases hf
  | _ => unfold EndsBlock at h; exact absurd h (by decide)

/-- How many values the elements of a format have (R66, R69, R74, R78). -/
def alphabet : Format → Nat
  | .cmd64 => 0
  | .blkHdr => 8
  | .llSym => 288
  | .dSym => 32
  | .clSym => 19

theorem exec_of_decode {f : Format} {w : CmdWord} {i : Instr} (hf : f ≠ .cmd64) (h : decode f w = .ok i) (s : State) :
    exec i s = .next (performElement f w.toNat s) := by
  cases f with
  | cmd64 => exact absurd rfl hf
  | blkHdr =>
    have hb : w.getLsbD 0 = w.toNat.testBit 0 := rfl
    simp only [decode, hb] at h
    simp only [performElement, headerElement]
    unfold decodeHeader at h
    split at h <;> cases h <;> simp only [*] <;> rfl
  | llSym =>
    simp only [decode] at h
    simp only [performElement]
    generalize w.toNat = v at h
    unfold decodeLiteralLength at h
    split at h
    case isTrue hv => cases h; rw [llElement_literal hv]; rfl
    case isFalse =>
      split at h
      case isTrue hv => cases h; subst hv; rfl
      case isFalse => unfold decodeLengthSymbol at h; split at h <;> cases h <;> rfl
  | dSym =>
    simp only [decode] at h
    simp only [performElement]
    generalize w.toNat = v at h
    unfold decodeDistance at h
    split at h <;> cases h <;> rfl
  | clSym =>
    simp only [decode] at h
    simp only [performElement]
    generalize w.toNat = v at h
    unfold decodeCodeLength at h
    split at h
    case h_4 =>
      split at h
      case isTrue hv =>
        cases h
        rw [clElement_length hv]
        change Host.Outcome.next (appendLengths [v % 16] s) = _
        rw [Nat.mod_eq_of_lt hv]
      case isFalse => cases h
    all_goals cases h; rfl

/-- A number that the decoder rejects is outside the format's alphabet. -/
theorem alphabet_le_of_decode_error {f : Format} {w : CmdWord} {e : DecodeError} (h : decode f w = .error e) :
    alphabet f ≤ w.toNat := by
  cases f with
  | cmd64 => exact Nat.zero_le _
  | blkHdr =>
    simp only [decode, alphabet] at h ⊢
    unfold decodeHeader at h
    split at h <;> cases h
    simp only [imp_false] at *
    omega
  | llSym =>
    simp only [decode, alphabet] at h ⊢
    unfold decodeLiteralLength at h
    split at h
    case isTrue => cases h
    case isFalse =>
      split at h
      case isTrue => cases h
      case isFalse =>
        unfold decodeLengthSymbol at h
        split at h <;> cases h
        simp only [imp_false] at *
        omega
  | dSym =>
    simp only [decode, alphabet] at h ⊢
    unfold decodeDistance at h
    split at h <;> cases h
    simp only [imp_false] at *
    omega
  | clSym =>
    simp only [decode, alphabet] at h ⊢
    unfold decodeCodeLength at h
    split at h
    case h_4 =>
      split at h <;> cases h
      simp only [imp_false] at *
      omega
    all_goals cases h

/-- A symbol outside its alphabet is `SymbolOutOfRange` at the cursor (R160, R163). -/
theorem performElement_outside {f : Format} {v : Nat} (hf : f ≠ .cmd64) (hh : f ≠ .blkHdr) (hv : alphabet f ≤ v) (s : State) :
    performElement f v s = raise .symbolOutOfRange s.rpos s := by
  cases f with
  | cmd64 => exact absurd rfl hf
  | blkHdr => exact absurd rfl hh
  | llSym =>
    have hv : 288 ≤ v := hv
    simp only [performElement, llElement, eobSymbol, if_neg (show ¬ v ≤ 255 by omega), if_neg (show ¬ v = 256 by omega),
      if_neg (show ¬ v ≤ 285 by omega), reservedSymbol]
  | dSym =>
    have hv : 32 ≤ v := hv
    simp only [performElement, dElement, if_pos (show 30 ≤ v by omega), reservedSymbol]
  | clSym =>
    have hv : 19 ≤ v := hv
    simp only [performElement, clElement, if_neg (show ¬ v ≤ 15 by omega), if_neg (show ¬ v = 16 by omega),
      if_neg (show ¬ v = 17 by omega), if_neg (show ¬ v = 18 by omega)]

/-- What a step makes of a number it has read is an element's operation, at that number if a word holds it. -/
theorem runDecoded_element {f : Format} (hf : f ≠ .cmd64) (v : Nat) (s : State) :
    ∃ v', runDecoded (decode f (BitVec.ofNat 64 v)) (performElement f v s) s = .next (performElement f v' s) ∧
      (v < 2 ^ 64 → v' = v) := by
  cases hd : decode f (BitVec.ofNat 64 v) with
  | ok i => exact ⟨_, exec_of_decode hf hd s, fun hv => by rw [BitVec.toNat_ofNat, Nat.mod_eq_of_lt hv]⟩
  | error e => exact ⟨v, rfl, fun _ => rfl⟩

/-! ### Reading an element -/

/-- The state after `n` bits of an element have been read; a header writes BFINAL at once (R152). -/
def readTo (n : Nat) (b : Bool) (s : State) : State := { s with rpos := s.rpos + n, bfinal := b }

/-- The bound of what an element's value can be when it has been read. -/
def symbolLimit (f : Format) (s : State) : Nat :=
  match f with
  | .cmd64 => 0
  | .blkHdr => 8
  | .llSym => s.tLl.n
  | .dSym => s.tD.n
  | .clSym => s.tCl.n

/-- Reading an element takes a bit at least and gives a value of its tree's alphabet (R124, R152). -/
theorem fetchElement_ok_inv {f : Format} {s s' : State} {v : Nat} (hf : f ≠ .cmd64) (h : fetchElement f s = .ok (v, s')) :
    v < symbolLimit f s ∧ ∃ n b, 0 < n ∧ n ≤ s.bits.length - s.rpos ∧ s' = readTo n b s := by
  have symbol {t : Tree} (h : decodeSym t s = .ok (v, s')) :
      v < t.n ∧ ∃ n b, 0 < n ∧ n ≤ s.bits.length - s.rpos ∧ s' = readTo n b s := by
    obtain ⟨hv, n, hn, hle, rfl⟩ := decodeSym_ok_inv h
    exact ⟨hv, n, s.bfinal, hn, hle, rfl⟩
  cases f with
  | cmd64 => exact absurd rfl hf
  | llSym => exact symbol h
  | dSym => exact symbol h
  | clSym => exact symbol h
  | blkHdr =>
    simp only [fetchElement, fetchHeader] at h
    split at h
    case h_1 => cases h
    case h_2 x s1 h1 =>
      have hx := readBits_value_lt h1
      obtain ⟨-, -, rfl⟩ := readBits_ok_inv h1
      split at h
      case h_1 => cases h
      case h_2 y s2 h2 =>
        have hy := readBits_value_lt h2
        obtain ⟨hc, -, rfl⟩ := readBits_ok_inv h2
        cases h
        simp only [moveCursor_bits, moveCursor_rpos] at hc
        exact ⟨by simp only [symbolLimit]; omega, 3, x == 1, by omega, by omega, rfl⟩

/-- Reading an element that raises has moved the cursor forward inside the stream (R124, R152). -/
theorem fetchElement_error_inv {f : Format} {s s' : State} (h : fetchElement f s = .error s') :
    ∃ k n b, n ≤ s.bits.length - s.rpos ∧ s' = raise k (s.rpos + n) (readTo n b s) := by
  have symbol {t : Tree} (h : decodeSym t s = .error s') :
      ∃ k n b, n ≤ s.bits.length - s.rpos ∧ s' = raise k (s.rpos + n) (readTo n b s) := by
    obtain ⟨k, n, hn, rfl⟩ := decodeSym_error_inv h
    exact ⟨k, n, s.bfinal, hn, rfl⟩
  cases f with
  | cmd64 => cases h
  | llSym => exact symbol h
  | dSym => exact symbol h
  | clSym => exact symbol h
  | blkHdr =>
    simp only [fetchElement, fetchHeader] at h
    split at h
    case h_1 h1 =>
      cases h
      obtain ⟨-, rfl⟩ := readBits_error_inv h1
      exact ⟨_, 0, s.bfinal, Nat.zero_le _, rfl⟩
    case h_2 x s1 h1 =>
      obtain ⟨hc, -, rfl⟩ := readBits_ok_inv h1
      split at h
      case h_1 h2 =>
        cases h
        obtain ⟨-, rfl⟩ := readBits_error_inv h2
        exact ⟨_, 1, x == 1, hc, rfl⟩
      case h_2 => cases h

/-! ### What a step inside `INFLATE` does -/

/-- `BC.state` is one of the two that a stepwise run passes inside one step (log entry 6). -/
def InHeader (s : State) : Prop := s.bcState = .stored ∨ s.bcState = .fixedHuffman

/-- What a step inside `INFLATE` leaves: it raises while it reads an element, or it performs the element, of whose bits it has read one
at least. -/
inductive StepLeaves (s : State) : State → Prop
  | stopped (k : ErrorKind) (n : Nat) (b : Bool) : n ≤ s.bits.length - s.rpos → StepLeaves s (raise k (s.rpos + n) (readTo n b s))
  | performed {f : Format} {v n : Nat} {b : Bool} {t : State} : n ≤ s.bits.length - s.rpos → (InHeader s ∨ 0 < n) → Expects f s →
    Performed f v (readTo n b s) t → StepLeaves s t

theorem running_iff {s : State} : running s = true ↔ s.bcState ≠ .idle ∧ s.bcState ≠ .done ∧ s.bcState ≠ .failed := by
  unfold running
  cases s.bcState <;> simp

theorem nextFormat_inv {s : State} {f : Format} (h : nextFormat s = some f) :
    f ≠ .cmd64 ∧ Expects f s ∧ step s = stepElement f s := by
  unfold nextFormat at h
  split at h
  · cases h; exact ⟨by simp, .inl ‹_›, by simp [step, *]⟩
  · cases h; exact ⟨by simp, ‹_›, by simp [step, *]⟩
  · rename_i hb
    cases hl : s.lenPending with
    | none => rw [hl] at h; cases h; exact ⟨by simp, ⟨hb, hl⟩, by simp [step, hb, hl]⟩
    | some len => rw [hl] at h; cases h; exact ⟨by simp, hb, by simp [step, hb, hl]⟩
  all_goals cases h

/-- Inside `INFLATE` either an element is read next, or the rest of a header is performed (R150). -/
theorem running_cases {s : State} (h : running s = true) :
    (∃ f, nextFormat s = some f) ∨ (s.bcState = .stored ∧ step s = .next (storedBody s)) ∨
      (s.bcState = .fixedHuffman ∧ step s = .next (fixedBody s)) := by
  cases hb : s.bcState <;> simp [running, nextFormat, step, hb] at h ⊢

theorem step_leaves {s : State} (h : running s = true) : ∃ t, step s = .next t ∧ StepLeaves s t := by
  obtain ⟨f, hf⟩ | ⟨hb, he⟩ | ⟨hb, he⟩ := running_cases h
  · obtain ⟨hne, hx, he⟩ := nextFormat_inv hf
    rw [he]
    unfold stepElement
    split
    case h_1 s' hfetch =>
      obtain ⟨k, n, b, hn, rfl⟩ := fetchElement_error_inv hfetch
      exact ⟨_, rfl, .stopped k n b hn⟩
    case h_2 v s' hfetch =>
      obtain ⟨-, n, b, hpos, hn, rfl⟩ := fetchElement_ok_inv hne hfetch
      obtain ⟨v', he, -⟩ := runDecoded_element hne v (readTo n b s)
      exact ⟨_, he, .performed hn (.inr hpos) hx (performElement_performed hne v' _)⟩
  · have hx : Expects .blkHdr s := .inr (.inl hb)
    exact ⟨_, he, .performed (n := 0) (b := s.bfinal) (Nat.zero_le _) (.inl (.inl hb)) hx (storedBody_performed 0 rfl s)⟩
  · have hx : Expects .blkHdr s := .inr (.inr hb)
    exact ⟨_, he, .performed (n := 0) (b := s.bfinal) (Nat.zero_le _) (.inl (.inr hb)) hx (fixedBody_performed 0 s)⟩

end Sys2Proof.Machine

namespace Sys2Proof.Machine

open Sys2Proof Sys2Proof.Claims

/-! ### Steps between commands, and steps inside `INFLATE` (R150, R167, R226) -/

theorem raise_eq_errorAt (k : ErrorKind) (off : Nat) (s : State) : raise k off s = errorAt k off s := by
  simp [raise, errorAt, Nat.shiftRight_eq_div_pow]

theorem step_of_not_running {s : State} (h : running s = false) : step s = stepCommand s := by
  unfold running at h
  unfold step
  split at h <;> simp_all

/-- Settles O49: between commands a step is `stepCommand`, case by case. -/
theorem stepRunsTheNextCommand : Obligations.StepRunsTheNextCommand := by
  unfold Obligations.StepRunsTheNextCommand
  intro s h
  rw [step_of_not_running h]
  refine ⟨fun hc => by simp [stepCommand, hc], fun c rest hc => ⟨fun i hi => ?_, fun e he => ?_⟩⟩
  · simp only [stepCommand, hc, hi, runDecoded]; rfl
  · simp only [stepCommand, hc, he, runDecoded]; rfl

/-- The frame of a step inside `INFLATE`. -/
theorem Frame.eq_update {s t : State} (h : Frame s t) : t =
    { s with
      rpos := t.rpos, bcState := t.bcState, bfinal := t.bfinal, btype := t.btype, outValid := t.outValid
      errKind := t.errKind, errBitOff := t.errBitOff, errByteOff := t.errByteOff, out := t.out
      tCl := t.tCl, tLl := t.tLl, tD := t.tD, lenPending := t.lenPending, dynNlen := t.dynNlen, dynNdist := t.dynNdist
      dynLens := t.dynLens, result := t.result } := by
  obtain ⟨h1, h2, h3, h4, h5, h6, h7, h8, h9, h10, h11⟩ := h
  rw [← h1, ← h2, ← h3, ← h4, ← h5, ← h6, ← h7, ← h8, ← h9, ← h10, ← h11]

theorem Frame.of_readTo {s t : State} {n : Nat} {b : Bool} (h : Frame (readTo n b s) t) : Frame s t := { h with }

/-- An element leaves the frame, whatever it does. -/
theorem Performed.frame {f : Format} {v : Nat} {s t : State} (h : Performed f v s t) : Frame s t := by
  cases h with
  | raised k hr => exact hr.toFrame.raise _ _
  | ended _ hr _ => exact hr.toFrame.endOfBlock
  | continued hr _ _ => exact hr.toFrame

theorem StepLeaves.frame {s t : State} (h : StepLeaves s t) : Frame s t := by
  cases h with
  | stopped k n b _ => exact ⟨rfl, rfl, rfl, rfl, rfl, rfl, rfl, rfl, rfl, rfl, rfl⟩
  | performed _ _ _ hp => exact hp.frame.of_readTo

@[simp] theorem endOfBlock_rpos (s : State) : (endOfBlock s).rpos = s.rpos := by
  obtain ⟨-, h⟩ | ⟨-, h⟩ := endOfBlock_cases s <;> rw [h] <;> rfl

@[simp] theorem endOfBlock_out (s : State) : (endOfBlock s).out = s.out := by
  obtain ⟨-, h⟩ | ⟨-, h⟩ := endOfBlock_cases s <;> rw [h] <;> rfl

@[simp] theorem endOfBlock_outValid (s : State) : (endOfBlock s).outValid = s.out.length := by
  obtain ⟨-, h⟩ | ⟨-, h⟩ := endOfBlock_cases s <;> rw [h] <;> rfl

theorem endOfBlock_bcState (s : State) : (endOfBlock s).bcState = .done ∨ (endOfBlock s).bcState = .readHeader := by
  obtain ⟨-, h⟩ | ⟨-, h⟩ := endOfBlock_cases s <;> rw [h]
  · exact .inl rfl
  · exact .inr rfl

/-- What an element writes to `OUT`, and where it leaves the cursor. -/
theorem Performed.out {f : Format} {v : Nat} {s t : State} (h : Performed f v s t) :
    ∃ xs, t.out = s.out ++ xs ∧ Forward s t.rpos xs.length := by
  cases h with
  | raised k hr => exact hr.out
  | ended _ hr _ => simpa using hr.out
  | continued hr _ _ => exact hr.out

/-- An element changes `OUT_VALID` at the end of a block only (R166). -/
theorem Performed.outValid {f : Format} {v : Nat} {s t : State} (h : Performed f v s t) :
    t.outValid = s.outValid ∨ (t.outValid = t.out.length ∧ (t.bcState = .done ∨ t.bcState = .readHeader)) := by
  cases h with
  | raised k hr => exact .inl hr.outValid
  | ended _ _ _ => exact .inr ⟨by simp, endOfBlock_bcState _⟩
  | continued hr _ _ => exact .inl hr.outValid

/-- Settles O44: a step reads an element and performs it, and each of the two moves forward. -/
theorem inflateOnlyMovesForward : Obligations.InflateOnlyMovesForward := by
  unfold Obligations.InflateOnlyMovesForward
  intro s t hrun hpos hstep
  obtain ⟨t', ht, hl⟩ := step_leaves hrun
  rw [hstep] at ht
  cases ht
  have hframe := hl.frame.eq_update
  cases hl with
  | stopped k n b hn =>
    have h1 : s.rpos ≤ s.rpos + n := Nat.le_add_right _ _
    have h2 : s.rpos + n ≤ s.bits.length := by omega
    exact ⟨h1, h2, ⟨[], (List.append_nil _).symm⟩, .inl rfl, hframe⟩
  | @performed f v n b t hn _ _ hp =>
    obtain ⟨xs, hout, hfwd⟩ := hp.out
    obtain ⟨h1, h2, -⟩ := hfwd (show s.rpos + n ≤ s.bits.length by omega)
    exact ⟨(Nat.le_add_right _ _).trans h1, h2, ⟨xs, hout⟩, hp.outValid, hframe⟩

/-! ### The invariant -/

/-- The clauses of `StateInv` that do not speak of `BC.state`. -/
structure BaseInv (s : State) : Prop where
  memory : Memory.wf s = true
  window : 1 ≤ s.window.toNat ∧ s.window.toNat ≤ 32768
  hufN : 1 ≤ s.hufN.toNat ∧ s.hufN.toNat ≤ 288
  errOffset : s.errByteOff = s.errBitOff / 8
  outValid : s.outValid ≤ s.out.length
  userTree : s.tUser.built = true → s.tUser.n = s.hufN.toNat ∧ s.tUser.tab.length = s.tUser.n

theorem BaseInv.of_stateInv {s : State} (h : StateInv s) : BaseInv s := { h with }

theorem stateInv_of {s : State} (hb : BaseInv s) (he : s.errKind.isSome = true ↔ s.bcState = .failed) (hi : BlockInv s) : StateInv s :=
  { hb, hi with errKind := he }

theorem BaseInv.reads {f : Format} {s t : State} (h : BaseInv s) (hr : Reads f s t) : BaseInv t := by
  obtain ⟨hfreq, hpos, htok⟩ := (memory_wf_iff s).mp h.memory
  obtain ⟨xs, hout, hfwd⟩ := hr.out
  refine ⟨(memory_wf_iff t).mpr ⟨?_, ?_, ?_⟩, ?_, ?_, ?_, ?_, ?_⟩
  · rw [hr.freq, hr.hufN]; exact hfreq
  · rw [hr.bits]; exact (hfwd hpos).2.1
  · rw [hr.tok]; exact htok
  · rw [hr.window]; exact h.window
  · rw [hr.hufN]; exact h.hufN
  · rw [hr.errByteOff, hr.errBitOff]; exact h.errOffset
  · rw [hr.outValid, hout, List.length_append]; exact h.outValid.trans (Nat.le_add_right _ _)
  · rw [hr.tUser, hr.hufN]; exact h.userTree

theorem BaseInv.raise {s : State} (h : BaseInv s) (k : ErrorKind) (off : Nat) : BaseInv (raise k off s) :=
  { h with errOffset := Nat.shiftRight_eq_div_pow off 3 }

theorem BaseInv.endOfBlock {s : State} (h : BaseInv s) : BaseInv (endOfBlock s) := by
  have hend : BaseInv { s with outValid := s.out.length } := { h with outValid := Nat.le_refl _ }
  obtain ⟨-, he⟩ | ⟨-, he⟩ := endOfBlock_cases s <;> rw [he] <;> exact { hend with }

theorem BaseInv.readTo {s : State} {n : Nat} (h : BaseInv s) (b : Bool) (hn : n ≤ s.bits.length - s.rpos) :
    BaseInv (readTo n b s) := by
  obtain ⟨hfreq, hpos, htok⟩ := (memory_wf_iff s).mp h.memory
  exact { h with memory := (memory_wf_iff _).mpr ⟨hfreq, show s.rpos + n ≤ s.bits.length by omega, htok⟩ }

/-- Error entry keeps the invariant: `Failed` ends the transient state (R24, R196). -/
theorem BaseInv.stateInv_raise {s : State} (h : BaseInv s) (k : ErrorKind) (off : Nat) : StateInv (Machine.raise k off s) :=
  stateInv_of (h.raise k off) (by simp) (.raise k off s)

/-- An element keeps the block's part of the invariant (R155, R158, R163). -/
theorem Performed.blockInv {f : Format} {v : Nat} {s t : State} (h : Performed f v s t) (hx : Expects f s) (hi : BlockInv s) :
    BlockInv t := by
  cases h with
  | raised k _ => exact .raise _ _ _
  | continued _ _ hc => exact hc hx hi
  | ended hv _ hq =>
    refine .endOfBlock (hq ?_)
    obtain ⟨rfl, -⟩ | ⟨rfl, -⟩ := hv
    · exact hi.quiet_of_llSym hx
    · exact hi.quiet_of_header hx

theorem StepLeaves.blockInv {s t : State} (h : StepLeaves s t) (hi : BlockInv s) : BlockInv t := by
  cases h with
  | stopped k n b _ => exact .raise _ _ _
  | @performed f v n b t _ _ hx hp =>
    have hx' : Expects f (readTo n b s) := by cases f <;> exact hx
    exact hp.blockInv hx' { hi with }

theorem Performed.stateInv {f : Format} {v : Nat} {s t : State} (h : Performed f v s t) (hb : BaseInv s) (hi : BlockInv t)
    (he : s.errKind = none) (hs : s.bcState ≠ .failed) : StateInv t := by
  cases h with
  | raised k hr => exact (hb.reads hr).stateInv_raise _ _
  | @ended u _ hr _ =>
    refine stateInv_of (hb.reads hr).endOfBlock ?_ hi
    have hk : (Machine.endOfBlock u).errKind = none := by
      obtain ⟨-, h⟩ | ⟨-, h⟩ := endOfBlock_cases u <;> rw [h] <;> exact hr.errKind.trans he
    have hne : (Machine.endOfBlock u).bcState ≠ .failed := by
      obtain h | h := endOfBlock_bcState u <;> rw [h] <;> simp
    simp [hk, hne]
  | continued hr hst _ =>
    refine stateInv_of (hb.reads hr) ?_ hi
    have hne : t.bcState ≠ .failed := by
      obtain h | h | h := hst <;> rw [h]
      · exact hs
      · simp
      · simp
    simp [hr.errKind.trans he, hne]

/-- A step inside `INFLATE` keeps the invariant. -/
theorem StepLeaves.stateInv {s t : State} (h : StepLeaves s t) (hrun : running s = true) (hi : StateInv s) : StateInv t := by
  have hblock := h.blockInv (.of_stateInv hi)
  have hfail : s.bcState ≠ .failed := (running_iff.mp hrun).2.2
  have hnone : s.errKind = none := by
    cases hk : s.errKind with
    | none => rfl
    | some k => exact absurd (hi.errKind.mp (by simp [hk])) hfail
  cases h with
  | stopped k n b hn => exact ((BaseInv.of_stateInv hi).readTo b hn).stateInv_raise _ _
  | performed hn _ _ hp => exact hp.stateInv ((BaseInv.of_stateInv hi).readTo _ hn) hblock hnone hfail

/-- Settles O55: the reset values are legal, and nothing is built, pending or recorded (R29). -/
theorem invariantHoldsAtReset : Obligations.InvariantHoldsAtReset := by
  unfold Obligations.InvariantHoldsAtReset
  exact stateInv_of
    { memory := memory_wf_reset, window := by decide, hufN := by decide, errOffset := rfl, outValid := Nat.le_refl 0
      userTree := fun h => by cases h }
    (by decide) (.of_quiet ⟨rfl, rfl, rfl, rfl⟩ (by decide) (by decide))

end Sys2Proof.Machine

namespace Sys2Proof.Machine

open Sys2Proof Sys2Proof.Claims

/-! ### What a command does

One inversion for all commands: a command is refused, raises, returns a value, starts an `INFLATE` or resets (`Commanded`), and it
has then written only the spaces that the rules name for it (`Works`). -/

/-- What the command `i` does to a state before it returns or raises: who writes each space (R17, R22, R40, R52), the flags (R15), and
that the invariant is kept. A field whose premise holds is kept by definition, where nothing else is said. -/
structure Works (i : Instr) (s t : State) : Prop where
  cfg : t.cfg = s.cfg := by rfl
  cmds : t.cmds = s.cmds := by rfl
  out : t.out = s.out ∧ t.outValid = s.outValid := by exact ⟨rfl, rfl⟩
  inBuf : (∀ b n, i ≠ .ldbuf b n) → t.inBuf = s.inBuf := by intros; rfl
  sym : (∀ b n, i ≠ .ldbuf b n) → (∀ n, i ≠ .hufDecode n) → t.sym = s.sym := by intros; rfl
  tok : i ≠ .lzScan → (∀ m, i ≠ .deflate m) → t.tok = s.tok := by intros; rfl
  freq : i ≠ .hufCount → (∀ b n, i ≠ .ldbuf b n) → (∀ r v, i ≠ .wrreg r v) → t.freq = s.freq := by intros; rfl
  bits : i ≠ .bsClear → (∀ n, i ≠ .bsLoad n) → (∀ b, i ≠ .bsPush b) → (∀ v n o, i ≠ .bsPushbits v n o) → i ≠ .hufEncode →
    (∀ m, i ≠ .deflate m) → t.bits = s.bits := by intros; rfl
  tUser : i ≠ .hufBuild → (∀ r v, i ≠ .wrreg r v) → t.tUser = s.tUser := by intros; rfl
  registers : (∀ r v, i ≠ .wrreg r v) → t.window = s.window ∧ t.hufN = s.hufN := by intros; exact ⟨rfl, rfl⟩
  header : (∀ m, i ≠ .deflate m) → t.bfinal = s.bfinal ∧ t.btype = s.btype := by intros; exact ⟨rfl, rfl⟩
  bcState : (∀ m, i ≠ .deflate m) → t.bcState = s.bcState := by intros; rfl
  idle : ∀ m, i = .deflate m → s.bcState ≠ .failed ∧ t.bcState = .idle := by intro m h; cases h
  inv : running s = false → StateInv s → StateInv t

/-- What a command leaves. -/
inductive Commanded (i : Instr) (s : State) : State → Prop
  | refused : Commanded i s (refuse s)
  | raised {t : State} (k : ErrorKind) (off : Nat) (hs : s.bcState ≠ .failed) (hw : Works i s t) (hm : ∀ m, i ≠ .deflate m := by simp)
      (hinf : i ≠ .inflate := by simp) (hreset : i ≠ .reset := by simp) : Commanded i s (raise k off t)
  | finished {t : State} (v : Value) (hw : Works i s t) (hinf : i ≠ .inflate := by simp) (hreset : i ≠ .reset := by simp) :
      Commanded i s (finish v t)
  | started : i = .inflate → s.bcState ≠ .failed → Commanded i s (inflateStart s)
  | reset : i = .reset → Commanded i s (resetState s)

theorem commanded_unlessFailed {i : Instr} {s : State} {body : State → State} (h : s.bcState ≠ .failed → Commanded i s (body s)) :
    Commanded i s (unlessFailed body s) := by
  by_cases hf : s.bcState = .failed
  · rw [unlessFailed_of_failed hf]; exact .refused
  · rw [unlessFailed_of_ne_failed hf]; exact h hf

theorem commanded_unlessTooLong {i : Instr} {s r : State} {fits : Bool} (h : Commanded i s r) :
    Commanded i s (unlessTooLong fits r s) := by
  obtain ⟨-, he⟩ | ⟨-, he⟩ := unlessTooLong_cases fits r s <;> rw [he]
  · exact h
  · exact .refused

/-- A command that only reads. -/
theorem Works.refl {i : Instr} {s : State} (hi : ∀ m, i ≠ .deflate m := by simp) : Works i s s :=
  { idle := fun m h => absurd h (hi m), inv := fun _ hs => hs }

/-! #### System commands -/

theorem rdreg_commanded (r : BitVec 8) (s t : State) (h : exec (.rdreg r) s = .next t) : Commanded (.rdreg r) s t := by
  cases h
  split
  · exact .finished _ .refl
  · exact .refused

theorem rdbuf_commanded (b : BitVec 8) (s t : State) (h : exec (.rdbuf b) s = .next t) : Commanded (.rdbuf b) s t := by
  cases h
  split
  · exact .finished _ .refl
  · exact .refused

theorem wrreg_commanded (r : BitVec 8) (val : BitVec 32) (s t : State) (h : exec (.wrreg r val) s = .next t) :
    Commanded (.wrreg r val) s t := by
  cases h
  refine commanded_unlessFailed fun _ => ?_
  unfold writeRegister
  split
  · unfold writeWindow
    split
    · exact .refused
    · rename_i hv
      have hval : (BitVec.ofNat 16 val.toNat).toNat = val.toNat := by rw [BitVec.toNat_ofNat]; omega
      exact .finished _
        { registers := fun h => absurd rfl (h r val)
          inv := fun _ hs => { hs with window := by simp only [hval]; omega } }
  · have hmem := memory_wf_writeHufN (s := s) val
    unfold writeHufN at hmem ⊢
    split
    · exact .refused
    · rename_i hv
      rw [if_neg hv] at hmem
      have hval : (BitVec.ofNat 9 val.toNat).toNat = val.toNat := by rw [BitVec.toNat_ofNat]; omega
      exact .finished _
        { freq := fun _ _ h => absurd rfl (h r val)
          tUser := fun _ h => absurd rfl (h r val)
          registers := fun h => absurd rfl (h r val)
          inv := fun _ hs =>
            { hs with memory := hmem hs.memory, hufN := by simp only [hval]; omega, userTree := fun h => by cases h } }
  · exact .refused

/-- `LDBUF` answers only where the payload has the declared length or the word is refused (R183). -/
theorem loadPayload_commanded {b : BitVec 8} {n : BitVec 32} {refused : Bool} {top : Nat} {load : State → State} {s t : State}
    (h : loadPayload n.toNat refused top load s = .next t)
    (hload : refused = false → s.payload.length = n.toNat → Works (.ldbuf b n) s (load s)) : Commanded (.ldbuf b n) s t := by
  unfold loadPayload at h
  split at h
  · cases h; exact .refused
  · split at h
    · cases h
    · split at h
      · cases h
        exact .finished _ (hload (Bool.not_eq_true _ ▸ ‹¬refused = true›) (not_not.mp ‹_›))
      · cases h; exact .refused

theorem ldbuf_commanded (b : BitVec 8) (n : BitVec 32) (s t : State) (h : exec (.ldbuf b n) s = .next t) :
    Commanded (.ldbuf b n) s t := by
  change execLdbuf b n s = _ at h
  unfold execLdbuf at h
  split at h
  · cases h; exact .refused
  · unfold loadBuffer at h
    split at h
    · exact loadPayload_commanded h fun _ _ =>
        { inBuf := fun h => absurd rfl (h b n), inv := fun _ hs => { hs with } }
    · exact loadPayload_commanded h fun _ _ =>
        { sym := fun h => absurd rfl (h b n), inv := fun _ hs => { hs with } }
    · refine loadPayload_commanded h fun hr hn =>
        { freq := fun _ h => absurd rfl (h b n), inv := fun _ hs => { hs with memory := memory_wf_loadFreq ?_ hs.memory } }
      exact hn.trans (by simpa using hr)
    · cases h; exact .refused

/-! #### BitStream commands -/

theorem bsClear_commanded (s t : State) (h : exec .bsClear s = .next t) : Commanded .bsClear s t := by
  cases h
  exact commanded_unlessFailed fun _ => .finished _
    { bits := fun h => absurd rfl h, inv := fun _ hs => { hs with memory := memory_wf_emptyStream hs.memory } }

theorem bsLoad_commanded (n : BitVec 32) (s t : State) (h : exec (.bsLoad n) s = .next t) : Commanded (.bsLoad n) s t := by
  cases h
  refine commanded_unlessFailed fun _ => ?_
  unfold bsLoad
  split
  · exact .refused
  · exact commanded_unlessTooLong (.finished _
      { bits := fun _ h => absurd rfl (h n), inv := fun _ hs => { hs with memory := memory_wf_loadStream _ hs.memory } })

theorem stateInv_pushAll {s : State} (h : StateInv s) (bs : List Bool) : StateInv (pushAll bs s) :=
  { h with memory := memory_wf_pushAll bs h.memory }

theorem bsPush_commanded (bit : BitVec 8) (s t : State) (h : exec (.bsPush bit) s = .next t) : Commanded (.bsPush bit) s t := by
  cases h
  refine commanded_unlessFailed fun hf => ?_
  unfold bsPush
  split
  · exact .raised _ _ hf .refl
  · exact commanded_unlessTooLong (.finished _
      { bits := fun _ _ h => absurd rfl (h bit), inv := fun _ hs => stateInv_pushAll hs _ })

theorem bsPushbits_commanded (value : BitVec 32) (count : BitVec 8) (o : Order) (s t : State)
    (h : exec (.bsPushbits value count o) s = .next t) : Commanded (.bsPushbits value count o) s t := by
  cases h
  refine commanded_unlessFailed fun hf => ?_
  unfold bsPushbits
  split
  · exact .refused
  · split
    · exact .raised _ _ hf .refl
    · exact commanded_unlessTooLong (.finished _
        { bits := fun _ _ _ h => absurd rfl (h value count o), inv := fun _ hs => stateInv_pushAll hs _ })

/-- Moving the cursor inside the stream is no more than a read does. -/
theorem Works.moveCursor {i : Instr} {s : State} {n : Nat} (hn : n ≤ s.bits.length - s.rpos) (hi : ∀ m, i ≠ .deflate m := by simp) :
    Works i s (moveCursor (s.rpos + n) s) :=
  { idle := fun m h => absurd h (hi m)
    inv := fun _ hs =>
      have hpos := ((memory_wf_iff s).mp hs.memory).2.1
      { hs with memory := memory_wf_moveCursor (by omega) hs.memory } }

theorem bsRead_commanded (s t : State) (h : exec .bsRead s = .next t) : Commanded .bsRead s t := by
  cases h
  refine commanded_unlessFailed fun hf => ?_
  unfold bsRead
  by_cases hend : s.rpos < s.bits.length
  · rw [readBit_of_lt hend]
    exact .finished _ (.moveCursor (by omega))
  · rw [readBit_of_le (Nat.not_lt.mp hend)]
    exact .raised _ _ hf .refl

theorem bsReadbits_commanded (count : BitVec 8) (o : Order) (s t : State) (h : exec (.bsReadbits count o) s = .next t) :
    Commanded (.bsReadbits count o) s t := by
  cases h
  refine commanded_unlessFailed fun hf => ?_
  unfold bsReadbits
  split
  · exact .refused
  · split
    · rename_i hr
      obtain ⟨hc, -, rfl⟩ := readBits_ok_inv hr
      exact .finished _ (.moveCursor hc)
    · rename_i hr
      obtain ⟨-, rfl⟩ := readBits_error_inv hr
      exact .raised _ _ hf .refl

/-! #### HuffmanTree commands -/

/-- Counting writes `FREQ` only, whose number of elements stays, and raises at the end of the stream (R110). -/
theorem countSymbols_cases (n : Nat) (xs : List Sym) (s : State) : ∃ f : List Freq, f.length = s.freq.length ∧
    (countSymbols n xs s = .ok { s with freq := f } ∨
      countSymbols n xs s = .error (raise .symbolOutOfRange s.bits.length { s with freq := f })) := by
  induction xs generalizing s with
  | nil => exact ⟨s.freq, rfl, .inl rfl⟩
  | cons x xs ih =>
    unfold countSymbols
    split
    · exact ⟨s.freq, rfl, .inr rfl⟩
    · obtain ⟨f, hl, h⟩ := ih { s with freq := s.freq.modify x.toNat fun f => freqAdd f 1 }
      exact ⟨f, by simpa using hl, h⟩

theorem hufCount_commanded (s t : State) (h : exec .hufCount s = .next t) : Commanded .hufCount s t := by
  cases h
  refine commanded_unlessFailed fun hf => ?_
  obtain ⟨f, hl, he⟩ := countSymbols_cases s.hufN.toNat s.sym { s with freq := List.replicate s.hufN.toNat 0 }
  have hw : Works .hufCount s { s with freq := f } :=
    { freq := fun h => absurd rfl h
      inv := fun _ hs =>
        have ⟨_, hpos, htok⟩ := (memory_wf_iff s).mp hs.memory
        { hs with memory := (memory_wf_iff _).mpr ⟨by simpa using hl, hpos, htok⟩ } }
  unfold hufCount
  obtain he | he := he <;> rw [he]
  · exact .finished _ hw
  · exact .raised _ _ hf hw

theorem hufBuild_commanded (s t : State) (h : exec .hufBuild s = .next t) : Commanded .hufBuild s t := by
  cases h
  exact commanded_unlessFailed fun _ => .finished _
    { tUser := fun h => absurd rfl h, inv := fun _ hs => { hs with userTree := fun _ => by simp } }

theorem hufEncode_commanded (s t : State) (h : exec .hufEncode s = .next t) : Commanded .hufEncode s t := by
  cases h
  refine commanded_unlessFailed fun hf => ?_
  unfold hufEncode
  split
  · refine commanded_unlessTooLong ?_
    have hw (bs : List Bool) : Works .hufEncode s (pushAll bs s) :=
      { bits := fun _ _ _ _ h => absurd rfl h, inv := fun _ hs => stateInv_pushAll hs _ }
    unfold hufEncodeResult
    cases he : encodeSymbols s.tUser s.sym s with
    | ok s' =>
      obtain ⟨rfl, -⟩ := encodeSymbols_ok_inv he
      exact .finished _ (hw _)
    | error s' =>
      obtain ⟨bs, rfl⟩ := encodeSymbols_error_inv he
      exact .raised _ _ hf (hw bs)
  · exact .raised _ _ hf .refl

/-- Decoding that raises has appended symbols and moved the cursor inside the stream (R118). -/
theorem decodeSymbols_error_inv {t : Tree} {k : Nat} {s s' : State} (h : decodeSymbols t k s = .error s') :
    ∃ (kind : ErrorKind) (xs : List Sym) (n : Nat), xs.length < k ∧ n ≤ s.bits.length - s.rpos ∧
      s' = raise kind (s.rpos + n) { s with sym := s.sym ++ xs, rpos := s.rpos + n } := by
  induction k generalizing s with
  | zero => cases h
  | succ k ih =>
    unfold decodeSymbols at h
    split at h
    · rename_i hd
      cases h
      obtain ⟨kind, n, hn, rfl⟩ := decodeSym_error_inv hd
      exact ⟨kind, [], n, Nat.succ_pos k, hn, by simp [moveCursor]⟩
    · rename_i x s1 hd
      obtain ⟨-, m, -, hm, rfl⟩ := decodeSym_ok_inv hd
      obtain ⟨kind, xs, n, hl, hn, rfl⟩ := ih h
      simp only [moveCursor] at hn
      exact ⟨kind, BitVec.ofNat 16 x :: xs, m + n, by rw [List.length_cons]; omega, by omega, by simp [moveCursor, Nat.add_assoc]⟩

theorem hufDecode_commanded (count : BitVec 32) (s t : State) (h : exec (.hufDecode count) s = .next t) :
    Commanded (.hufDecode count) s t := by
  cases h
  refine commanded_unlessFailed fun hf => ?_
  unfold hufDecode
  split
  · refine commanded_unlessTooLong ?_
    have hw (xs : List Sym) {n : Nat} (hn : n ≤ s.bits.length - s.rpos) :
        Works (.hufDecode count) s { s with sym := xs, rpos := s.rpos + n } :=
      { sym := fun _ h => absurd rfl (h count)
        inv := fun hr hs => { (Works.moveCursor (i := .bsRead) hn).inv hr hs with } }
    unfold hufDecodeResult
    cases he : decodeSymbols s.tUser count.toNat { s with sym := [] } with
    | ok s' =>
      obtain ⟨xs, n, -, -, -, hn, rfl⟩ := decodeSymbols_ok_inv he
      exact .finished _ (hw _ hn)
    | error s' =>
      obtain ⟨kind, xs, n, -, hn, rfl⟩ := decodeSymbols_error_inv he
      exact .raised _ _ hf (hw _ hn)
  · exact .raised _ _ hf .refl

/-! #### MatchFinder and BlockCodec commands -/

theorem lzScan_commanded (s t : State) (h : exec .lzScan s = .next t) : Commanded .lzScan s t := by
  cases h
  exact commanded_unlessFailed fun _ => commanded_unlessTooLong (.finished _
    { tok := fun h => absurd rfl h, inv := fun _ hs => { hs with memory := memory_wf_scanned hs.window.2 hs.memory } })

theorem inflate_commanded (s t : State) (h : exec .inflate s = .next t) : Commanded .inflate s t := by
  cases h
  exact commanded_unlessFailed fun hf => commanded_unlessTooLong (.started rfl hf)

/-- The stored blocks append bits and write the header fields (R171). -/
theorem writeStoredBlocks_spec (cs : List (List Byte)) (s : State) : ∃ (bs : List Bool) (f : Bool) (ty : BitVec 2),
    writeStoredBlocks cs s = { s with bits := s.bits ++ bs, bfinal := f, btype := ty } := by
  induction cs generalizing s with
  | nil => exact ⟨[], s.bfinal, s.btype, by simp [writeStoredBlocks]⟩
  | cons c cs ih =>
    cases cs with
    | nil =>
      obtain ⟨bs, h⟩ := writeStoredBlock_spec true c s
      exact ⟨bs, true, 0, h⟩
    | cons c' cs =>
      obtain ⟨b1, h1⟩ := writeStoredBlock_spec false c s
      obtain ⟨b2, f, ty, h2⟩ := ih (writeStoredBlock false c s)
      exact ⟨b1 ++ b2, f, ty, by rw [writeStoredBlocks, h2, h1]; simp⟩

/-- Between commands no length is pending and no dynamic header is being read (R24). -/
theorem quiet_of_not_running {s : State} (hr : running s = false) (hs : StateInv s) : Quiet s := by
  refine (BlockInv.of_stateInv hs).quiet ?_ ?_ <;> intro hb <;> simp [running, hb] at hr

/-- `DEFLATE` replaces the stream, the header fields and, in `FIXED` mode, `TOK` (R170). -/
theorem deflateResult_spec (mode : Nat) (s : State) : ∃ (bs : List Bool) (f : Bool) (ty : BitVec 2),
    deflateResult mode s = finish .nothing
      { s with
        bits := bs, rpos := 0, bcState := .idle, bfinal := f, btype := ty
        tok := if mode = 0 then s.tok else scan s.inBuf s.window.toNat } := by
  unfold deflateResult
  split
  · obtain ⟨bs, f, ty, h⟩ := writeStoredBlocks_spec (storedChunks s.inBuf.length s.inBuf) (goTo .idle { s with bits := [], rpos := 0 })
    refine ⟨bs, f, ty, ?_⟩
    unfold deflateStored
    simp only [goTo_inBuf, h]
    rfl
  · unfold deflateFixed
    obtain ⟨bs, h⟩ := writeTokens_spec (scanned (goTo .idle { s with bits := [], rpos := 0 })).tok
      (writeHeader true 1 (scanned (goTo .idle { s with bits := [], rpos := 0 })))
    rw [h]
    exact ⟨_, true, 1, rfl⟩

theorem deflate_commanded (mode : BitVec 8) (s t : State) (h : exec (.deflate mode) s = .next t) : Commanded (.deflate mode) s t := by
  cases h
  refine commanded_unlessFailed fun hf => ?_
  unfold deflate
  split
  · exact .refused
  · refine commanded_unlessTooLong ?_
    obtain ⟨bs, f, ty, he⟩ := deflateResult_spec mode.toNat s
    rw [he]
    refine .finished _
      { tok := fun _ h => absurd rfl (h mode), bits := fun _ _ _ _ _ h => absurd rfl (h mode)
        header := fun h => absurd rfl (h mode), bcState := fun h => absurd rfl (h mode), idle := fun _ _ => ⟨hf, rfl⟩
        inv := fun hr hs => ?_ }
    have hq : Quiet s := quiet_of_not_running hr hs
    obtain ⟨hlen, -, htok⟩ := (memory_wf_iff s).mp hs.memory
    have htok' : ∀ k ∈ (if mode.toNat = 0 then s.tok else scan s.inBuf s.window.toNat), tokenLegal k = true := by
      split
      · exact htok
      · exact scanFrom_legal hs.window.2 _ _
    have hbase : BaseInv
        { s with
          bits := bs, rpos := 0, bcState := .idle, bfinal := f, btype := ty
          tok := if mode.toNat = 0 then s.tok else scan s.inBuf s.window.toNat } :=
      { hs with memory := (memory_wf_iff _).mpr ⟨hlen, Nat.zero_le _, htok'⟩ }
    have hnone : s.errKind.isSome = false := Bool.not_eq_true _ ▸ fun h => hf (hs.errKind.mp h)
    exact stateInv_of hbase (by simp [hnone]) (.of_quiet hq (by simp) (by simp))

/-- What every command leaves. -/
theorem exec_commanded {i : Instr} {s t : State} (hi : i.format = .cmd64) (h : exec i s = .next t) : Commanded i s t := by
  cases i with
  | reset => cases h; exact .reset rfl
  | rdreg r => exact rdreg_commanded r s t h
  | wrreg r val => exact wrreg_commanded r val s t h
  | ldbuf b n => exact ldbuf_commanded b n s t h
  | rdbuf b => exact rdbuf_commanded b s t h
  | bsClear => exact bsClear_commanded s t h
  | bsLoad n => exact bsLoad_commanded n s t h
  | bsPush bit => exact bsPush_commanded bit s t h
  | bsPushbits value count o => exact bsPushbits_commanded value count o s t h
  | bsRead => exact bsRead_commanded s t h
  | bsReadbits count o => exact bsReadbits_commanded count o s t h
  | bsTobytes => cases h; exact .finished _ .refl
  | hufCount => exact hufCount_commanded s t h
  | hufBuild => exact hufBuild_commanded s t h
  | hufEncode => exact hufEncode_commanded s t h
  | hufDecode count => exact hufDecode_commanded count s t h
  | lzScan => exact lzScan_commanded s t h
  | inflate => exact inflate_commanded s t h
  | deflate mode => exact deflate_commanded mode s t h
  | _ => cases hi

end Sys2Proof.Machine

namespace Sys2Proof.Machine

open Sys2Proof Sys2Proof.Claims

/-! ### Who writes the spaces and the flags, and the invariant (R15, R40) -/

/-- An instruction that is no command is an element, with all that holds of elements (R150). -/
theorem exec_performed {i : Instr} {s t : State} (hi : i.format ≠ .cmd64) (h : exec i s = .next t) :
    Performed i.format (encode i).word.toNat s t := by
  rw [exec_element hi] at h
  cases h
  exact performElement_performed hi _ s

/-- Settles O59: elements leave the frame, and a command has written what `Works` says. -/
theorem onlyTheNamedInstructionsWriteASpace : Obligations.OnlyTheNamedInstructionsWriteASpace := by
  unfold Obligations.OnlyTheNamedInstructionsWriteASpace
  intro s t i h hreset
  by_cases hi : i.format = .cmd64
  · cases exec_commanded hi h with
    | refused =>
      exact ⟨fun _ => rfl, fun _ _ => ⟨rfl, rfl⟩, fun _ _ => rfl, fun _ _ => rfl, fun _ _ _ => rfl, fun _ _ _ _ _ _ => rfl,
        fun _ _ => rfl, fun _ => ⟨rfl, rfl⟩, rfl, rfl⟩
    | raised k off _ hw =>
      exact ⟨hw.inBuf, fun _ _ => hw.out, hw.sym, hw.tok, hw.freq, hw.bits, hw.tUser, hw.registers, hw.cfg, hw.cmds⟩
    | finished v hw =>
      exact ⟨hw.inBuf, fun _ _ => hw.out, hw.sym, hw.tok, hw.freq, hw.bits, hw.tUser, hw.registers, hw.cfg, hw.cmds⟩
    | started hinf _ =>
      exact ⟨fun _ => rfl, fun _ hne => absurd hinf hne, fun _ _ => rfl, fun _ _ => rfl, fun _ _ _ => rfl, fun _ _ _ _ _ _ => rfl,
        fun _ _ => rfl, fun _ => ⟨rfl, rfl⟩, rfl, rfl⟩
    | reset hr => exact absurd hr hreset
  · have hf := (exec_performed hi h).frame
    exact ⟨fun _ => hf.inBuf, fun hc => absurd hc hi, fun _ _ => hf.sym, fun _ _ => hf.tok, fun _ _ _ => hf.freq,
      fun _ _ _ _ _ _ => hf.bits, fun _ _ => hf.tUser, fun _ => ⟨hf.window, hf.hufN⟩, hf.cfg, hf.cmds⟩

/-- The flags after an element (R15): `DONE` only at the end of a block, `FAILED` only by error entry, the header fields only by a
header. -/
theorem Performed.flags {f : Format} {v : Nat} {s t : State} (h : Performed f v s t) :
    (t.bcState = .done → s.bcState = .done ∨ EndsBlock f v) ∧
      (s.bcState ≠ .failed → t.bcState = .failed → ∃ k off u, t = raise k off u) ∧
      (f ≠ .blkHdr → t.bfinal = s.bfinal ∧ t.btype = s.btype) := by
  cases h with
  | raised k hr => exact ⟨(nomatch ·), fun _ _ => ⟨_, _, _, rfl⟩, hr.header⟩
  | @ended u hv hr _ =>
    refine ⟨fun _ => .inr hv, fun _ hfail => ?_, ?_⟩
    · obtain he | he := endOfBlock_bcState u <;> rw [he] at hfail <;> cases hfail
    · obtain ⟨-, he⟩ | ⟨-, he⟩ := endOfBlock_cases u <;> rw [he] <;> exact hr.header
  | continued hr hst _ =>
    refine ⟨fun hd => ?_, fun hs hfail => ?_, hr.header⟩
    · obtain he | he | he := hst <;> rw [he] at hd
      · exact .inl hd
      · cases hd
      · cases hd
    · obtain he | he | he := hst <;> rw [he] at hfail
      · exact absurd hfail hs
      · cases hfail
      · cases hfail

theorem raise_eq_errorAt_self (k : ErrorKind) (off : Nat) (u : State) :
    (raise k off u).result = .error k ∧ raise k off u = errorAt k (raise k off u).errBitOff (raise k off u) :=
  ⟨rfl, by rw [← raise_eq_errorAt]; rfl⟩

/-- A command other than `DEFLATE` that returns a value keeps `BC.state`, and `DEFLATE` goes to `Idle` (R170). -/
theorem Works.bcState_cases {i : Instr} {s t : State} (h : Works i s t) :
    t.bcState = s.bcState ∧ (∀ m, i ≠ .deflate m) ∨ (∃ m, i = .deflate m) ∧ s.bcState ≠ .failed ∧ t.bcState = .idle := by
  by_cases hm : ∃ m, i = .deflate m
  · obtain ⟨m, rfl⟩ := hm
    exact .inr ⟨⟨m, rfl⟩, h.idle m rfl⟩
  · have hm : ∀ m, i ≠ .deflate m := fun m he => hm ⟨m, he⟩
    exact .inl ⟨h.bcState hm, hm⟩

/-- Settles O60: the flags after a command are those of `Commanded`, those after an element those of `Performed.flags`. -/
theorem flagsAreWrittenOnlyWhereNamed : Obligations.FlagsAreWrittenOnlyWhereNamed := by
  unfold Obligations.FlagsAreWrittenOnlyWhereNamed
  intro s t i h
  by_cases hi : i.format = .cmd64
  · cases exec_commanded hi h with
    | refused =>
      exact ⟨.inl, fun _ hd hn => absurd hd hn, fun _ hr => absurd rfl hr, fun hs hf => absurd hf hs, fun _ hf hn => absurd hf hn,
        fun hb => hb.elim (absurd rfl) (absurd rfl)⟩
    | @raised u k off hs hw hm hinf hreset =>
      refine ⟨(nomatch ·), fun _ _ _ => .inr (.inr (.inr rfl)), ?_, fun _ _ => ⟨k, raise_eq_errorAt_self k off u⟩,
        fun _ _ hn => absurd rfl hn, ?_⟩
      · rintro (h | ⟨m, h⟩ | h)
        · exact absurd h hinf
        · exact absurd h (hm m)
        · exact absurd h hreset
      · obtain ⟨h1, h2⟩ := hw.header hm
        exact fun hb => hb.elim (absurd h1) (absurd h2)
    | @finished u v hw hinf hreset =>
      obtain ⟨hb, hm⟩ | ⟨⟨m, rfl⟩, hs, hb⟩ := hw.bcState_cases
      · have hb : (finish v u).bcState = s.bcState := hb
        rw [hb]
        refine ⟨.inl, fun _ hd hn => absurd hd hn, ?_, fun hs hf => absurd hf hs, fun _ hf hn => absurd hf hn, ?_⟩
        · rintro (h | ⟨m, h⟩ | h)
          · exact absurd h hinf
          · exact absurd h (hm m)
          · exact absurd h hreset
        · obtain ⟨h1, h2⟩ := hw.header hm
          exact fun hb => hb.elim (absurd h1) (absurd h2)
      · have hb : (finish v u).bcState = .idle := hb
        rw [hb]
        exact ⟨(nomatch ·), fun _ _ _ => .inr (.inl ⟨m, rfl⟩), fun _ _ => by simp, fun _ => (nomatch ·), fun _ hf => absurd hf hs,
          fun _ => .inr (.inl ⟨m, rfl⟩)⟩
    | started hinf hs =>
      exact ⟨(nomatch ·), fun _ _ _ => .inl hinf, fun _ _ => (nomatch ·), fun _ => (nomatch ·), fun _ hf => absurd hf hs,
        fun hb => hb.elim (absurd rfl) (absurd rfl)⟩
    | reset hr =>
      exact ⟨(nomatch ·), fun _ _ _ => .inr (.inr (.inl hr)), fun _ _ => (nomatch ·), fun _ => (nomatch ·), fun _ _ _ => hr,
        fun _ => .inl hr⟩
  · obtain ⟨hdone, hfail, hhead⟩ := (exec_performed hi h).flags
    refine ⟨fun hd => (hdone hd).imp_right endsBlock_encode, fun hc => absurd hc hi, ?_, fun hs hf => ?_, fun hc => absurd hc hi, ?_⟩
    · rintro (rfl | ⟨m, rfl⟩ | rfl) <;> exact absurd rfl hi
    · obtain ⟨k, off, u, rfl⟩ := hfail hs hf
      exact ⟨k, raise_eq_errorAt_self k off u⟩
    · intro hb
      by_contra hne
      simp only [not_or] at hne
      obtain ⟨h1, h2⟩ := hhead hne.2.2
      exact hb.elim (absurd h1) (absurd h2)

/-- A command keeps the invariant between commands. -/
theorem Commanded.stateInv {i : Instr} {s t : State} (h : Commanded i s t) (hr : running s = false) (hi : StateInv s) :
    StateInv t := by
  cases h with
  | refused => exact { hi with }
  | raised k off _ hw => exact (BaseInv.of_stateInv (hw.inv hr hi)).stateInv_raise k off
  | finished v hw => exact { hw.inv hr hi with }
  | started _ hs =>
    have hnone : s.errKind.isSome = false := Bool.not_eq_true _ ▸ fun h => hs (hi.errKind.mp h)
    have hbase : BaseInv (inflateStart s) := { hi with outValid := Nat.le_refl 0 }
    have hblock : BlockInv (inflateStart s) := .of_quiet ⟨rfl, rfl, rfl, rfl⟩ (by simp [inflateStart]) (by simp [inflateStart])
    exact stateInv_of hbase (by simp [inflateStart, hnone]) hblock
  | reset _ => exact { invariantHoldsAtReset with }

/-- Taking a command changes no state of the machine (R226). -/
theorem takeCommand_stateInv {s : State} (h : StateInv s) (c : HostCommand) (rest : List HostCommand) :
    StateInv (takeCommand c rest s) :=
  { h with }

/-- A word of the command format decodes to a command. -/
theorem decodeCommand_format {w : CmdWord} {i : Instr} (h : decode .cmd64 w = .ok i) : i.format = .cmd64 := by
  simp only [decode, decodeCommand] at h
  split at h
  · unfold decodeOpcode whenUnused at h
    split at h
    case h_9 => cases h; rfl
    case h_20 => cases h
    all_goals split at h <;> cases h; rfl
  · cases h

/-- Settles O56: a step takes a command between commands (`Commanded`), and else reads and performs an element (`StepLeaves`). -/
theorem everyStepKeepsTheInvariant : Obligations.EveryStepKeepsTheInvariant := by
  unfold Obligations.EveryStepKeepsTheInvariant
  intro s t hi hstep
  by_cases hrun : running s = true
  · obtain ⟨t', ht, hl⟩ := step_leaves hrun
    rw [hstep] at ht
    cases ht
    exact hl.stateInv hrun hi
  · have hrun : running s = false := Bool.not_eq_true _ ▸ hrun
    obtain ⟨hempty, hnext⟩ := stepRunsTheNextCommand s hrun
    cases hc : s.cmds with
    | nil =>
      rw [hempty hc] at hstep
      cases hstep
      exact hi
    | cons c rest =>
      obtain ⟨hok, herr⟩ := hnext c rest hc
      have htake := takeCommand_stateInv hi c rest
      cases hd : decode .cmd64 c.word with
      | ok i => exact (exec_commanded (decodeCommand_format hd) ((hok i hd).symm.trans hstep)).stateInv hrun htake
      | error e =>
        rw [herr e hd] at hstep
        cases hstep
        exact { htake with }

end Sys2Proof.Machine

namespace Sys2Proof.Machine

open Sys2Proof Sys2Proof.Claims

/-! ### The walk of a tree and the claims' words for it (R124) -/

theorem follow_cons {arena : List Node} {b : Bool} {w : List Bool} {i c : Nat} : follow arena (b :: w) i = some c ↔
    ∃ f l r j, arena[i]? = some (.branch f l r) ∧ (if b then r else l) = some j ∧ follow arena w j = some c := by
  simp only [follow]
  split
  case h_1 f l r hi =>
    constructor
    · intro h
      split at h
      · exact ⟨f, l, r, _, hi, ‹_›, h⟩
      · cases h
    · rintro ⟨f', l', r', j, hbr, hj, hc⟩
      rw [hi] at hbr
      cases hbr
      rw [hj]; exact hc
  case h_2 hi => simp [hi]
  case h_3 hi => simp [hi]

/-- The last bit of a path leads from a branch to the node that the path reaches. -/
theorem follow_concat {arena : List Node} {w : List Bool} {b : Bool} {i c : Nat} (h : follow arena (w ++ [b]) i = some c) :
    ∃ j f l r, follow arena w i = some j ∧ arena[j]? = some (.branch f l r) ∧ (if b then r else l) = some c := by
  induction w generalizing i with
  | nil =>
    obtain ⟨f, l, r, j, hi, hj, hc⟩ := follow_cons.mp h
    obtain rfl : j = c := Option.some.inj hc
    exact ⟨i, f, l, r, rfl, hi, hj⟩
  | cons b' w ih =>
    obtain ⟨f, l, r, j, hi, hj, hc⟩ := follow_cons.mp h
    obtain ⟨j', f', l', r', hw, hb, hc⟩ := ih hc
    exact ⟨j', f', l', r', follow_cons.mpr ⟨f, l, r, j, hi, hj, hw⟩, hb, hc⟩

/-- A path to a branch begins at a branch. -/
theorem follow_start {arena : List Node} {w : List Bool} {i c : Nat} {f : Freq} {l r : Option Nat} (h : follow arena w i = some c)
    (hc : arena[c]? = some (.branch f l r)) : ∃ f' l' r', arena[i]? = some (.branch f' l' r') := by
  cases w with
  | nil => cases h; exact ⟨f, l, r, hc⟩
  | cons b w =>
    obtain ⟨f', l', r', -, hi, -⟩ := follow_cons.mp h
    exact ⟨f', l', r', hi⟩

theorem childOf_branch {arena : List Node} {i : Nat} {f : Freq} {l r : Option Nat} (h : arena[i]? = some (.branch f l r)) (b : Bool) :
    childOf arena i b = if b then r else l := by
  simp [childOf, h]

/-- Along bits that lead to a branch the walk goes on from that branch. -/
theorem walk_of_follow {t : Tree} {w bs : List Bool} {i c k : Nat} {f : Freq} {l r : Option Nat}
    (h : follow t.arena w i = some c) (hc : t.arena[c]? = some (.branch f l r)) :
    walk t (w ++ bs) i k = walk t bs c (k + w.length) := by
  induction w generalizing i k with
  | nil => cases h; rfl
  | cons b w ih =>
    obtain ⟨f', l', r', j, hi, hj, hw⟩ := follow_cons.mp h
    obtain ⟨f'', l'', r'', hbr⟩ := follow_start hw hc
    rw [List.cons_append, walk, childOf_branch hi, hj]
    simp only [hbr]
    rw [ih hw, List.length_cons, Nat.add_right_comm, Nat.add_assoc]

/-- The walk's last bit, where it leads to a leaf (R124). -/
theorem walk_leaf {t : Tree} {b : Bool} {rest : List Bool} {i c k x : Nat} {f : Freq} (hb : childOf t.arena i b = some c)
    (hc : t.arena[c]? = some (.leaf x f)) :
    walk t (b :: rest) i k = (if t.n ≤ x then .error .symbolOutOfRange else .ok x, k + 1) := by
  simp only [walk, hb, hc]

/-- The walk of bits that spell a symbol ends at it (R124). -/
theorem walk_of_spells {t : Tree} {w : List Bool} {x : Nat} (h : spells t w x) (rest : List Bool) :
    walk t (w ++ rest) t.root 0 = (if t.n ≤ x then .error .symbolOutOfRange else .ok x, w.length) := by
  obtain ⟨hne, c, f, hw, hc⟩ | ⟨rfl, f, hroot⟩ := h
  · obtain ⟨w, b, rfl⟩ := (List.eq_nil_or_concat w).resolve_left hne
    rw [List.concat_eq_append] at hw ⊢
    obtain ⟨j, f', l, r, hw, hj, hb⟩ := follow_concat hw
    rw [List.append_assoc, walk_of_follow hw hj, List.singleton_append, walk_leaf ((childOf_branch hj b).trans hb) hc]
    simp
  · exact walk_leaf (by simp [childOf, hroot]) hroot

/-- The walk of bits that end inside the tree finds the end of the stream (R124). -/
theorem walk_of_unfinished {t : Tree} {w : List Bool} (h : unfinished t w) :
    walk t w t.root 0 = (.error .truncatedStream, w.length) := by
  obtain rfl | ⟨c, f, l, r, hw, hc⟩ := h
  · rfl
  · have hwalk := walk_of_follow (bs := []) (k := 0) hw hc
    rwa [List.append_nil, Nat.zero_add] at hwalk

/-- The walk of bits that step to a missing child finds none (R124). -/
theorem walk_of_missing {t : Tree} {w : List Bool} {b : Bool} (h : missing t w b) (rest : List Bool) :
    walk t (w ++ b :: rest) t.root 0 = (.error .invalidHuffmanTree, w.length + 1) := by
  obtain ⟨c, f, l, r, hw, hc, hb⟩ | ⟨rfl, rfl, x, f, hroot⟩ := h
  · rw [walk_of_follow hw hc, Nat.zero_add]
    simp only [walk, childOf_branch hc, hb]
  · simp [walk, childOf, hroot]

theorem walk_of_stopsAfter {t : Tree} {bits w : List Bool} {k : ErrorKind} (h : stopsAfter t bits w k) :
    walk t bits t.root 0 = (.error k, w.length) := by
  obtain ⟨rfl, rfl, hw⟩ | ⟨rfl, w, b, rest, rfl, rfl, hw⟩ | ⟨rfl, x, rest, rfl, hw, hx⟩ := h
  · exact walk_of_unfinished hw
  · rw [List.append_assoc, List.singleton_append, walk_of_missing hw, List.length_append, List.length_singleton]
  · rw [walk_of_spells hw, if_pos hx]

/-- Bits that spell a symbol of the alphabet are read as it (R124). -/
theorem decodeSym_of_spells {t : Tree} {s : State} {w rest : List Bool} {x : Nat} (hbits : s.bits.drop s.rpos = w ++ rest)
    (h : spells t w x) (hx : x < t.n) : decodeSym t s = .ok (x, moveCursor (s.rpos + w.length) s) := by
  simp only [decodeSym, hbits, walk_of_spells h, if_neg (Nat.not_le.mpr hx)]

/-- A walk that stops raises just past the bits it took (R124). -/
theorem decodeSym_of_stopsAfter {t : Tree} {s : State} {w : List Bool} {k : ErrorKind} (h : stopsAfter t (s.bits.drop s.rpos) w k) :
    decodeSym t s = .error (raise k (s.rpos + w.length) (moveCursor (s.rpos + w.length) s)) := by
  simp only [decodeSym, walk_of_stopsAfter h]

/-! ### The step that reads an element (R150, R152) -/

/-- The field that stands at the cursor is read. -/
theorem readBits_of_drop {s : State} {w rest : List Bool} (o : Order) (h : s.bits.drop s.rpos = w ++ rest) :
    readBits w.length o s = .ok (fieldValue w o, moveCursor (s.rpos + w.length) s) := by
  have hlen := congrArg List.length h
  rw [List.length_drop, List.length_append] at hlen
  rw [readBits_of_le (by omega), h, List.take_left]

theorem drop_of_drop_append {bits w rest : List Bool} {p : Nat} (h : bits.drop p = w ++ rest) : bits.drop (p + w.length) = rest := by
  rw [← List.drop_drop, h, List.drop_left]

/-- A header's first bit is written to BFINAL, and BTYPE is read after it (R66, R152). -/
theorem fetchHeader_of_cons {s : State} {f : Bool} {rest : List Bool} (h : s.bits.drop s.rpos = f :: rest) :
    fetchHeader s = (readBits 2 .lsb (readTo 1 f s)).map fun p => (f.toNat + 2 * p.1, p.2) := by
  have hfin : (f.toNat == 1) = f := by cases f <;> rfl
  have hv : fieldValue [f] .lsb = f.toNat := by cases f <;> rfl
  have h1 : readBits 1 .lsb s = .ok (f.toNat, moveCursor (s.rpos + 1) s) := hv ▸ readBits_of_drop (w := [f]) .lsb h
  simp only [fetchHeader, h1, hfin]
  change (match readBits 2 .lsb (readTo 1 f s) with
    | .error s2 => Except.error s2
    | .ok (t, s2) => .ok (f.toNat + 2 * t, s2)) = _
  cases readBits 2 .lsb (readTo 1 f s) <;> rfl

/-- The three bits of a header at the cursor (R66, R152). -/
theorem fetchHeader_of_bits {s : State} {f b0 b1 : Bool} {rest : List Bool} (h : s.bits.drop s.rpos = f :: b0 :: b1 :: rest) :
    fetchHeader s = .ok (f.toNat + 2 * (b0.toNat + 2 * b1.toNat), readTo 3 f s) := by
  have h2 := readBits_of_drop (s := readTo 1 f s) (w := [b0, b1]) .lsb (drop_of_drop_append (w := [f]) h)
  have hv : fieldValue [b0, b1] .lsb = b0.toNat + 2 * b1.toNat := by simp [fieldValue, lsbValue]
  rw [hv] at h2
  rw [fetchHeader_of_cons h, show readBits 2 .lsb (readTo 1 f s) = _ from h2]
  rfl

/-- A header of which no bit is there (R152). -/
theorem fetchHeader_of_nil {s : State} (h : s.bits.drop s.rpos = []) : fetchHeader s = .error (raise .truncatedStream s.rpos s) := by
  have hlen := congrArg List.length h
  rw [List.length_drop, List.length_nil] at hlen
  simp only [fetchHeader, readBits_of_lt (show s.bits.length - s.rpos < 1 by omega)]

/-- A header whose BTYPE is not whole: BFINAL has been written (R152). -/
theorem fetchHeader_of_short {s : State} {f : Bool} {rest : List Bool} (h : s.bits.drop s.rpos = f :: rest) (hr : rest.length < 2) :
    fetchHeader s = .error (raise .truncatedStream (s.rpos + 1) (readTo 1 f s)) := by
  have hlen := congrArg List.length h
  rw [List.length_drop, List.length_cons] at hlen
  have hshort : (readTo 1 f s).bits.length - (readTo 1 f s).rpos < 2 := show s.bits.length - (s.rpos + 1) < 2 by omega
  rw [fetchHeader_of_cons h, readBits_of_lt hshort]
  rfl

theorem step_of_fetch_ok {s s' : State} {f : Format} {v : Nat} {i : Instr} (hf : nextFormat s = some f)
    (h : fetchElement f s = .ok (v, s')) (hd : decode f (BitVec.ofNat 64 v) = .ok i) : step s = exec i s' := by
  rw [(nextFormat_inv hf).2.2, stepElement, h]
  simp only [hd, runDecoded]

theorem step_of_fetch_error {s s' : State} {f : Format} (hf : nextFormat s = some f) (h : fetchElement f s = .error s') :
    step s = .next s' := by
  rw [(nextFormat_inv hf).2.2, stepElement, h]

/-- A number that is no symbol of the alphabet raises just past its bits (R158, R160, R163). -/
theorem step_of_fetch_outside {s s' : State} {f : Format} {v : Nat} {e : DecodeError} (hf : nextFormat s = some f) (hh : f ≠ .blkHdr)
    (h : fetchElement f s = .ok (v, s')) (hd : decode f (BitVec.ofNat 64 v) = .error e) :
    step s = .next (raise .symbolOutOfRange s'.rpos s') := by
  have hv : alphabet f ≤ v := (alphabet_le_of_decode_error hd).trans (by rw [BitVec.toNat_ofNat]; exact Nat.mod_le _ _)
  obtain ⟨hne, -, hstep⟩ := nextFormat_inv hf
  rw [hstep, stepElement, h]
  simp only [hd, runDecoded, performElement_outside hne hh hv]

/-- The tree that the claims name is the one that is read. -/
theorem nextTree_inv {s : State} {f : Format} {t : Tree} (h : nextTree s f t) :
    nextFormat s = some f ∧ f ≠ .blkHdr ∧ fetchElement f s = decodeSym t s := by
  obtain ⟨hb, rfl, rfl⟩ | ⟨hb, hl, rfl, rfl⟩ | ⟨hb, hl, rfl, rfl⟩ := h
  · exact ⟨by simp [nextFormat, hb], by simp, rfl⟩
  · exact ⟨by simp [nextFormat, hb, hl], by simp, rfl⟩
  · exact ⟨by simp [nextFormat, hb, hl], by simp, rfl⟩

/-- Settles O50: each clause is the step after what is read, a header's bits or the walk of a tree. -/
theorem stepRunsTheNextElement : Obligations.StepRunsTheNextElement := by
  unfold Obligations.StepRunsTheNextElement
  intro s
  refine ⟨fun f v s' i hf h hd => step_of_fetch_ok hf h hd, fun f s' hf h => step_of_fetch_error hf h, fun hb => ?_, ?_⟩
  · have hf : nextFormat s = some .blkHdr := by simp [nextFormat, hb]
    refine ⟨fun f b0 b1 rest i hbits hi => ?_, fun hbits => ?_, fun f rest hbits hr => ?_⟩
    · refine step_of_fetch_ok hf (fetchHeader_of_bits hbits) ?_
      cases f <;> cases b0 <;> cases b1 <;> cases hi <;> rfl
    · rw [step_of_fetch_error hf (fetchHeader_of_nil hbits), raise_eq_errorAt]
    · rw [step_of_fetch_error hf (fetchHeader_of_short hbits hr), raise_eq_errorAt]; rfl
  · intro f t w p ht hp
    obtain ⟨hf, hh, hfetch⟩ := nextTree_inv ht
    subst hp
    refine ⟨fun x rest hbits hw hx => ?_, fun k hstop => ?_⟩
    · have h := hfetch.trans (decodeSym_of_spells hbits hw hx)
      exact ⟨fun i hd => step_of_fetch_ok hf h hd, fun e hd => by rw [step_of_fetch_outside hf hh h hd, raise_eq_errorAt]; rfl⟩
    · rw [step_of_fetch_error hf (hfetch.trans (decodeSym_of_stopsAfter hstop)), raise_eq_errorAt]; rfl

end Sys2Proof.Machine

namespace Sys2Proof.Machine

open Sys2Proof Sys2Proof.Claims

/-! ### The parameters and the host's queue are not read

The limits of R13 are tested on a result that is computed whole (log entry 7), and that result does not depend on the parameters or
on the queue: every operation commutes with `hosted`. -/

/-- The state in a machine with other parameters and other commands of the host. -/
def hosted (c : Config) (q : List HostCommand) (s : State) : State := { s with cfg := c, cmds := q }

/-- Replace the states of an answer. -/
def mapAnswer {α : Type} (w : State → State) (g : α → α) : Except State α → Except State α
  | .ok a => .ok (g a)
  | .error s => .error (w s)

/-- What is unchanged by `hosted` at every choice keeps the parameters. -/
theorem cfg_of_hosted {g : State → State} (hg : ∀ c q s, g (hosted c q s) = hosted c q (g s)) (s : State) : (g s).cfg = s.cfg := by
  change (g (hosted s.cfg s.cmds s)).cfg = s.cfg
  rw [hg]; rfl

section
variable (c : Config) (q : List HostCommand)

/-- The answer of an operation that reads, in the other machine. -/
abbrev hostedRead {α : Type} : Except State (α × State) → Except State (α × State) :=
  mapAnswer (hosted c q) (Prod.map id (hosted c q))

theorem readBits_hosted (n : Nat) (o : Order) (s : State) : readBits n o (hosted c q s) = hostedRead c q (readBits n o s) := by
  by_cases h : s.bits.length - s.rpos < n
  · rw [readBits_of_lt h, readBits_of_lt (show (hosted c q s).bits.length - (hosted c q s).rpos < n from h)]; rfl
  · rw [readBits_of_le (Nat.not_lt.mp h), readBits_of_le (s := hosted c q s) (Nat.not_lt.mp h)]; rfl

theorem decodeSym_hosted (t : Tree) (s : State) : decodeSym t (hosted c q s) = hostedRead c q (decodeSym t s) := by
  unfold decodeSym
  rw [show walk t ((hosted c q s).bits.drop (hosted c q s).rpos) t.root 0 = walk t (s.bits.drop s.rpos) t.root 0 from rfl]
  split <;> rfl

theorem endOfBlock_hosted (s : State) : endOfBlock (hosted c q s) = hosted c q (endOfBlock s) := by
  unfold endOfBlock
  rw [apply_ite (hosted c q)]
  rfl

theorem copyRaw_hosted (n : Nat) (s : State) : copyRaw n (hosted c q s) = mapAnswer (hosted c q) (hosted c q) (copyRaw n s) := by
  induction n generalizing s with
  | zero => rfl
  | succ n ih =>
    rw [copyRaw, copyRaw, readBits_hosted]
    rcases readBits 8 .lsb s with s1 | ⟨x, s1⟩
    · rfl
    · exact ih (appendOut (BitVec.ofNat 8 x) s1)

theorem storedBody_hosted (s : State) : storedBody (hosted c q s) = hosted c q (storedBody s) := by
  unfold storedBody
  rw [show alignRead (hosted c q s) = hosted c q (alignRead s) from rfl, readBits_hosted]
  rcases readBits 16 .lsb (alignRead s) with s1 | ⟨len, s1⟩
  · rfl
  · simp only [mapAnswer, Prod.map, id, readBits_hosted]
    rcases readBits 16 .lsb s1 with s2 | ⟨nlen, s2⟩
    · rfl
    · simp only [mapAnswer, Prod.map, id, copyRaw_hosted]
      rw [apply_ite (hosted c q)]
      refine if_congr Iff.rfl rfl ?_
      rcases copyRaw len s2 with s3 | s3
      · rfl
      · exact endOfBlock_hosted c q s3

theorem readClLengths_hosted (order cl : List Nat) (s : State) :
    readClLengths order cl (hosted c q s) = hostedRead c q (readClLengths order cl s) := by
  induction order generalizing cl s with
  | nil => rfl
  | cons i order ih =>
    rw [readClLengths, readClLengths, readBits_hosted]
    rcases readBits 3 .lsb s with s1 | ⟨x, s1⟩
    · rfl
    · exact ih (cl.set i x) s1

theorem treeFromLengths_hosted (ls : List Nat) (m : Nat) (s : State) :
    treeFromLengths ls m (hosted c q s) = mapAnswer (hosted c q) id (treeFromLengths ls m s) := by
  unfold treeFromLengths
  split <;> rfl

theorem buildClTree_hosted (cl : List Nat) (nlen ndist : Nat) (s : State) :
    buildClTree cl nlen ndist (hosted c q s) = hosted c q (buildClTree cl nlen ndist s) := by
  unfold buildClTree
  rw [treeFromLengths_hosted]
  rcases treeFromLengths cl maxBitsCl s with s1 | t <;> rfl

theorem dynamicBody_hosted (s : State) : dynamicBody (hosted c q s) = hosted c q (dynamicBody s) := by
  unfold dynamicBody
  rw [readBits_hosted]
  rcases readBits 5 .lsb s with s1 | ⟨hlit, s1⟩
  · rfl
  simp only [mapAnswer, Prod.map, id, readBits_hosted]
  rcases readBits 5 .lsb s1 with s2 | ⟨hdist, s2⟩
  · rfl
  simp only [mapAnswer, Prod.map, id, readBits_hosted]
  rcases readBits 4 .lsb s2 with s3 | ⟨hclen, s3⟩
  · rfl
  simp only [mapAnswer, Prod.map, id, readClLengths_hosted]
  rw [apply_ite (hosted c q)]
  refine if_congr Iff.rfl rfl ?_
  rcases readClLengths (clOrder.take (hclen + 4)) (List.replicate 19 0) s3 with s4 | ⟨cl, s4⟩
  · rfl
  · exact buildClTree_hosted c q cl _ _ s4

theorem headerElement_hosted (v : Nat) (s : State) : headerElement v (hosted c q s) = hosted c q (headerElement v s) := by
  unfold headerElement
  split
  · exact storedBody_hosted c q (takeHeader _ _ _ s)
  · rfl
  · exact dynamicBody_hosted c q (takeHeader _ _ _ s)
  · rfl

theorem buildBlockTrees_hosted (s : State) : buildBlockTrees (hosted c q s) = hosted c q (buildBlockTrees s) := by
  unfold buildBlockTrees
  rw [show treeFromLengths ((hosted c q s).dynLens.take (hosted c q s).dynNlen) maxBitsBlock (hosted c q s) = _ from
    treeFromLengths_hosted c q (s.dynLens.take s.dynNlen) maxBitsBlock s]
  rcases treeFromLengths (s.dynLens.take s.dynNlen) maxBitsBlock s with s1 | tl
  · rfl
  simp only [mapAnswer, id]
  rw [show treeFromLengths ((hosted c q s).dynLens.drop (hosted c q s).dynNlen) maxBitsBlock { hosted c q s with tLl := tl } = _ from
    treeFromLengths_hosted c q (s.dynLens.drop s.dynNlen) maxBitsBlock { s with tLl := tl }]
  rcases treeFromLengths (s.dynLens.drop s.dynNlen) maxBitsBlock { s with tLl := tl } with s2 | td <;> rfl

theorem appendLengths_hosted (xs : List Nat) (s : State) : appendLengths xs (hosted c q s) = hosted c q (appendLengths xs s) := by
  unfold appendLengths
  rw [apply_ite (hosted c q)]
  exact if_congr Iff.rfl (buildBlockTrees_hosted c q { s with dynLens := s.dynLens ++ xs }) rfl

theorem repeatLengths_hosted (extra base val : Nat) (s : State) :
    repeatLengths extra base val (hosted c q s) = hosted c q (repeatLengths extra base val s) := by
  unfold repeatLengths
  rw [readBits_hosted]
  rcases readBits extra .lsb s with s1 | ⟨e, s1⟩
  · rfl
  simp only [mapAnswer, Prod.map, id]
  rw [apply_ite (hosted c q)]
  exact if_congr Iff.rfl rfl (appendLengths_hosted c q _ s1)

theorem repeatPrevious_hosted (s : State) : repeatPrevious (hosted c q s) = hosted c q (repeatPrevious s) := by
  unfold repeatPrevious
  rw [show (hosted c q s).dynLens = s.dynLens from rfl]
  split
  · rfl
  · exact repeatLengths_hosted c q _ _ _ s

theorem clElement_hosted (v : Nat) (s : State) : clElement v (hosted c q s) = hosted c q (clElement v s) := by
  unfold clElement
  simp only [apply_ite (hosted c q), appendLengths_hosted, repeatPrevious_hosted, repeatLengths_hosted]
  rfl

theorem lengthSymbol_hosted (x : Nat) (s : State) : lengthSymbol x (hosted c q s) = hosted c q (lengthSymbol x s) := by
  unfold lengthSymbol
  rw [readBits_hosted]
  rcases readBits (rowOf lenTab x).extra .lsb s with s1 | ⟨e, s1⟩
  · rfl
  simp only [mapAnswer, Prod.map, id]
  rw [apply_ite (hosted c q)]
  rfl

theorem llElement_hosted (v : Nat) (s : State) : llElement v (hosted c q s) = hosted c q (llElement v s) := by
  unfold llElement
  simp only [apply_ite (hosted c q), endOfBlock_hosted, lengthSymbol_hosted]
  rfl

theorem copyMatch_hosted (d n : Nat) (s : State) : copyMatch d n (hosted c q s) = hosted c q (copyMatch d n s) := by
  induction n generalizing s with
  | zero => rfl
  | succ n ih => exact ih (appendOut (s.out.getD (s.out.length - d) 0) s)

theorem performMatch_hosted (d : Nat) (s : State) : performMatch d (hosted c q s) = hosted c q (performMatch d s) := by
  unfold performMatch
  rw [apply_ite (hosted c q)]
  exact if_congr Iff.rfl rfl (copyMatch_hosted c q d _ { s with lenPending := none })

theorem dElement_hosted (v : Nat) (s : State) : dElement v (hosted c q s) = hosted c q (dElement v s) := by
  unfold dElement distanceSymbol
  rw [apply_ite (hosted c q)]
  refine if_congr Iff.rfl rfl ?_
  rw [readBits_hosted]
  rcases readBits (rowOf distTab v).extra .lsb s with s1 | ⟨e, s1⟩
  · rfl
  · exact performMatch_hosted c q _ s1

theorem performElement_hosted (f : Format) (v : Nat) (s : State) :
    performElement f v (hosted c q s) = hosted c q (performElement f v s) := by
  cases f with
  | cmd64 => rfl
  | blkHdr => exact headerElement_hosted c q v s
  | llSym => exact llElement_hosted c q v s
  | dSym => exact dElement_hosted c q v s
  | clSym => exact clElement_hosted c q v s

theorem fetchHeader_hosted (s : State) : fetchHeader (hosted c q s) = hostedRead c q (fetchHeader s) := by
  unfold fetchHeader
  rw [readBits_hosted]
  rcases readBits 1 .lsb s with s1 | ⟨x, s1⟩
  · rfl
  simp only [mapAnswer, Prod.map, id]
  rw [show readBits 2 .lsb { hosted c q s1 with bfinal := x == 1 } = _ from readBits_hosted c q 2 .lsb { s1 with bfinal := x == 1 }]
  rcases readBits 2 .lsb { s1 with bfinal := x == 1 } with s2 | ⟨y, s2⟩ <;> rfl

theorem fetchElement_hosted (f : Format) (s : State) : fetchElement f (hosted c q s) = hostedRead c q (fetchElement f s) := by
  cases f with
  | cmd64 => rfl
  | blkHdr => exact fetchHeader_hosted c q s
  | llSym => exact decodeSym_hosted c q s.tLl s
  | dSym => exact decodeSym_hosted c q s.tD s
  | clSym => exact decodeSym_hosted c q s.tCl s

theorem inflateStep_hosted (s : State) : inflateStep (hosted c q s) = hosted c q (inflateStep s) := by
  unfold inflateStep
  rw [show (hosted c q s).bcState = s.bcState from rfl, show nextFormat (hosted c q s) = nextFormat s from rfl]
  have element : (match nextFormat s with
      | none => hosted c q s
      | some f => match fetchElement f (hosted c q s) with
        | .error s' => s'
        | .ok (v, s') => performElement f v s') = hosted c q (match nextFormat s with
      | none => s
      | some f => match fetchElement f s with
        | .error s' => s'
        | .ok (v, s') => performElement f v s') := by
    cases nextFormat s with
    | none => rfl
    | some f =>
      simp only [fetchElement_hosted]
      rcases fetchElement f s with s1 | ⟨v, s1⟩
      · rfl
      · exact performElement_hosted c q f v s1
  cases s.bcState with
  | stored => exact storedBody_hosted c q s
  | readHeader | dynamicHuffman | blockBody => exact element
  | fixedHuffman | idle | done | failed => rfl

theorem inflateRun_hosted (k : Nat) (s : State) : inflateRun k (hosted c q s) = hosted c q (inflateRun k s) := by
  induction k generalizing s with
  | zero => rfl
  | succ k ih =>
    rw [inflateRun, inflateRun, apply_ite (hosted c q), inflateStep_hosted, ih]
    rfl

theorem encodeSymbols_hosted (t : Tree) (xs : List Sym) (s : State) :
    encodeSymbols t xs (hosted c q s) = mapAnswer (hosted c q) (hosted c q) (encodeSymbols t xs s) := by
  induction xs generalizing s with
  | nil => rfl
  | cons x xs ih =>
    rw [encodeSymbols, encodeSymbols, apply_ite (mapAnswer (hosted c q) (hosted c q))]
    exact if_congr Iff.rfl rfl (ih (encodeSym t x.toNat s))

theorem decodeSymbols_hosted (t : Tree) (k : Nat) (s : State) :
    decodeSymbols t k (hosted c q s) = mapAnswer (hosted c q) (hosted c q) (decodeSymbols t k s) := by
  induction k generalizing s with
  | zero => rfl
  | succ k ih =>
    rw [decodeSymbols, decodeSymbols, decodeSym_hosted]
    rcases decodeSym t s with s1 | ⟨x, s1⟩
    · rfl
    · exact ih { s1 with sym := s1.sym ++ [BitVec.ofNat 16 x] }

theorem hufEncodeResult_hosted (s : State) : hufEncodeResult (hosted c q s) = hosted c q (hufEncodeResult s) := by
  unfold hufEncodeResult
  rw [show encodeSymbols (hosted c q s).tUser (hosted c q s).sym (hosted c q s) = _ from encodeSymbols_hosted c q s.tUser s.sym s]
  rcases encodeSymbols s.tUser s.sym s with s1 | s1 <;> rfl

theorem hufDecodeResult_hosted (n : Nat) (s : State) : hufDecodeResult n (hosted c q s) = hosted c q (hufDecodeResult n s) := by
  unfold hufDecodeResult
  rw [show decodeSymbols (hosted c q s).tUser n { hosted c q s with sym := [] } = _ from
    decodeSymbols_hosted c q s.tUser n { s with sym := [] }]
  rcases decodeSymbols s.tUser n { s with sym := [] } with s1 | s1 <;> rfl

theorem writeStoredBlocks_hosted (cs : List (List Byte)) (s : State) :
    writeStoredBlocks cs (hosted c q s) = hosted c q (writeStoredBlocks cs s) := by
  have block (b : Bool) (x : List Byte) (s : State) : writeStoredBlock b x (hosted c q s) = hosted c q (writeStoredBlock b x s) := by
    simp only [writeStoredBlock, writeRaw_spec]
    rfl
  induction cs generalizing s with
  | nil => rfl
  | cons x cs ih =>
    cases cs with
    | nil => exact block true x s
    | cons y cs => rw [writeStoredBlocks, writeStoredBlocks, block, ih]

theorem writeTokens_hosted (ts : List Token) (s : State) : writeTokens ts (hosted c q s) = hosted c q (writeTokens ts s) := by
  induction ts generalizing s with
  | nil => rfl
  | cons t ts ih =>
    cases t with
    | literal b => exact ih (writeToken (.literal b) s)
    | backRef len d => exact ih (writeToken (.backRef len d) s)

theorem deflateResult_hosted (mode : Nat) (s : State) : deflateResult mode (hosted c q s) = hosted c q (deflateResult mode s) := by
  unfold deflateResult
  split
  · exact congrArg (finish .nothing) (writeStoredBlocks_hosted c q _ (goTo .idle { s with bits := [], rpos := 0 }))
  · exact congrArg (fun u => finish .nothing (encodeSym fixedLl eobSymbol u))
      (writeTokens_hosted c q _ (writeHeader true 1 (scanned (goTo .idle { s with bits := [], rpos := 0 }))))

end

end Sys2Proof.Machine

namespace Sys2Proof.Machine

open Sys2Proof Sys2Proof.Claims

/-! ### Refusals (R13, R203, R204) -/

/-- The greatest length of a buffer is the limit that the claims name (R13). -/
theorem le_lengthLimit_iff {c : Config} {cap : Option Nat} {n : Nat} : n ≤ lengthLimit c cap ↔ within c cap n := by
  cases cap with
  | none => simp [lengthLimit, within, counterMax]
  | some k => simp only [lengthLimit, within, counterMax, Nat.le_min, Option.all_some, decide_eq_true_eq, and_comm]

theorem bitsFit_iff {s : State} : bitsFit s = true ↔ within s.cfg none s.bits.length := by
  rw [← le_lengthLimit_iff]; exact decide_eq_true_iff

theorem outFits_iff {s : State} : outFits s = true ↔ within s.cfg s.cfg.outCap s.out.length := by
  rw [← le_lengthLimit_iff]; exact decide_eq_true_iff

theorem symFits_iff {s : State} : symFits s = true ↔ within s.cfg s.cfg.symCap s.sym.length := by
  rw [← le_lengthLimit_iff]; exact decide_eq_true_iff

theorem tokFits_iff {s : State} : tokFits s = true ↔ within s.cfg s.cfg.tokCap s.tok.length := by
  rw [← le_lengthLimit_iff]; exact decide_eq_true_iff

theorem unlessFailed_of_refused {s : State} {body : State → State} (h : body s = refuse s) : unlessFailed body s = refuse s := by
  unfold unlessFailed
  split
  · rfl
  · exact h

theorem readRegister_reserved {r : Nat} (h : 11 < r) (s : State) : readRegister r s = none := by
  obtain ⟨k, rfl⟩ : ∃ k, r = k + 12 := ⟨r - 12, by omega⟩
  rfl

theorem readBuffer_reserved {b : Nat} (h : 4 < b) (s : State) : readBuffer b s = none := by
  obtain ⟨k, rfl⟩ : ∃ k, b = k + 5 := ⟨b - 5, by omega⟩
  rfl

/-- A write of a register, or a value, that R62 does not allow is refused (R182). -/
theorem writeRegister_refused {r : BitVec 8} {val : BitVec 32} (h : WellFormed.regWritable r val = false) (s : State) :
    writeRegister r val s = refuse s := by
  simp only [WellFormed.regWritable, Bool.or_eq_false_iff, Bool.and_eq_false_iff, beq_eq_false_iff_ne, decide_eq_false_iff_not] at h
  unfold writeRegister
  split
  case h_1 hr => exact if_pos (by omega)
  case h_2 hr => exact if_pos (by omega)
  case h_3 => rfl

/-- A buffer that `LDBUF` does not load is refused (R183). -/
theorem loadBuffer_refused {b : BitVec 8} (h0 : b.toNat ≠ 0) (h2 : b.toNat ≠ 2) (h4 : b.toNat ≠ 4) (n : BitVec 32) (s : State) :
    loadBuffer b n s = .next (refuse s) := by
  unfold loadBuffer
  split
  · exact absurd ‹_› h0
  · exact absurd ‹_› h2
  · exact absurd ‹_› h4
  · rfl

/-- An ill-formed instruction is refused in every state (R63, R204). -/
theorem exec_of_not_wellFormed {i : Instr} (h : i.wellFormed = false) (s : State) : exec i s = .next (refuse s) := by
  cases i with
  | rdreg r =>
    have hr : ¬ r.toNat ≤ 11 := of_decide_eq_false h
    simp only [exec, execRdreg, readRegister_reserved (Nat.not_le.mp hr)]
  | wrreg r val => exact congrArg Host.Outcome.next (unlessFailed_of_refused (writeRegister_refused h s))
  | ldbuf b n =>
    simp only [Instr.wellFormed, Bool.or_eq_false_iff, beq_eq_false_iff_ne] at h
    obtain ⟨⟨h0, h2⟩, h4⟩ := h
    simp only [exec, execLdbuf, loadBuffer_refused h0 h2 h4, ite_self]
  | rdbuf b =>
    have hb : ¬ b.toNat ≤ 4 := of_decide_eq_false h
    simp only [exec, execRdbuf, readBuffer_reserved (Nat.not_le.mp hb)]
  | bsPushbits value count o =>
    have hc : ¬ count.toNat ≤ 32 := of_decide_eq_false h
    exact congrArg Host.Outcome.next (unlessFailed_of_refused (if_pos (Nat.not_le.mp hc)))
  | bsReadbits count o =>
    have hc : ¬ count.toNat ≤ 32 := of_decide_eq_false h
    exact congrArg Host.Outcome.next (unlessFailed_of_refused (if_pos (Nat.not_le.mp hc)))
  | deflate mode =>
    have hm : ¬ mode.toNat ≤ 1 := of_decide_eq_false h
    exact congrArg Host.Outcome.next (unlessFailed_of_refused (if_pos (Nat.not_le.mp hm)))
  | _ => cases h

/-- A command that is not refused in a machine with other parameters shows the result it would have: the same but for the
parameters (R13; log entry 7). -/
theorem result_of_other_config {g : State → State} (hg : ∀ c q s, g (hosted c q s) = hosted c q (g s)) {fits : Bool} {s t : State}
    {c : Config} (h : unlessTooLong fits (g (hosted c s.cmds s)) (hosted c s.cmds s) = t) (hr : t.result ≠ .refused) :
    (g s).cfg = s.cfg ∧ (g s).bits = t.bits ∧ (g s).sym = t.sym ∧ (g s).tok = t.tok := by
  refine ⟨cfg_of_hosted hg s, ?_⟩
  obtain ⟨-, he⟩ | ⟨-, he⟩ := unlessTooLong_cases fits (g (hosted c s.cmds s)) (hosted c s.cmds s) <;> rw [he] at h <;> subst h
  · rw [hg]; exact ⟨rfl, rfl, rfl⟩
  · exact absurd rfl hr

/-- Settles O7: the operands by their ranges; a result past a limit because the parameters do not enter it. -/
theorem operandsOutOfRangeAreRefused : Obligations.OperandsOutOfRangeAreRefused := by
  unfold Obligations.OperandsOutOfRangeAreRefused
  refine ⟨fun s i h => exec_of_not_wellFormed h s, fun s t i c hs h hr hlong => ?_⟩
  change exec i (hosted c s.cmds s) = _ at h
  have hs' : (hosted c s.cmds s).bcState ≠ .failed := hs
  obtain ⟨rfl, hb, hno⟩ | ⟨⟨n, rfl⟩, hb, hno⟩ | ⟨rfl, hno⟩ | ⟨m, rfl, hno⟩ := hlong
  · have hbody (u : State) (hu : u.tUser.built = true) :
        hufEncode u = unlessTooLong (bitsFit (hufEncodeResult u)) (hufEncodeResult u) u :=
      if_pos hu
    simp only [exec, execHufEncode, unlessFailed_of_ne_failed hs, unlessFailed_of_ne_failed hs', hbody s hb,
      hbody (hosted c s.cmds s) hb, Host.Outcome.next.injEq] at h ⊢
    obtain ⟨hcfg, hbits, -, -⟩ := result_of_other_config hufEncodeResult_hosted h hr
    rw [← hbits, ← hcfg, ← bitsFit_iff, Bool.not_eq_true] at hno
    rw [hno]; rfl
  · have hbody (u : State) (hu : u.tUser.built = true) :
        hufDecode n.toNat u = unlessTooLong (symFits (hufDecodeResult n.toNat u)) (hufDecodeResult n.toNat u) u := if_pos hu
    simp only [exec, execHufDecode, unlessFailed_of_ne_failed hs, unlessFailed_of_ne_failed hs', hbody s hb,
      hbody (hosted c s.cmds s) hb, Host.Outcome.next.injEq] at h ⊢
    obtain ⟨hcfg, -, hsym, -⟩ := result_of_other_config (fun c q => hufDecodeResult_hosted c q n.toNat) h hr
    rw [← hsym, ← hcfg, ← symFits_iff, Bool.not_eq_true] at hno
    rw [hno]; rfl
  · simp only [exec, execLzScan, unlessFailed_of_ne_failed hs, unlessFailed_of_ne_failed hs', lzScan, Host.Outcome.next.injEq] at h ⊢
    obtain ⟨hcfg, -, -, htok⟩ := result_of_other_config (g := fun u => finish .nothing (scanned u)) (fun _ _ _ => rfl) h hr
    have hno : tokFits (scanned s) = false := by
      rw [← htok, ← hcfg, ← tokFits_iff, Bool.not_eq_true] at hno
      exact hno
    rw [hno]; rfl
  · by_cases hm : 1 < m.toNat
    · exact congrArg Host.Outcome.next ((unlessFailed_of_ne_failed hs).trans (if_pos hm))
    · have hbody (u : State) : deflate m.toNat u = unlessTooLong (deflateFits m.toNat u) (deflateResult m.toNat u) u := if_neg hm
      simp only [exec, execDeflate, unlessFailed_of_ne_failed hs, unlessFailed_of_ne_failed hs', hbody, Host.Outcome.next.injEq] at h ⊢
      obtain ⟨hcfg, hbits, -, htok⟩ := result_of_other_config (fun c q => deflateResult_hosted c q m.toNat) h hr
      rw [← hbits, ← htok, ← hcfg, ← bitsFit_iff, ← tokFits_iff] at hno
      have hfits : deflateFits m.toNat s = false := by
        unfold deflateFits
        obtain hno | ⟨h1, hno⟩ := hno <;> rw [Bool.not_eq_true] at hno
        · rw [hno, Bool.false_and]
        · have hmode : (m.toNat == 0) = false := by rw [h1]; rfl
          rw [hno, hmode, Bool.or_self, Bool.and_false]
      rw [hfits]; rfl

end Sys2Proof.Machine

namespace Sys2Proof.Machine

open Sys2Proof Sys2Proof.Claims

/-! ### The run of an `INFLATE` (R13, R150, R232) -/

/-- The bits that an `INFLATE` has not read. -/
def remaining (s : State) : Nat := s.bits.length - s.rpos

theorem inflateStep_of_nextFormat {s : State} {f : Format} (h : nextFormat s = some f) :
    inflateStep s = settled ((fetchElement f s).map fun p => performElement f p.1 p.2) := by
  have hstep : inflateStep s = match nextFormat s with
      | none => s
      | some f => match fetchElement f s with
        | .error s' => s'
        | .ok (v, s') => performElement f v s' := by
    unfold inflateStep
    cases hb : s.bcState with
    | readHeader | dynamicHuffman | blockBody => rfl
    | _ => simp [nextFormat, hb] at h
  rw [hstep, h]
  simp only
  rcases fetchElement f s with s1 | ⟨v, s1⟩ <;> rfl

/-- The numbers that a step inside a block can read fit in a word (R70, R157, R159). -/
theorem symbolLimit_le {s : State} {f : Format} (hi : BlockInv s) (hx : Expects f s) : symbolLimit f s ≤ 288 := by
  cases f with
  | cmd64 => exact Nat.zero_le _
  | blkHdr => simp only [symbolLimit]; omega
  | llSym => exact (hi.blockTrees hx.1).2.1
  | dSym => have := (hi.blockTrees hx).2.2.2; simp only [symbolLimit]; omega
  | clSym =>
    obtain ⟨-, -, -, -, -, -, hn⟩ := hi.dynRunning hx
    simp only [symbolLimit]; omega

/-- Inside a block the step of the machine is the step of `INFLATE`'s own run (R150). -/
theorem step_eq_inflateStep {s : State} (hi : BlockInv s) (hr : running s = true) : step s = .next (inflateStep s) := by
  obtain ⟨f, hf⟩ | ⟨hb, he⟩ | ⟨hb, he⟩ := running_cases hr
  · obtain ⟨hne, hx, he⟩ := nextFormat_inv hf
    rw [he, inflateStep_of_nextFormat hf, stepElement]
    cases hfetch : fetchElement f s with
    | error s1 => rfl
    | ok p =>
      obtain ⟨v, s1⟩ := p
      obtain ⟨v', hrun, hv⟩ := runDecoded_element hne v s1
      have hlt := (fetchElement_ok_inv hne hfetch).1
      have hle := symbolLimit_le hi hx
      rw [hv (by omega)] at hrun
      exact hrun
  · rw [he]; simp only [inflateStep, hb]
  · rw [he]; simp only [inflateStep, hb]

theorem inflateStep_leaves {s : State} (hi : BlockInv s) (hr : running s = true) : StepLeaves s (inflateStep s) := by
  obtain ⟨t, ht, hl⟩ := step_leaves hr
  rw [step_eq_inflateStep hi hr] at ht
  cases ht
  exact hl

/-- An element ends between two elements, not inside a header. -/
theorem Performed.not_inHeader {f : Format} {v : Nat} {s t : State} (h : Performed f v s t) (hs : ¬ InHeader s) : ¬ InHeader t := by
  cases h with
  | raised k _ => rintro (h | h) <;> cases h
  | @ended u _ _ _ => obtain hb | hb := endOfBlock_bcState u <;> rintro (h | h) <;> rw [hb] at h <;> cases h
  | continued _ hst _ =>
    rintro hh
    obtain hb | hb | hb := hst
    · exact hs (by unfold InHeader at hh ⊢; rwa [hb] at hh)
    · obtain h | h := hh <;> rw [hb] at h <;> cases h
    · obtain h | h := hh <;> rw [hb] at h <;> cases h

/-- What a stepwise run of `INFLATE` keeps. -/
structure RunInv (s : State) : Prop extends BlockInv s where
  between : ¬ InHeader s

/-- Each step of a run ends the run or reads a bit (R232), and writes at most 258 bytes for each bit it reads. -/
theorem inflateStep_progress {s : State} (h : RunInv s) (hr : running s = true) :
    RunInv (inflateStep s) ∧ (running (inflateStep s) = true → remaining (inflateStep s) < remaining s) ∧
      (inflateStep s).out.length + 258 * remaining (inflateStep s) ≤ s.out.length + 258 * remaining s := by
  have hl := inflateStep_leaves h.toBlockInv hr
  have hblock := hl.blockInv h.toBlockInv
  generalize inflateStep s = t at hl hblock ⊢
  cases hl with
  | stopped k n b hn =>
    refine ⟨⟨hblock, by rintro (h | h) <;> cases h⟩, (nomatch ·), ?_⟩
    have hrem : remaining (raise k (s.rpos + n) (readTo n b s)) = s.bits.length - (s.rpos + n) := rfl
    have hout : (raise k (s.rpos + n) (readTo n b s)).out = s.out := rfl
    rw [hrem, hout, remaining]
    omega
  | @performed f v n b t hn hpos _ hp =>
    have hpos : 0 < n := hpos.resolve_left h.between
    obtain ⟨xs, hout, hfwd⟩ := hp.out
    obtain ⟨h1, h2, h3⟩ := hfwd (show s.rpos + n ≤ s.bits.length by omega)
    have hxs := h3 h.pending_le
    have h1 : s.rpos + n ≤ t.rpos := h1
    have hxs : xs.length ≤ 258 * (t.rpos - (s.rpos + n) + 1) := hxs
    have hout : t.out.length = s.out.length + xs.length := by rw [hout, List.length_append]; rfl
    have hrem : remaining t = s.bits.length - t.rpos := by rw [remaining, hp.frame.bits]; rfl
    have h2 : t.rpos ≤ s.bits.length := h2
    refine ⟨⟨hblock, hp.not_inHeader h.between⟩, fun _ => ?_, ?_⟩
    · rw [hrem, remaining]; omega
    · rw [hrem, hout, remaining]; omega

theorem inflateRun_of_not_running {s : State} (h : running s = false) (k : Nat) : inflateRun k s = s := by
  cases k with
  | zero => rfl
  | succ k => rw [inflateRun, h]; rfl

theorem inflateRun_succ {s : State} (h : running s = true) (k : Nat) : inflateRun (k + 1) s = inflateRun k (inflateStep s) := by
  rw [inflateRun, if_pos h]

/-- With no command behind it the machine's run is the run of `INFLATE` (R150). -/
theorem run_eq_inflateRun {s : State} (h : RunInv s) (hq : s.cmds = []) (k : Nat) : run k s = .next (inflateRun k s) := by
  induction k generalizing s with
  | zero => rfl
  | succ k ih =>
    by_cases hr : running s = true
    · obtain ⟨hinv, -, -⟩ := inflateStep_progress h hr
      have hq' : (inflateStep s).cmds = [] := (inflateStep_leaves h.toBlockInv hr).frame.cmds.trans hq
      rw [inflateRun_succ hr, run, step_eq_inflateStep h.toBlockInv hr]
      exact ih hinv hq'
    · have hr : running s = false := Bool.not_eq_true _ ▸ hr
      rw [inflateRun_of_not_running hr, run, step_of_not_running hr, stepCommand, hq]
      exact (ih h hq).trans (by rw [inflateRun_of_not_running hr])

/-- A run ends after one step for each bit that remains, and one more (R232). -/
theorem inflateRun_ends {s : State} (h : RunInv s) {k : Nat} (hk : remaining s < k) : running (inflateRun k s) = false := by
  induction k generalizing s with
  | zero => omega
  | succ k ih =>
    by_cases hr : running s = true
    · obtain ⟨hinv, hless, -⟩ := inflateStep_progress h hr
      rw [inflateRun_succ hr]
      by_cases hr' : running (inflateStep s) = true
      · exact ih hinv (by have := hless hr'; omega)
      · have hr' : running (inflateStep s) = false := Bool.not_eq_true _ ▸ hr'
        rwa [inflateRun_of_not_running hr']
    · have hr : running s = false := Bool.not_eq_true _ ▸ hr
      rwa [inflateRun_of_not_running hr]

/-- A run writes at most 258 bytes for each bit that remains (R13). -/
theorem inflateRun_out_le {s : State} (h : RunInv s) (k : Nat) : (inflateRun k s).out.length ≤ s.out.length + 258 * remaining s := by
  induction k generalizing s with
  | zero => exact Nat.le_add_right _ _
  | succ k ih =>
    by_cases hr : running s = true
    · obtain ⟨hinv, -, hout⟩ := inflateStep_progress h hr
      rw [inflateRun_succ hr]
      exact (ih hinv).trans hout
    · rw [inflateRun_of_not_running (Bool.not_eq_true _ ▸ hr)]
      exact Nat.le_add_right _ _

theorem inflateRun_add (j k : Nat) (s : State) : inflateRun (j + k) s = inflateRun k (inflateRun j s) := by
  induction j generalizing s with
  | zero => rw [Nat.zero_add]; rfl
  | succ j ih =>
    by_cases hr : running s = true
    · rw [Nat.add_right_comm, inflateRun_succ hr, inflateRun_succ hr, ih]
    · have hr : running s = false := Bool.not_eq_true _ ▸ hr
      simp only [inflateRun_of_not_running hr]

/-- All runs that have ended have ended in the same state. -/
theorem inflateRun_unique {s : State} {j k : Nat} (hj : running (inflateRun j s) = false) (hk : running (inflateRun k s) = false) :
    inflateRun j s = inflateRun k s := by
  calc inflateRun j s = inflateRun (j + k) s := by rw [inflateRun_add, inflateRun_of_not_running hj]
    _ = inflateRun k s := by rw [Nat.add_comm, inflateRun_add, inflateRun_of_not_running hk]

/-- The start of `INFLATE` is between two elements, with nothing pending (R150, R151). -/
theorem inflateStart_runInv (s : State) : RunInv (inflateStart s) where
  toBlockInv := .of_quiet ⟨rfl, rfl, rfl, rfl⟩ (by simp [inflateStart]) (by simp [inflateStart])
  between := by rintro (h | h) <;> cases h

theorem inflateWhole_ends (s : State) : running (inflateWhole s) = false :=
  inflateRun_ends (inflateStart_runInv s) (Nat.lt_succ_self _)

theorem inflateWhole_cfg (s : State) : (inflateWhole s).cfg = s.cfg :=
  cfg_of_hosted (g := inflateRun (inflateFuel s)) (fun c q => inflateRun_hosted c q _) (inflateStart s)

theorem within_of_le {c : Config} {cap : Option Nat} {m n : Nat} (hmn : m ≤ n) (h : within c cap n) : within c cap m :=
  le_lengthLimit_iff.mp (hmn.trans (le_lengthLimit_iff.mpr h))

theorem exec_inflate {s : State} (hs : s.bcState ≠ .failed) :
    exec .inflate s = .next (if outFits (inflateWhole s) then inflateStart s else refuse s) :=
  congrArg Host.Outcome.next (unlessFailed_of_ne_failed hs)

/-- Settles O42: the whole run is the one the statement names, the host's queue not being read; it writes at most 258 bytes a bit. -/
theorem inflateStartsAtTheCursor : Obligations.InflateStartsAtTheCursor := by
  unfold Obligations.InflateStartsAtTheCursor
  intro s hs
  have hfits : outFits (inflateWhole s) = true ↔ within s.cfg s.cfg.outCap (inflateWhole s).out.length := by
    rw [outFits_iff, inflateWhole_cfg]
  refine ⟨fun hw => ?_, fun t v k ht hrun hend => ?_⟩
  · have hout : (inflateWhole s).out.length ≤ 0 + 258 * remaining s := inflateRun_out_le (inflateStart_runInv s) _
    rw [Nat.zero_add] at hout
    exact ⟨inflateStart s, by rw [exec_inflate hs, if_pos (hfits.mpr (within_of_le hout hw))], rfl, rfl, rfl, rfl⟩
  · obtain rfl : t = inflateStart s := ht
    have hinv : RunInv (hosted s.cfg [] (inflateStart s)) := inflateStart_runInv { s with cmds := [] }
    have hv : v = hosted s.cfg [] (inflateRun k (inflateStart s)) := by
      have h := (run_eq_inflateRun hinv rfl k).symm.trans hrun
      rw [inflateRun_hosted] at h
      cases h
      rfl
    have hstop : running (inflateRun k (inflateStart s)) = false := by
      have hb : v.bcState = (inflateRun k (inflateStart s)).bcState := by rw [hv]; rfl
      rw [hb] at hend
      obtain h | h := hend <;> simp only [running, h]
    have hout : v.out = (inflateWhole s).out := by
      rw [hv, inflateRun_unique hstop (inflateWhole_ends s)]; rfl
    rw [hout, ← hfits, exec_inflate hs]
    exact ⟨fun h => by rw [if_pos h], fun h => by rw [if_neg h]; rfl⟩

end Sys2Proof.Machine

namespace Sys2Proof

/-! ### The fields of a command word (R61)

A command word is the concatenation of its fields, so each field is the slice that `packCommand` put there. -/

section
variable (op a : BitVec 8) (ord : BitVec 1) (v : BitVec 32)

@[simp] theorem opField_packCommand : opField (packCommand op a ord v) = op := BitVec.extractLsb'_append_eq_right

@[simp] theorem aField_packCommand : aField (packCommand op a ord v) = a := by
  rw [aField, packCommand, BitVec.extractLsb'_append_eq_of_le (by decide)]
  exact BitVec.extractLsb'_append_eq_right

@[simp] theorem ordField_packCommand : ordField (packCommand op a ord v) = ord := by
  rw [ordField, packCommand]
  iterate 2 rw [BitVec.extractLsb'_append_eq_of_le (by decide)]
  exact BitVec.extractLsb'_append_eq_right

@[simp] theorem rsvField_packCommand : rsvField (packCommand op a ord v) = 0 := by
  rw [rsvField, packCommand]
  iterate 3 rw [BitVec.extractLsb'_append_eq_of_le (by decide)]
  exact BitVec.extractLsb'_append_eq_right

@[simp] theorem vField_packCommand : vField (packCommand op a ord v) = v := by
  rw [vField, packCommand]
  iterate 3 rw [BitVec.extractLsb'_append_eq_of_le (by decide)]
  exact BitVec.extractLsb'_append_eq_left

end

/-- A word whose `rsv` is 0 is made of its other four fields. -/
theorem packCommand_fields {w : CmdWord} (h : rsvField w = 0) : packCommand (opField w) (aField w) (ordField w) (vField w) = w := by
  rw [packCommand, ← h]
  unfold vField rsvField ordField aField opField
  rw [BitVec.extractLsb'_append_extractLsb'_eq_extractLsb' (by decide), BitVec.extractLsb'_append_extractLsb'_eq_extractLsb' (by decide),
    BitVec.extractLsb'_append_extractLsb'_eq_extractLsb' (by decide)]
  exact BitVec.extractLsb'_append_extractLsb'

/-- A word is the one made of given fields exactly where those are its fields. -/
theorem packCommand_eq_iff {w : CmdWord} {op a : BitVec 8} {ord : BitVec 1} {v : BitVec 32} : packCommand op a ord v = w ↔
    rsvField w = 0 ∧ (opField w).toNat = op.toNat ∧ aField w = a ∧ ordField w = ord ∧ vField w = v := by
  constructor
  · rintro rfl
    simp
  · rintro ⟨hrsv, hop, rfl, rfl, rfl⟩
    rw [← BitVec.eq_of_toNat_eq hop, packCommand_fields hrsv]

@[simp] theorem decodeOrder_encodeOrder (o : Order) : decodeOrder (encodeOrder o) = o := by cases o <;> rfl

@[simp] theorem encodeOrder_decodeOrder (b : BitVec 1) : encodeOrder (decodeOrder b) = b := by
  obtain rfl | rfl := BitVec.eq_zero_or_eq_one b <;> rfl

theorem whenUnused_eq_ok {b : Bool} {i j : Instr} : whenUnused b i = .ok j ↔ b = true ∧ i = j := by
  cases b <;> simp [whenUnused]

theorem noField_iff {w : CmdWord} : noField w = true ↔ aField w = 0 ∧ ordField w = 0 ∧ vField w = 0 := by
  simp [noField, and_assoc]

theorem onlyA_iff {w : CmdWord} : onlyA w = true ↔ ordField w = 0 ∧ vField w = 0 := by simp [onlyA]

theorem onlyV_iff {w : CmdWord} : onlyV w = true ↔ aField w = 0 ∧ ordField w = 0 := by simp [onlyV]

/-! ### Commands (R60 to R63) -/

/-- What a word decodes to encodes to the word: `op` and the fields used are the instruction's, and the decoder has found 0 in the
others. -/
theorem encode_of_decodeCommand {w : CmdWord} {i : Instr} (h : decodeCommand w = .ok i) : encode i = ⟨.cmd64, w⟩ := by
  unfold decodeCommand at h
  split at h
  case isFalse => cases h
  case isTrue hrsv =>
    unfold decodeOpcode at h
    split at h
    case h_9 hop =>
      cases h
      simp [encode, packCommand_eq_iff, hrsv, hop]
    case h_20 => cases h
    all_goals
      rename_i hop
      obtain ⟨hzero, rfl⟩ := whenUnused_eq_ok.mp h
      simp only [noField_iff, onlyA_iff, onlyV_iff, beq_iff_eq] at hzero
      simp [encode, packCommand_eq_iff, hrsv, hop, hzero]

/-! ### Stream elements (R66, R69, R74, R78) -/

/-- The value of a block header: BFINAL in its lowest bit, BTYPE above it (R66). -/
theorem packHeader_toNat (b : Bool) (t : BitVec 2) : (packHeader b t).toNat = b.toNat + 2 * t.toNat := by
  revert t; cases b <;> decide

/-- A value below 8 is the header of its lowest bit and of the bits above it (R66). -/
theorem packHeader_eq {w : CmdWord} {t : BitVec 2} (h : w.toNat / 2 = t.toNat) : packHeader (w.getLsbD 0) t = w := by
  have hbit : (w.getLsbD 0).toNat = w.toNat % 2 := by rw [BitVec.getLsbD, Nat.toNat_testBit]; simp
  exact BitVec.eq_of_toNat_eq (by rw [packHeader_toNat]; omega)

theorem encode_of_decodeHeader {w : CmdWord} {i : Instr} (h : decodeHeader (w.getLsbD 0) (w.toNat / 2) = .ok i) :
    encode i = ⟨.blkHdr, w⟩ := by
  unfold decodeHeader at h
  split at h <;> cases h
  all_goals exact congrArg (Encoded.mk .blkHdr) (packHeader_eq ‹_›)

theorem encode_of_decodeLiteralLength {v : Nat} {i : Instr} (h : decodeLiteralLength v = .ok i) :
    encode i = ⟨.llSym, BitVec.ofNat 64 v⟩ := by
  unfold decodeLiteralLength at h
  split at h
  case isTrue hv =>
    cases h
    exact congrArg (Encoded.mk .llSym) (BitVec.setWidth_ofNat_of_le_of_lt (by decide) hv)
  case isFalse =>
    split at h
    case isTrue hv => cases h; cases hv; rfl
    case isFalse => unfold decodeLengthSymbol at h; split at h <;> cases h <;> rfl

theorem encode_of_decodeDistance {v : Nat} {i : Instr} (h : decodeDistance v = .ok i) : encode i = ⟨.dSym, BitVec.ofNat 64 v⟩ := by
  unfold decodeDistance at h
  split at h <;> cases h <;> rfl

theorem encode_of_decodeCodeLength {v : Nat} {i : Instr} (h : decodeCodeLength v = .ok i) : encode i = ⟨.clSym, BitVec.ofNat 64 v⟩ := by
  unfold decodeCodeLength at h
  split at h
  case h_4 =>
    split at h <;> cases h
    exact congrArg (Encoded.mk .clSym) (BitVec.setWidth_ofNat_of_le_of_lt (by decide) ‹_›)
  all_goals cases h; rfl

/-! ### The decoder and the encoder -/

/-- The decoder reads back a command by the fields that it uses, 0 standing in the others; a header by its two fields; a literal and a
code length by their value; and each other element by its number. -/
theorem decode_encode (i : Instr) : decode (encode i).format (encode i).word = .ok i := by
  cases i with
  | reset | rdreg _ | wrreg _ _ | ldbuf _ _ | rdbuf _ | bsClear | bsLoad _ | bsPush _ | bsPushbits _ _ _ | bsRead | bsReadbits _ _
  | bsTobytes | hufCount | hufBuild | hufEncode | hufDecode _ | lzScan | inflate | deflate _ =>
    simp [encode, decode, decodeCommand, decodeOpcode, whenUnused_eq_ok, noField_iff, onlyA_iff, onlyV_iff]
  | blockStored b | blockFixed b | blockDynamic b | blockReserved b => cases b <;> rfl
  | llLiteral b =>
    change decodeLiteralLength (b.setWidth 64).toNat = _
    rw [BitVec.toNat_setWidth_of_le (by decide), decodeLiteralLength, if_pos b.isLt, BitVec.ofNat_toNat, BitVec.setWidth_eq]
  | clLength len => revert len; decide
  | _ => rfl

/-- What a word of a format decodes to encodes to that format and word. -/
theorem encode_of_decode {f : Format} {w : CmdWord} {i : Instr} (h : decode f w = .ok i) : encode i = ⟨f, w⟩ := by
  cases f with
  | cmd64 => exact encode_of_decodeCommand h
  | blkHdr => exact encode_of_decodeHeader h
  | llSym => simpa using encode_of_decodeLiteralLength h
  | dSym => simpa using encode_of_decodeDistance h
  | clSym => simpa using encode_of_decodeCodeLength h

/-- Settles O53: the decoder finds the encoder's fields and numbers (`decode_encode`). -/
theorem decodeUndoesEncode : Obligations.DecodeUndoesEncode := by
  unfold Obligations.DecodeUndoesEncode
  exact decode_encode

/-- Settles O54: format by format, the decoder leaves no bit of the word unread (`encode_of_decode`). -/
theorem encodeUndoesDecode : Obligations.EncodeUndoesDecode := by
  unfold Obligations.EncodeUndoesDecode
  intro f w i h
  rw [encode_of_decode h]
  exact ⟨rfl, rfl⟩

/-- Settles O52: the encoder's words for sixteen instructions, and three words that are no command. -/
theorem specWordsDecode : Obligations.SpecWordsDecode := by
  unfold Obligations.SpecWordsDecode
  decide

end Sys2Proof

namespace Sys2Proof.Machine

open Sys2Proof Sys2Proof.Claims

/-! ### Length symbols and reserved elements (R72, R79, R160, R163) -/

theorem field_succ (n e : Nat) : field (n + 1) e = e.testBit 0 :: field n (e / 2) := by
  simp [field, List.range_succ_eq_map, Nat.testBit_succ, Function.comp_def]

/-- A field that is read `LSB` has the value it was written with (R91, R93). -/
theorem fieldValue_field {n e : Nat} (h : e < 2 ^ n) : fieldValue (field n e) .lsb = e := by
  change lsbValue (field n e) = e
  induction n generalizing e with
  | zero =>
    obtain rfl : e = 0 := by simpa using h
    rfl
  | succ n ih =>
    rw [field_succ, lsbValue, ih (by omega), Nat.toNat_testBit]
    omega

@[simp] theorem field_length (n e : Nat) : (field n e).length = n := by simp [field]

/-- Extra bits that stand at the cursor are read as their value (R93). -/
theorem readBits_field {s : State} {n e : Nat} (he : e < 2 ^ n) (h : (s.bits.drop s.rpos).take n = field n e) :
    readBits n .lsb s = .ok (e, moveCursor (s.rpos + n) s) := by
  have hlen := congrArg List.length h
  rw [List.length_take, List.length_drop, field_length] at hlen
  rw [readBits_of_le (by omega), h, fieldValue_field he]

/-- The machine's table has the rows of R72, and the instruction of a row is the element of its symbol. -/
theorem lengthRow_eq : ∀ row ∈ lengthRows, encode row.instr = ⟨.llSym, BitVec.ofNat 64 row.symbol⟩ ∧
    257 ≤ row.symbol ∧ row.symbol ≤ 285 ∧ rowOf lenTab row.symbol = ⟨row.symbol, row.extra, row.base, row.top⟩ := by decide

theorem exec_lengthRow {row : Row} (h : row ∈ lengthRows) (s : State) : exec row.instr s = .next (lengthSymbol row.symbol s) := by
  obtain ⟨henc, h1, h2, -⟩ := lengthRow_eq row h
  have hf : row.instr.format = .llSym := congrArg Encoded.format henc
  rw [exec_element (by rw [hf]; decide), hf, henc, BitVec.toNat_ofNat, Nat.mod_eq_of_lt (by omega)]
  simp only [performElement, llElement, eobSymbol, if_neg (show ¬ row.symbol ≤ 255 by omega),
    if_neg (show ¬ row.symbol = 256 by omega), if_pos h2]

/-- Settles O39: the extra bits are read or missing (`readBits`), and symbol 284 is the one that tests its value. -/
theorem lengthSymbolsGiveTheirLength : Obligations.LengthSymbolsGiveTheirLength := by
  unfold Obligations.LengthSymbolsGiveTheirLength
  intro s row hrow
  obtain ⟨-, -, -, htab⟩ := lengthRow_eq row hrow
  simp only [exec_lengthRow hrow, lengthSymbol, htab]
  refine ⟨fun hpos hshort => ?_, fun e he hbits => ⟨fun h => ?_, fun h284 h31 => ?_⟩⟩
  · rw [readBits_of_lt (by omega), ← raise_eq_errorAt]
  · rw [readBits_field he hbits]
    simp only [if_neg (show ¬ (row.symbol = 284 ∧ e = 31) by omega)]
    rfl
  · have hextra : ∀ row ∈ lengthRows, row.symbol = 284 → row.extra = 5 := by decide
    rw [readBits_field he hbits, hextra row hrow h284, ← raise_eq_errorAt]
    simp only [if_pos (And.intro h284 h31)]
    rfl

/-- Settles O41: each reserved element is error entry at the cursor. -/
theorem reservedElementsRaise : Obligations.ReservedElementsRaise := by
  unfold Obligations.ReservedElementsRaise
  intro s
  refine ⟨fun f => ?_, fun i hi => ?_⟩
  · rw [← raise_eq_errorAt]; rfl
  · rw [← raise_eq_errorAt]
    simp only [List.mem_cons, List.not_mem_nil, or_false] at hi
    obtain rfl | rfl | rfl | rfl := hi <;> rfl

/-! ### The arena of a trie, and the fixed trees (R70, R121) -/

/-- The symbol of the leaf at the end of a path of bits in a trie. -/
def trieFind : Trie → List Bool → Option Nat
  | .leaf x, [] => some x
  | .branch left _, false :: w => trieFind left w
  | .branch _ right, true :: w => trieFind right w
  | _, _ => none

theorem trieNodes_length (i : Nat) (t : Trie) : (trieNodes i t).length = trieSize t := by
  induction t generalizing i with
  | missing => rfl
  | leaf _ => rfl
  | branch left right ihl ihr => simp [trieNodes, trieSize, ihl, ihr]; omega

/-- A trie in which a leaf is found has a root. -/
theorem trieRoot_of_trieFind {t : Trie} {w : List Bool} {x : Nat} (h : trieFind t w = some x) (i : Nat) : trieRoot i t = some i := by
  cases t with
  | missing => simp [trieFind] at h
  | leaf _ => rfl
  | branch _ _ => rfl

/-- Where the nodes of a trie stand in an arena, a path to a leaf of the trie leads to that leaf in the arena. -/
theorem follow_of_trieFind {arena rest : List Node} {t : Trie} {w : List Bool} {i x : Nat} (h : trieFind t w = some x)
    (harena : arena.drop i = trieNodes i t ++ rest) : ∃ c, follow arena w i = some c ∧ arena[c]? = some (.leaf x 0) := by
  induction t generalizing i w rest with
  | missing => simp [trieFind] at h
  | leaf y =>
    cases w with
    | cons b w => simp [trieFind] at h
    | nil => cases h; exact ⟨i, rfl, by rw [← List.head?_drop, harena]; rfl⟩
  | branch left right ihl ihr =>
    have hroot : arena[i]? = some (.branch 0 (trieRoot (i + 1) left) (trieRoot (i + 1 + trieSize left) right)) := by
      rw [← List.head?_drop, harena]; rfl
    have hl : arena.drop (i + 1) = trieNodes (i + 1) left ++ (trieNodes (i + 1 + trieSize left) right ++ rest) := by
      rw [← List.drop_drop, harena, trieNodes, ← List.append_assoc]; rfl
    have hr : arena.drop (i + 1 + trieSize left) = trieNodes (i + 1 + trieSize left) right ++ rest := by
      rw [← List.drop_drop, hl, ← trieNodes_length (i + 1) left, List.drop_left]
    cases w with
    | nil => simp [trieFind] at h
    | cons b w =>
      cases b with
      | false =>
        have hfind : trieFind left w = some x := h
        obtain ⟨c, hw, hc⟩ := ihl hfind hl
        exact ⟨c, follow_cons.mpr ⟨_, _, _, _, hroot, trieRoot_of_trieFind hfind _, hw⟩, hc⟩
      | true =>
        have hfind : trieFind right w = some x := h
        obtain ⟨c, hw, hc⟩ := ihr hfind hr
        exact ⟨c, follow_cons.mpr ⟨_, _, _, _, hroot, trieRoot_of_trieFind hfind _, hw⟩, hc⟩

/-- The path to a leaf of the trie of code lengths spells the leaf's symbol in their tree. -/
theorem spells_of_trieFind {lengths : List Nat} {maxbits x : Nat} {w : List Bool} (hw : w ≠ [])
    (h : trieFind (trieOfLengths lengths maxbits) w = some x) : spells (treeOfLengths lengths maxbits) w x := by
  obtain ⟨c, hc, hx⟩ := follow_of_trieFind (arena := (treeOfLengths lengths maxbits).arena) (i := 0) h (List.append_nil _).symm
  exact .inl ⟨hw, c, 0, hc, hx⟩

/-- The walk of a code whose bits lead to the leaf of a symbol in the trie finds the symbol and takes the code's bits (R124). -/
theorem walk_code_of_trieFind {lengths : List Nat} {maxbits x : Nat} {e : CodeEntry} (hx : x < lengths.length) (hpos : 0 < e.length)
    (h : trieFind (trieOfLengths lengths maxbits) (codeBits e) = some x) :
    walk (treeOfLengths lengths maxbits) (codeBits e) (treeOfLengths lengths maxbits).root 0 = (.ok x, e.length) := by
  have hlen : (codeBits e).length = e.length := by simp [codeBits, fieldMsb]
  have hwalk := walk_of_spells (spells_of_trieFind (List.ne_nil_of_length_pos (by omega)) h) []
  rwa [List.append_nil, treeOfLengths_n, if_neg (by omega), hlen] at hwalk

theorem canon_fixedLlLengths : canon fixedLlLengths maxBitsBlock = (List.range 288).map fixedLlCode := by decide +kernel

theorem canon_fixedDLengths : canon fixedDLengths maxBitsBlock = (List.range 32).map fixedDCode := by decide +kernel

theorem trieFind_fixedLl : ∀ x < 288, trieFind (trieOfLengths fixedLlLengths maxBitsBlock) (codeBits (fixedLlCode x)) = some x := by
  decide +kernel

theorem trieFind_fixedD : ∀ d < 32, trieFind (trieOfLengths fixedDLengths maxBitsBlock) (codeBits (fixedDCode d)) = some d := by
  decide +kernel

theorem fixedLlCode_length_pos (x : Nat) : 0 < (fixedLlCode x).length := by
  unfold fixedLlCode
  split_ifs <;> exact Nat.succ_pos _

/-- Settles O29: the tables are the canonical codes of the lengths, and in the tries those codes lead to their symbols. -/
theorem fixedTreesHaveTheirCodes : Obligations.FixedTreesHaveTheirCodes := by
  unfold Obligations.FixedTreesHaveTheirCodes
  refine ⟨fun x hx => ⟨?_, ?_⟩, fun d hd => ⟨?_, ?_⟩⟩
  · change (canon fixedLlLengths maxBitsBlock)[x]? = _
    simp [canon_fixedLlLengths, hx]
  · exact walk_code_of_trieFind (by rwa [← treeOfLengths_n fixedLlLengths maxBitsBlock, ← fixedLl, fixedLl_n])
      (fixedLlCode_length_pos x) (trieFind_fixedLl x hx)
  · change (canon fixedDLengths maxBitsBlock)[d]? = _
    simp [canon_fixedDLengths, hd]
  · exact walk_code_of_trieFind (by rwa [fixedDLengths, List.length_replicate]) (Nat.succ_pos 4) (trieFind_fixedD d hd)

end Sys2Proof.Machine

namespace Sys2Proof.Machine

open Sys2Proof Sys2Proof.Claims

/-! ### Fields in the two pack orders (R8, R91, R93) -/

/-- Bits read `LSB`: bit `k` of the value is the `k`-th bit read, and there is none beyond (R93). -/
theorem testBit_lsbValue (bs : List Bool) (k : Nat) : (lsbValue bs).testBit k = bs.getD k false := by
  induction bs generalizing k with
  | nil => simp [lsbValue]
  | cons b bs ih =>
    cases k with
    | zero => cases b <;> simp [lsbValue, Nat.testBit_zero]
    | succ k =>
      have hdiv : (b.toNat + 2 * lsbValue bs) / 2 = lsbValue bs := by have := b.toNat_lt; omega
      rw [lsbValue, Nat.testBit_succ, hdiv, ih, List.getD_cons_succ]

/-- Bits read `MSB` stand below the value before them (R93). -/
theorem msbValueFrom_div (v : Nat) (bs : List Bool) : msbValueFrom v bs / 2 ^ bs.length = v := by
  induction bs generalizing v with
  | nil => simp [msbValueFrom]
  | cons b bs ih =>
    rw [msbValueFrom, List.length_cons, pow_succ, ← Nat.div_div_eq_div_mul, ih]
    have := b.toNat_lt
    omega

theorem lsbBits_lsbValue (bs : List Bool) : lsbBits (lsbValue bs) bs.length = bs := by
  refine List.ext_getElem (lsbBits_length ..) fun k h1 h2 => ?_
  simp [lsbBits, testBit_lsbValue, h2]

theorem msbBits_msbValueFrom (v : Nat) (bs : List Bool) : msbBits (msbValueFrom v bs) bs.length = bs := by
  induction bs generalizing v with
  | nil => rfl
  | cons b bs ih =>
    have hbit : (msbValueFrom (2 * v + b.toNat) bs).testBit bs.length = b := by
      rw [Nat.testBit_eq_decide_div_mod_eq, msbValueFrom_div]
      cases b <;> simp
    rw [msbValueFrom, List.length_cons, msbBits, hbit, ih]

/-- Bits are the field of the value they are read as (R91, R93). -/
theorem fieldBits_fieldValue (bs : List Bool) (o : Order) : fieldBits (fieldValue bs o) bs.length o = bs := by
  cases o with
  | lsb => exact lsbBits_lsbValue bs
  | msb => exact msbBits_msbValueFrom 0 bs

theorem msbValueFrom_msbBits (a v n : Nat) : msbValueFrom a (msbBits v n) = a * 2 ^ n + v % 2 ^ n := by
  induction n generalizing a with
  | zero => simp [msbBits, msbValueFrom, Nat.mod_one]
  | succ n ih =>
    rw [msbBits, msbValueFrom, ih, Nat.mod_pow_succ, Nat.toNat_testBit]
    ring

/-- A field is read as the value it was written with (R91, R93). -/
theorem fieldValue_fieldBits {v n : Nat} (h : v < 2 ^ n) (o : Order) : fieldValue (fieldBits v n o) o = v := by
  cases o with
  | lsb => exact fieldValue_field h
  | msb =>
    calc msbValueFrom 0 (msbBits v n) = 0 * 2 ^ n + v % 2 ^ n := msbValueFrom_msbBits 0 v n
      _ = v := by rw [Nat.zero_mul, Nat.zero_add, Nat.mod_eq_of_lt h]

theorem msbBits_eq_fieldMsb (v n : Nat) : msbBits v n = fieldMsb n v := by
  induction n with
  | zero => rfl
  | succ n ih => simp [msbBits, ih, fieldMsb, List.range_succ_eq_map, Function.comp_def, Nat.sub_add_eq, Nat.sub_right_comm]

theorem getElem?_lsbBits {v n k : Nat} (hk : k < n) : (lsbBits v n)[k]? = some (v.testBit k) := by simp [lsbBits, hk]

theorem getElem?_msbBits {v n k : Nat} (hk : k < n) : (msbBits v n)[k]? = some (v.testBit (n - 1 - k)) := by
  simp [msbBits_eq_fieldMsb, fieldMsb, hk]

end Sys2Proof.Machine

namespace Sys2Proof.Machine

open Sys2Proof Sys2Proof.Claims

/-! ### The commands of the BitStream unit (R96 to R103) -/

/-- A command that tests `FAILED` first runs its body in every other state (R197). -/
theorem next_unlessFailed {body : State → State} {s t : State} (hs : s.bcState ≠ .failed) (h : body s = t) :
    (.next (unlessFailed body s) : Step) = .next t := by rw [unlessFailed_of_ne_failed hs, h]

theorem unlessTooLong_of_within {r t s : State} (h : within r.cfg none r.bits.length) : unlessTooLong (bitsFit r) t s = t := by
  rw [bitsFit_iff.mpr h]; rfl

theorem unlessTooLong_of_not_within {r t s : State} (h : ¬ within r.cfg none r.bits.length) :
    unlessTooLong (bitsFit r) t s = refuse s := by
  rw [Bool.eq_false_iff.mpr fun hf => h (bitsFit_iff.mp hf)]; rfl

/-- Settles O9: the body is `emptyStream`. -/
theorem clearEmptiesTheStream : Obligations.ClearEmptiesTheStream := by
  unfold Obligations.ClearEmptiesTheStream
  intro s hs
  exact next_unlessFailed hs rfl

/-! #### The backing buffer (R43) -/

/-- Inside the buffer a bit in stream order is a bit of a byte (R43, R97). -/
theorem bufferBit_of_lt {buf : List Byte} {i : Nat} (h : i < 8 * buf.length) :
    some (bufferBit buf i) = (buf[i / 8]?).map fun x => x.toNat.testBit (i % 8) := by
  have hi : i / 8 < buf.length := by omega
  simp [bufferBit, hi, BitVec.testBit_toNat]

@[simp] theorem loadStream_cfg (n : Nat) (s : State) : (loadStream n s).cfg = s.cfg := rfl

@[simp] theorem loadStream_bits_length (n : Nat) (s : State) : (loadStream n s).bits.length = n := by simp [loadStream]

theorem getElem?_loadStream {n i : Nat} (hi : i < n) (s : State) : (loadStream n s).bits[i]? = some (bufferBit s.inBuf i) := by
  simp [loadStream, hi]

theorem bufByte_lt (bits : List Bool) (j : Nat) : bufByte bits j < 256 := by
  have h := lsbValue_lt ((List.range 8).map fun k => streamBit bits (8 * j + k))
  rwa [List.length_map, List.length_range] at h

/-- Bit `k` of byte `j` is stream bit `8j + k` (R43). -/
theorem testBit_bufByte (bits : List Bool) (j : Nat) {k : Nat} (hk : k < 8) :
    (bufByte bits j).testBit k = bits.getD (8 * j + k) false := by
  rw [bufByte, testBit_lsbValue]
  simp [hk, streamBit]

/-- Settles O15: byte `j` is `bufByte`, whose bits are the stream's. -/
theorem tobytesReturnsTheBackingBuffer : Obligations.TobytesReturnsTheBackingBuffer := by
  unfold Obligations.TobytesReturnsTheBackingBuffer
  refine fun s => ⟨backingBuffer s.bits, rfl, backingBuffer_length _, fun j x hx => ?_⟩
  obtain ⟨i, hi, rfl⟩ := List.getElem?_eq_some_iff.mp hx
  simp only [backingBuffer, List.getElem_map, List.getElem_range]
  exact ⟨bufByte_lt _ _, fun k hk => testBit_bufByte _ _ hk⟩

/-- The bytes of the backing buffer have the stream's bits in stream order (R43). -/
theorem bufferBit_backingBuffer {bits : List Bool} {i : Nat} (hi : i < bits.length) :
    bufferBit ((backingBuffer bits).map (BitVec.ofNat 8)) i = bits[i] := by
  have hj : i / 8 < (bits.length + 7) / 8 := by omega
  have hbit := testBit_bufByte bits (i / 8) (Nat.mod_lt i (show 0 < 8 by decide))
  rw [Nat.div_add_mod] at hbit
  simpa [bufferBit, backingBuffer, hj, hi, Nat.mod_lt, BitVec.getElem_eq_testBit_toNat,
    Nat.mod_eq_of_lt (bufByte_lt _ _)] using hbit

/-- The stream that is loaded from the bytes of a stream is that stream (R103). -/
theorem loadStream_of_backingBuffer {s : State} {bits : List Bool} (h : s.inBuf = (backingBuffer bits).map (BitVec.ofNat 8)) :
    (loadStream bits.length s).bits = bits := by
  refine List.ext_getElem (loadStream_bits_length ..) fun i _ hi => ?_
  simp only [loadStream, List.getElem_map, List.getElem_range, h]
  exact bufferBit_backingBuffer hi

/-! #### `BS.LOAD` -/

theorem bsLoad_of_within {n : Nat} {s : State} (hn : n ≤ 8 * s.inBuf.length) (hw : within s.cfg none n) :
    bsLoad n s = finish .nothing (loadStream n s) := by
  unfold bsLoad
  rw [if_neg (Nat.not_lt.mpr hn), unlessTooLong_of_within (by simpa using hw)]

theorem bsLoad_of_not_within {n : Nat} {s : State} (hw : 8 * s.inBuf.length < n ∨ ¬ within s.cfg none n) :
    bsLoad n s = refuse s := by
  unfold bsLoad
  split
  case isTrue => rfl
  case isFalse hn => exact unlessTooLong_of_not_within (by simpa using hw.resolve_left hn)

/-- Settles O10: the stream is `loadStream`, bit by bit. -/
theorem loadTakesTheBitsOfIn : Obligations.LoadTakesTheBitsOfIn := by
  unfold Obligations.LoadTakesTheBitsOfIn
  refine fun s n hs => ⟨fun hn hw => ?_, fun hw => next_unlessFailed hs (bsLoad_of_not_within hw)⟩
  refine ⟨_, next_unlessFailed hs (bsLoad_of_within hn hw), rfl, loadStream_bits_length .., fun i hi => ?_⟩
  exact (getElem?_loadStream hi s).trans (bufferBit_of_lt (hi.trans_le hn))

/-- Settles O17: there are bytes enough, and their bits are the stream's (`loadStream_of_backingBuffer`). -/
theorem loadUndoesTobytes : Obligations.LoadUndoesTobytes := by
  unfold Obligations.LoadUndoesTobytes
  intro s t xs hs hlen hw ht hxs
  cases ht
  cases hxs
  have hn : (BitVec.ofNat 32 s.bits.length).toNat = s.bits.length := by rw [BitVec.toNat_ofNat, Nat.mod_eq_of_lt hlen]
  have hload := bsLoad_of_within (n := s.bits.length) (s := { s with inBuf := (backingBuffer s.bits).map (BitVec.ofNat 8) })
    (by simp only [List.length_map, backingBuffer_length]; omega) hw
  rw [← hn] at hload
  refine ⟨_, next_unlessFailed hs hload, ?_⟩
  rw [hn]
  exact loadStream_of_backingBuffer rfl

/-! #### Pushes -/

theorem pushed_of_within {bs : List Bool} {s : State} (hw : within s.cfg none (s.bits.length + bs.length)) :
    unlessTooLong (bitsFit (pushAll bs s)) (finish .nothing (pushAll bs s)) s = okWith .nothing { s with bits := s.bits ++ bs } :=
  unlessTooLong_of_within (by simpa using hw)

theorem pushed_of_not_within {bs : List Bool} {s : State} (hw : ¬ within s.cfg none (s.bits.length + bs.length)) :
    unlessTooLong (bitsFit (pushAll bs s)) (finish .nothing (pushAll bs s)) s = refuse s :=
  unlessTooLong_of_not_within (by simpa using hw)

/-- Settles O11: the value is tested before the limit. -/
theorem pushAppendsOneBit : Obligations.PushAppendsOneBit := by
  unfold Obligations.PushAppendsOneBit
  refine fun s bit hs => ⟨fun h0 hw => next_unlessFailed hs ?_, fun h1 hw => next_unlessFailed hs ?_,
    fun h0 h1 => next_unlessFailed hs ?_, fun hle hw => next_unlessFailed hs ?_⟩ <;> unfold bsPush
  · rw [h0]; exact pushed_of_within hw
  · rw [h1]; exact pushed_of_within hw
  · rw [if_pos (by omega), raise_eq_errorAt]
  · rw [if_neg (Nat.not_lt.mpr hle)]; exact pushed_of_not_within hw

/-- A value has a 1 at or above bit `count` (R99). -/
theorem shiftRight_ne_zero_iff {v n : Nat} : v >>> n ≠ 0 ↔ 2 ^ n ≤ v := by
  rw [Nat.shiftRight_eq_div_pow, Ne, Nat.div_eq_zero_iff_lt (Nat.two_pow_pos n), Nat.not_lt]

theorem bsPushbits_of_wide {v n : Nat} (o : Order) {s : State} (hn : n ≤ 32) (hv : 2 ^ n ≤ v) :
    bsPushbits v n o s = raise .invalidBitValue s.bits.length s := by
  rw [bsPushbits, if_neg (Nat.not_lt.mpr hn), if_pos (shiftRight_ne_zero_iff.mpr hv)]

theorem bsPushbits_of_fits {v n : Nat} (o : Order) {s : State} (hn : n ≤ 32) (hv : v < 2 ^ n) :
    bsPushbits v n o s = unlessTooLong (bitsFit (pushBits v n o s)) (finish .nothing (pushBits v n o s)) s := by
  rw [bsPushbits, if_neg (Nat.not_lt.mpr hn), if_neg (mt shiftRight_ne_zero_iff.mp (Nat.not_le.mpr hv))]

theorem bsPushbits_of_within {v n : Nat} (o : Order) {s : State} (hn : n ≤ 32) (hv : v < 2 ^ n)
    (hw : within s.cfg none (s.bits.length + n)) :
    bsPushbits v n o s = okWith .nothing { s with bits := s.bits ++ fieldBits v n o } :=
  (bsPushbits_of_fits o hn hv).trans (pushed_of_within (by simpa using hw))

/-- Settles O12: the count, the value and the limit are tested in this order, and the bits are `fieldBits`. -/
theorem pushbitsAppendsTheField : Obligations.PushbitsAppendsTheField := by
  unfold Obligations.PushbitsAppendsTheField
  refine fun s value count o hs => ⟨fun hn hv hw => next_unlessFailed hs ?_, fun hn hv => next_unlessFailed hs ?_,
    fun hn hv hw => next_unlessFailed hs ?_, fun hn => next_unlessFailed hs (if_pos hn)⟩
  · rw [bsPushbits_of_within o hn hv hw]
    cases o with
    | lsb => rfl
    | msb => rw [fieldBits, msbBits_eq_fieldMsb]
  · rw [bsPushbits_of_wide o hn hv, raise_eq_errorAt]
  · exact (bsPushbits_of_fits o hn hv).trans (pushed_of_not_within (by simpa using hw))

/-! #### Reads -/

/-- Settles O13: the bit at the cursor is there, or the stream has ended (`readBit`). -/
theorem readReturnsTheNextBit : Obligations.ReadReturnsTheNextBit := by
  unfold Obligations.ReadReturnsTheNextBit
  refine fun s hs => ⟨fun b hb => next_unlessFailed hs ?_, fun hend => next_unlessFailed hs ?_⟩ <;> unfold bsRead
  · obtain ⟨hlt, rfl⟩ := List.getElem?_eq_some_iff.mp hb
    rw [readBit_of_lt hlt]
    rfl
  · rw [readBit_of_le hend, raise_eq_errorAt]

theorem bsReadbits_of_le {n : Nat} (o : Order) {s : State} (hn : n ≤ 32) (h : n ≤ s.bits.length - s.rpos) :
    bsReadbits n o s = okWith (.number (fieldValue ((s.bits.drop s.rpos).take n) o)) { s with rpos := s.rpos + n } := by
  rw [bsReadbits, if_neg (Nat.not_lt.mpr hn), readBits_of_le h]
  rfl

theorem bsReadbits_of_lt {n : Nat} (o : Order) {s : State} (hn : n ≤ 32) (h : s.bits.length - s.rpos < n) :
    bsReadbits n o s = raise .truncatedStream s.rpos s := by
  rw [bsReadbits, if_neg (Nat.not_lt.mpr hn), readBits_of_lt h]

/-- Settles O14: the bits that are read are the field of the value (`fieldBits_fieldValue`). -/
theorem readbitsReturnsTheField : Obligations.ReadbitsReturnsTheField := by
  unfold Obligations.ReadbitsReturnsTheField
  refine fun s count o hs => ⟨fun hn hle => ?_, fun hn hpos hlt => ?_, fun hn => next_unlessFailed hs (if_pos hn)⟩
  · have hlen : ((s.bits.drop s.rpos).take count.toNat).length = count.toNat := by
      rw [List.length_take, List.length_drop]; omega
    have hvalue := fieldValue_lt ((s.bits.drop s.rpos).take count.toNat) o
    have hfield := fieldBits_fieldValue ((s.bits.drop s.rpos).take count.toNat) o
    rw [hlen] at hvalue hfield
    refine ⟨_, next_unlessFailed hs (bsReadbits_of_le o hn (by omega)), hvalue, fun k hk => ?_⟩
    have hbit : s.bits[s.rpos + k]? = ((s.bits.drop s.rpos).take count.toNat)[k]? := by
      rw [List.getElem?_take_of_lt hk, List.getElem?_drop]
    rw [hbit]
    nth_rw 1 [← hfield]
    cases o with
    | lsb => exact getElem?_lsbBits hk
    | msb => exact getElem?_msbBits hk
  · exact next_unlessFailed hs ((bsReadbits_of_lt o hn (by omega)).trans (raise_eq_errorAt ..))

/-- Settles O16: the bits from the cursor on are the field that was pushed (`fieldValue_fieldBits`). -/
theorem pushedFieldReadsBack : Obligations.PushedFieldReadsBack := by
  unfold Obligations.PushedFieldReadsBack
  intro s value count o hs hpos hn hv hw
  refine ⟨_, _, next_unlessFailed hs (bsPushbits_of_within o hn hv hw), next_unlessFailed hs (bsReadbits_of_le o hn ?_), ?_, ?_⟩
  · simp [okWith, hpos]
  · simp [okWith, hpos, fieldValue_fieldBits hv, List.take_of_length_le]
  · simp [okWith, hpos]

/-! #### No bit is changed once it is pushed (R103) -/

/-- The stream of `t` continues that of `s` (R103). -/
def Continues (s t : State) : Prop := ∃ bs, t.bits = s.bits ++ bs

theorem Continues.of_eq {s t : State} (h : t.bits = s.bits) : Continues s t := ⟨[], by rw [h, List.append_nil]⟩

theorem continues_unlessFailed {body : State → State} {s : State} (h : Continues s (body s)) :
    Continues s (unlessFailed body s) := by
  unfold unlessFailed
  split
  · exact .of_eq rfl
  · exact h

theorem continues_unlessTooLong {r s : State} (h : Continues s r) (fits : Bool) : Continues s (unlessTooLong fits r s) := by
  obtain ⟨-, he⟩ | ⟨-, he⟩ := unlessTooLong_cases fits r s <;> rw [he]
  · exact h
  · exact .of_eq rfl

theorem continues_bsPush (bit : Nat) (s : State) : Continues s (bsPush bit s) := by
  unfold bsPush
  split
  · exact .of_eq rfl
  · exact continues_unlessTooLong ⟨_, rfl⟩ _

theorem continues_bsPushbits (v n : Nat) (o : Order) (s : State) : Continues s (bsPushbits v n o s) := by
  unfold bsPushbits
  split
  · exact .of_eq rfl
  · split
    · exact .of_eq rfl
    · exact continues_unlessTooLong ⟨_, rfl⟩ _

/-- Encoding appends bits, whether it raises or not (R117). -/
theorem continues_hufEncodeResult (s : State) : Continues s (hufEncodeResult s) := by
  unfold hufEncodeResult
  cases he : encodeSymbols s.tUser s.sym s with
  | ok s' =>
    obtain ⟨rfl, -⟩ := encodeSymbols_ok_inv he
    exact ⟨_, rfl⟩
  | error s' =>
    obtain ⟨bs, rfl⟩ := encodeSymbols_error_inv he
    exact ⟨bs, rfl⟩

theorem continues_hufEncode (s : State) : Continues s (hufEncode s) := by
  unfold hufEncode
  split
  · exact continues_unlessTooLong (continues_hufEncodeResult s) _
  · exact .of_eq rfl

/-- Settles O18: three commands append bits, and every other instruction that may stand here does not write the bits (O59). -/
theorem pushedBitsNeverChange : Obligations.PushedBitsNeverChange := by
  unfold Obligations.PushedBitsNeverChange
  intro s t i hclear hload hdeflate hreset h
  change Continues s t
  by_cases hpush : ∃ bit, i = .bsPush bit
  · obtain ⟨bit, rfl⟩ := hpush
    cases h
    exact continues_unlessFailed (continues_bsPush ..)
  by_cases hpushbits : ∃ v n o, i = .bsPushbits v n o
  · obtain ⟨v, n, o, rfl⟩ := hpushbits
    cases h
    exact continues_unlessFailed (continues_bsPushbits ..)
  by_cases hencode : i = .hufEncode
  · subst hencode
    cases h
    exact continues_unlessFailed (continues_hufEncode s)
  · obtain ⟨-, -, -, -, -, hbits, -⟩ := onlyTheNamedInstructionsWriteASpace s t i h hreset
    simp only [not_exists] at hpush hpushbits
    exact .of_eq (hbits hclear hload hpush hpushbits hencode hdeflate)

end Sys2Proof.Machine

namespace Sys2Proof.Machine

open Sys2Proof Sys2Proof.Claims

/-! ### Canonical codes (R120) -/

/-- The symbols that have a code, by their lengths (R120). -/
def codedSymbols (lengths : List Nat) : Finset Nat := (Finset.range lengths.length).filter fun y => lengths.getD y 0 ≠ 0

/-- The order in which symbols take their codes (R120): the shorter length first, among equal lengths the lower symbol. -/
abbrev CodedBefore (lengths : List Nat) (y x : Nat) : Prop :=
  lengths.getD y 0 < lengths.getD x 0 ∨ (lengths.getD y 0 = lengths.getD x 0 ∧ y < x)

/-- The space that the codes of a set of symbols take among the numbers of `maxbits` bits. -/
def spaceOf (lengths : List Nat) (maxbits : Nat) (ys : Finset Nat) : Nat := ∑ y ∈ ys, 2 ^ (maxbits - lengths.getD y 0)

/-- The space of the codes before a symbol's: where its own begins, left-aligned (R120). -/
def codeStart (lengths : List Nat) (maxbits x : Nat) : Nat :=
  spaceOf lengths maxbits ((codedSymbols lengths).filter fun y => CodedBefore lengths y x)

theorem mem_codedSymbols {lengths : List Nat} {y : Nat} :
    y ∈ codedSymbols lengths ↔ y < lengths.length ∧ lengths.getD y 0 ≠ 0 := by
  simp [codedSymbols]

/-- How many of the first `k` symbols have a length. -/
theorem card_filter_length_eq (lengths : List Nat) (l : Nat) {k : Nat} (hk : k ≤ lengths.length) :
    ((Finset.range k).filter fun y => lengths.getD y 0 = l).card = (lengths.take k).count l := by
  induction k with
  | zero => rfl
  | succ k ih =>
    rw [Finset.range_add_one, Finset.filter_insert, List.take_succ_eq_append_getElem hk, List.count_append, ← ih (by omega)]
    split <;> rename_i h <;> rw [List.getD_eq_getElem _ _ hk] at h <;> simp [h]

/-- A symbol's code is the first code of its length, plus one for each earlier symbol of that length (R120). -/
theorem canonAssign_getElem? (ls next : List Nat) {x l : Nat} (hx : ls[x]? = some l) (hpos : l ≠ 0) (hl : l < next.length) :
    (canonAssign ls next)[x]? = some ⟨next.getD l 0 + (ls.take x).count l, l⟩ := by
  induction ls generalizing next x with
  | nil => simp at hx
  | cons m ls ih =>
    cases x with
    | zero =>
      obtain rfl : m = l := by simpa using hx
      simp [canonAssign, hpos]
    | succ x =>
      rw [List.getElem?_cons_succ] at hx
      unfold canonAssign
      split
      · rename_i hm
        rw [List.getElem?_cons_succ, ih next hx hl, List.take_succ_cons, List.count_cons_of_ne (by omega)]
      · rw [List.getElem?_cons_succ, ih _ hx (by simpa using hl), List.take_succ_cons, List.count_cons]
        by_cases hml : m = l
        · subst hml
          simp [hl]; omega
        · simp [hml, hl, List.getElem_set_ne hml]

theorem canonAssign_zero (ls next : List Nat) {x : Nat} (hx : ls[x]? = some 0) : (canonAssign ls next)[x]? = some ⟨0, 0⟩ := by
  induction ls generalizing next x with
  | nil => simp at hx
  | cons m ls ih =>
    cases x with
    | zero =>
      obtain rfl : m = 0 := by simpa using hx
      simp [canonAssign]
    | succ x =>
      rw [List.getElem?_cons_succ] at hx
      unfold canonAssign
      split <;> rw [List.getElem?_cons_succ, ih _ hx]

/-- Codes of one length take the same space each. -/
theorem spaceOf_same_length {lengths : List Nat} (maxbits : Nat) {l : Nat} {ys : Finset Nat} (h : ∀ y ∈ ys, lengths.getD y 0 = l) :
    spaceOf lengths maxbits ys = ys.card * 2 ^ (maxbits - l) := by
  rw [spaceOf, Finset.sum_congr rfl fun y hy => by rw [h y hy], Finset.sum_const, smul_eq_mul]

/-- `count[l]` of R120 is the number of coded symbols of length `l`. -/
theorem card_codedSymbols_length_eq (lengths : List Nat) (l : Nat) :
    ((codedSymbols lengths).filter fun y => lengths.getD y 0 = l).card = lengthCount lengths l := by
  rw [codedSymbols, Finset.filter_filter]
  unfold lengthCount
  split
  · rename_i h0
    simp [h0]
  · rename_i h0
    rw [← List.take_length (l := lengths), ← card_filter_length_eq lengths l le_rfl, List.take_length]
    congr 1
    exact Finset.filter_congr fun y _ => ⟨And.right, fun h => ⟨by omega, h⟩⟩

/-- The first code of a length, left-aligned, is the space of the shorter codes (R120). -/
theorem firstCode_eq_space (lengths : List Nat) (maxbits : Nat) {l : Nat} (hl : l ≤ maxbits) :
    firstCode lengths l * 2 ^ (maxbits - l) =
      spaceOf lengths maxbits ((codedSymbols lengths).filter fun y => lengths.getD y 0 < l) := by
  induction l with
  | zero => simp [firstCode, spaceOf]
  | succ l ih =>
    have hsplit : (codedSymbols lengths).filter (fun y => lengths.getD y 0 < l + 1) =
        (codedSymbols lengths).filter (fun y => lengths.getD y 0 < l) ∪
          (codedSymbols lengths).filter (fun y => lengths.getD y 0 = l) := by
      rw [← Finset.filter_or]
      exact Finset.filter_congr fun y _ => by omega
    have hdisj : Disjoint ((codedSymbols lengths).filter fun y => lengths.getD y 0 < l)
        ((codedSymbols lengths).filter fun y => lengths.getD y 0 = l) :=
      Finset.disjoint_filter.mpr fun y _ h => by omega
    rw [hsplit, spaceOf, Finset.sum_union hdisj, ← spaceOf, ← spaceOf,
      spaceOf_same_length maxbits fun y hy => (Finset.mem_filter.mp hy).2, card_codedSymbols_length_eq, ← ih (by omega), firstCode,
      show maxbits - l = maxbits - (l + 1) + 1 by omega, pow_succ]
    ring

/-- Before a symbol's code stand the shorter codes and those of its length with a lower symbol (R120). -/
theorem codeStart_eq (lengths : List Nat) (maxbits : Nat) {x l : Nat} (hx : lengths[x]? = some l) (hpos : l ≠ 0)
    (hl : l ≤ maxbits) :
    codeStart lengths maxbits x = (firstCode lengths l + (lengths.take x).count l) * 2 ^ (maxbits - l) := by
  have hlen := (List.getElem?_eq_some_iff.mp hx).1
  have hget : lengths.getD x 0 = l := by simp [hx]
  have hsplit : (codedSymbols lengths).filter (fun y => CodedBefore lengths y x) =
      (codedSymbols lengths).filter (fun y => lengths.getD y 0 < l) ∪
        (Finset.range x).filter fun y => lengths.getD y 0 = l := by
    ext y
    simp only [CodedBefore, hget, Finset.mem_filter, Finset.mem_union, Finset.mem_range, mem_codedSymbols]
    omega
  have hdisj : Disjoint ((codedSymbols lengths).filter fun y => lengths.getD y 0 < l)
      ((Finset.range x).filter fun y => lengths.getD y 0 = l) :=
    Finset.disjoint_left.mpr fun y h h' => by have := (Finset.mem_filter.mp h).2; have := (Finset.mem_filter.mp h').2; omega
  rw [codeStart, hsplit, spaceOf, Finset.sum_union hdisj, ← spaceOf, ← spaceOf, ← firstCode_eq_space lengths maxbits hl,
    spaceOf_same_length maxbits fun y hy => (Finset.mem_filter.mp hy).2, card_filter_length_eq lengths l hlen.le]
  ring

/-- A symbol's canonical code has its length, and begins left-aligned where the codes before it end (R120). -/
theorem canon_spec {lengths : List Nat} {maxbits x l : Nat} (hx : lengths[x]? = some l) (hpos : l ≠ 0) (hl : l ≤ maxbits) :
    ∃ c, (canon lengths maxbits)[x]? = some ⟨c, l⟩ ∧ c * 2 ^ (maxbits - l) = codeStart lengths maxbits x := by
  refine ⟨_, canonAssign_getElem? _ _ hx hpos (by simp; omega), ?_⟩
  rw [codeStart_eq lengths maxbits hx hpos hl]
  simp [Nat.lt_succ_of_le hl]

/-- Settles O27: the claim's sum is `codeStart`, and `canon_spec` gives the code by it. -/
theorem canonicalCodesAreConsecutive : Obligations.CanonicalCodesAreConsecutive := by
  unfold Obligations.CanonicalCodesAreConsecutive
  intro lengths maxbits x l hx hl
  by_cases hpos : l = 0
  · subst hpos
    exact ⟨_, canonAssign_zero _ _ hx, rfl, fun h => absurd h (by omega)⟩
  · obtain ⟨c, hc, hstart⟩ := canon_spec hx hpos hl
    refine ⟨_, hc, rfl, fun _ => hstart.trans ?_⟩
    rw [codeStart, codedSymbols, Finset.filter_filter, spaceOf, Finset.sum_filter]
    simp only [CodedBefore, show lengths.getD x 0 = l by simp [hx]]
    rfl

end Sys2Proof.Machine

namespace Sys2Proof.Machine

open Sys2Proof Sys2Proof.Claims

/-! ### Trees from code lengths (R121, R122) -/

theorem map_range_getD {α : Type} (xs : List α) (d : α) : (List.range xs.length).map (xs.getD · d) = xs :=
  List.ext_getElem (by simp) fun k _ hk => by simp [hk]

theorem spaceOf_insert {lengths : List Nat} {maxbits x : Nat} {ys : Finset Nat} (h : x ∉ ys) :
    spaceOf lengths maxbits (insert x ys) = spaceOf lengths maxbits ys + 2 ^ (maxbits - lengths.getD x 0) := by
  rw [spaceOf, Finset.sum_insert h, Nat.add_comm, spaceOf]

theorem spaceOf_mono {lengths : List Nat} {maxbits : Nat} {xs ys : Finset Nat} (h : xs ⊆ ys) :
    spaceOf lengths maxbits xs ≤ spaceOf lengths maxbits ys :=
  Finset.sum_le_sum_of_subset h

/-- A code's space ends before the space of a later code begins. -/
theorem codeStart_add_le {lengths : List Nat} {maxbits x y : Nat} (hx : x ∈ codedSymbols lengths) (h : CodedBefore lengths x y) :
    codeStart lengths maxbits x + 2 ^ (maxbits - lengths.getD x 0) ≤ codeStart lengths maxbits y := by
  rw [codeStart, ← spaceOf_insert (by simp)]
  refine spaceOf_mono fun z hz => Finset.mem_filter.mpr ?_
  obtain rfl | hz := Finset.mem_insert.mp hz
  · exact ⟨hx, h⟩
  · obtain ⟨hc, hb⟩ := Finset.mem_filter.mp hz
    exact ⟨hc, by omega⟩

theorem codeSpace_eq_spaceOf (lengths : List Nat) (maxbits : Nat) :
    codeSpace lengths maxbits = spaceOf lengths maxbits (codedSymbols lengths) := by
  rw [spaceOf, codedSymbols, Finset.sum_filter]
  nth_rw 1 [codeSpace, ← map_range_getD lengths 0]
  rw [List.map_map]
  change (∑ y ∈ Finset.range lengths.length, if lengths.getD y 0 = 0 then 0 else 2 ^ (maxbits - lengths.getD y 0)) = _
  simp only [ne_eq, ite_not]

/-- The space of every code lies inside the space of all. -/
theorem codeStart_add_le_codeSpace {lengths : List Nat} {maxbits x : Nat} (hx : x ∈ codedSymbols lengths) :
    codeStart lengths maxbits x + 2 ^ (maxbits - lengths.getD x 0) ≤ codeSpace lengths maxbits := by
  rw [codeStart, ← spaceOf_insert (by simp), codeSpace_eq_spaceOf]
  refine spaceOf_mono fun z hz => ?_
  obtain rfl | hz := Finset.mem_insert.mp hz
  · exact hx
  · exact (Finset.mem_filter.mp hz).1

theorem msbValueFrom_append (v : Nat) (bs cs : List Bool) : msbValueFrom v (bs ++ cs) = msbValueFrom (msbValueFrom v bs) cs := by
  induction bs generalizing v with
  | nil => rfl
  | cons b bs ih => exact ih _

/-- Where a code begins with a shorter one, it lies, left-aligned, in the space of that one. -/
theorem value_of_prefix {c d l m k : Nat} (hc : c < 2 ^ l) (hd : d < 2 ^ m) (hm : m ≤ k) (h : msbBits c l <+: msbBits d m) :
    l ≤ m ∧ c * 2 ^ (k - l) ≤ d * 2 ^ (k - m) ∧ d * 2 ^ (k - m) < c * 2 ^ (k - l) + 2 ^ (k - l) := by
  obtain ⟨w, hw⟩ := h
  have hlen : l + w.length = m := by simpa using congrArg List.length hw
  have hvalue := congrArg (msbValueFrom 0) hw
  rw [msbValueFrom_append, msbValueFrom_msbBits, msbValueFrom_msbBits, Nat.mod_eq_of_lt hc, Nat.mod_eq_of_lt hd] at hvalue
  simp only [Nat.zero_mul, Nat.zero_add] at hvalue
  have hlow : c * 2 ^ w.length ≤ d := by
    have := msbValueFrom_div c w
    rw [hvalue] at this
    rw [← this]; exact Nat.div_mul_le_self ..
  have hhigh : d < (c + 1) * 2 ^ w.length := hvalue ▸ msbValueFrom_lt c w
  have hpow : 2 ^ (k - l) = 2 ^ w.length * 2 ^ (k - m) := by rw [← pow_add]; congr 1; omega
  refine ⟨by omega, ?_, ?_⟩
  · rw [hpow, ← Nat.mul_assoc]; exact Nat.mul_le_mul_right _ hlow
  · rw [hpow, ← Nat.mul_assoc, ← Nat.add_mul, ← Nat.succ_mul]
    exact Nat.mul_lt_mul_of_pos_right hhigh (Nat.two_pow_pos _)

/-! #### Leaves in a trie -/

/-- A placed leaf is found at the end of its bits (R121). -/
theorem trieFind_trieInsert_same (x : Nat) (w : List Bool) (t : Trie) : trieFind (trieInsert x w t) w = some x := by
  induction w generalizing t with
  | nil => simp [trieInsert, trieFind]
  | cons b w ih => cases b <;> cases t <;> simp [trieInsert, trieFind, ih]

/-- Two paths of which neither begins with the other. -/
def Apart (v w : List Bool) : Prop := ¬ v <+: w ∧ ¬ w <+: v

theorem Apart.of_cons {b : Bool} {v w : List Bool} (h : Apart (b :: v) (b :: w)) : Apart v w :=
  ⟨fun hp => h.1 (by simpa using hp), fun hp => h.2 (by simpa using hp)⟩

/-- Placing a leaf keeps the leaves at paths apart from its own (R121). -/
theorem trieFind_trieInsert_apart {x y : Nat} {v w : List Bool} {t : Trie} (h : trieFind t v = some x) (ha : Apart v w) :
    trieFind (trieInsert y w t) v = some x := by
  induction w generalizing t v with
  | nil => exact absurd List.nil_prefix ha.2
  | cons c w ih =>
    cases v with
    | nil => exact absurd List.nil_prefix ha.1
    | cons b v =>
      cases t with
      | missing => simp [trieFind] at h
      | leaf z => simp [trieFind] at h
      | branch left right =>
        cases b with
        | false => cases c with
          | false => exact ih (v := v) (t := left) h ha.of_cons
          | true => exact h
        | true => cases c with
          | false => exact h
          | true => exact ih (v := v) (t := right) h ha.of_cons

/-- Placing codes keeps a leaf whose path is apart from all of theirs. -/
theorem trieFind_trieOfCodes_apart {x s : Nat} {v : List Bool} {es : List CodeEntry} {t : Trie} (h : trieFind t v = some x)
    (ha : ∀ e ∈ es, e.length ≠ 0 → Apart v (msbBits e.code e.length)) : trieFind (trieOfCodes s es t) v = some x := by
  induction es generalizing s t with
  | nil => exact h
  | cons e es ih =>
    refine ih ?_ fun e' he' => ha e' (List.mem_cons_of_mem _ he')
    split
    · exact h
    · exact trieFind_trieInsert_apart h (ha e List.mem_cons_self ‹_›)

/-- A code is found where the codes placed after it are apart from it (R121). -/
theorem trieFind_trieOfCodes {x s : Nat} {es : List CodeEntry} {e : CodeEntry} (t : Trie) (hx : es[x]? = some e) (he : e.length ≠ 0)
    (ha : ∀ y e', x < y → es[y]? = some e' → e'.length ≠ 0 → Apart (msbBits e.code e.length) (msbBits e'.code e'.length)) :
    trieFind (trieOfCodes s es t) (msbBits e.code e.length) = some (s + x) := by
  induction es generalizing x s t with
  | nil => simp at hx
  | cons a es ih =>
    cases x with
    | zero =>
      obtain rfl : a = e := by simpa using hx
      rw [trieOfCodes, if_neg he]
      refine trieFind_trieOfCodes_apart (trieFind_trieInsert_same ..) fun e' he' hne => ?_
      obtain ⟨y, hy⟩ := List.mem_iff_getElem?.mp he'
      exact ha (y + 1) e' (Nat.succ_pos y) hy hne
    | succ x =>
      have := ih (s := s + 1) (if a.length = 0 then t else trieInsert s (msbBits a.code a.length) t) hx
        fun y e' hy => ha (y + 1) e' (Nat.succ_lt_succ hy)
      rw [trieOfCodes, this, Nat.add_right_comm, Nat.add_assoc]

/-! #### Canonical codes in the trie -/

theorem codeBits_eq_msbBits (e : CodeEntry) : codeBits e = msbBits e.code e.length := (msbBits_eq_fieldMsb ..).symm

theorem codeBits_length (e : CodeEntry) : (codeBits e).length = e.length := by rw [codeBits_eq_msbBits, msbBits_length]

theorem canonAssign_length (ls next : List Nat) : (canonAssign ls next).length = ls.length := by
  induction ls generalizing next with
  | nil => rfl
  | cons l ls ih => unfold canonAssign; split <;> simp [ih]

section

variable {lengths : List Nat} {maxbits : Nat} (hmax : ∀ m ∈ lengths, m ≤ maxbits)
  (hspace : codeSpace lengths maxbits ≤ 2 ^ maxbits)

include hmax hspace

/-- A canonical code fits its length where the lengths are not over-subscribed. -/
theorem canon_code_lt {x : Nat} {e : CodeEntry} (he : (canon lengths maxbits)[x]? = some e) (hpos : e.length ≠ 0) :
    x ∈ codedSymbols lengths ∧ e.length = lengths.getD x 0 ∧ e.length ≤ maxbits ∧ e.code < 2 ^ e.length ∧
      e.code * 2 ^ (maxbits - e.length) = codeStart lengths maxbits x := by
  have hlt : x < lengths.length := by
    simpa [canon, canonAssign_length] using (List.getElem?_eq_some_iff.mp he).1
  have hget : lengths[x]? = some (lengths.getD x 0) := by simp [hlt]
  have hl : lengths.getD x 0 ≤ maxbits := hmax _ (List.mem_of_getElem? hget)
  by_cases h0 : lengths.getD x 0 = 0
  · rw [h0] at hget
    rw [canon, canonAssign_zero _ _ hget] at he
    cases he
    exact absurd rfl hpos
  · obtain ⟨c, hc, hstart⟩ := canon_spec hget h0 hl
    obtain rfl : ⟨c, lengths.getD x 0⟩ = e := Option.some.inj (hc.symm.trans he)
    have hcoded := mem_codedSymbols.mpr ⟨hlt, h0⟩
    have hin := (codeStart_add_le_codeSpace hcoded).trans hspace
    rw [← hstart, ← Nat.succ_mul, show 2 ^ maxbits = 2 ^ lengths.getD x 0 * 2 ^ (maxbits - lengths.getD x 0) by
      rw [← pow_add]; congr 1; omega] at hin
    exact ⟨hcoded, rfl, hl, Nat.le_of_mul_le_mul_right hin (Nat.two_pow_pos _), hstart⟩

/-- No canonical code begins with another one: their spaces would meet. -/
theorem canon_not_prefix {x y : Nat} {d e : CodeEntry} (hne : x ≠ y) (hd : (canon lengths maxbits)[x]? = some d)
    (he : (canon lengths maxbits)[y]? = some e) (hd0 : d.length ≠ 0) (he0 : e.length ≠ 0) :
    ¬ msbBits d.code d.length <+: msbBits e.code e.length := by
  intro hp
  obtain ⟨hx, hdl, -, hdc, hds⟩ := canon_code_lt hmax hspace hd hd0
  obtain ⟨hy, hel, hem, hec, hes⟩ := canon_code_lt hmax hspace he he0
  obtain ⟨-, hlow, hhigh⟩ := value_of_prefix hdc hec hem hp
  rw [hds, hes] at hlow hhigh
  obtain h | h : CodedBefore lengths x y ∨ CodedBefore lengths y x := by omega
  · have := codeStart_add_le (maxbits := maxbits) hx h
    rw [← hdl] at this
    omega
  · have := codeStart_add_le (maxbits := maxbits) hy h
    have := Nat.two_pow_pos (maxbits - lengths.getD y 0)
    omega

/-- In the trie of the lengths the bits of a canonical code lead to its symbol (R121). -/
theorem trieFind_canon {x : Nat} {e : CodeEntry} (he : (canon lengths maxbits)[x]? = some e) (hpos : e.length ≠ 0) :
    trieFind (trieOfLengths lengths maxbits) (codeBits e) = some x := by
  rw [codeBits_eq_msbBits, trieOfLengths, trieFind_trieOfCodes _ he hpos, Nat.zero_add]
  intro y e' hy he' hpos'
  exact ⟨canon_not_prefix hmax hspace hy.ne he he' hpos hpos', canon_not_prefix hmax hspace hy.ne' he' he hpos' hpos⟩

end

/-- Settles O28: the spaces of the codes are disjoint, so no code begins with another one, and no leaf of the trie is overwritten. -/
theorem treesFromLengthsSpellTheirCodes : Obligations.TreesFromLengthsSpellTheirCodes := by
  unfold Obligations.TreesFromLengthsSpellTheirCodes
  intro lengths maxbits x l hmax hspace hx hpos
  obtain ⟨c, hc, -⟩ := canon_spec hx hpos (hmax l (List.mem_of_getElem? hx))
  refine ⟨_, hc, rfl, spells_of_trieFind ?_ (trieFind_canon hmax hspace hc hpos)⟩
  exact List.ne_nil_of_length_pos ((codeBits_length _).symm ▸ Nat.pos_of_ne_zero hpos)

end Sys2Proof.Machine

namespace Sys2Proof.Machine

open Sys2Proof Sys2Proof.Claims

/-! ### The queue of the build (R115) -/

theorem queueLess_iff {x y : Nat × Nat} : queueLess x y = true ↔ x.1 < y.1 ∨ (x.1 = y.1 ∧ x.2 < y.2) := by
  simp [queueLess]

theorem queueMin_mem (m : Nat × Nat) (xs : List (Nat × Nat)) : queueMin m xs ∈ m :: xs := by
  induction xs generalizing m with
  | nil => exact List.mem_cons_self
  | cons x xs ih =>
    obtain h | h := List.mem_cons.mp (ih (if queueLess x m then x else m))
    · rw [queueMin, h]
      split <;> simp
    · exact List.mem_cons_of_mem _ (List.mem_cons_of_mem _ h)

/-- Nothing is less than the minimum in the queue's order (R115). -/
theorem not_queueLess_queueMin (m : Nat × Nat) (xs : List (Nat × Nat)) : ∀ y ∈ m :: xs, ¬ queueLess y (queueMin m xs) := by
  induction xs generalizing m with
  | nil => simp [queueMin, queueLess]
  | cons x xs ih =>
    have hbest := ih (if queueLess x m then x else m) _ List.mem_cons_self
    have hpair : ¬ queueLess m (queueMin m (x :: xs)) ∧ ¬ queueLess x (queueMin m (x :: xs)) := by
      rw [queueMin]
      generalize queueMin (if queueLess x m then x else m) xs = r at hbest
      split at hbest <;> simp only [queueLess_iff] at * <;> omega
    intro y hy
    obtain rfl | hy := List.mem_cons.mp hy
    · exact hpair.1
    · obtain rfl | hy := List.mem_cons.mp hy
      · exact hpair.2
      · exact ih _ y (List.mem_cons_of_mem _ hy)

/-- `pop_min` finds no element in the empty queue only (R115). -/
theorem popMin_eq_none {q : List (Nat × Nat)} : popMin q = none ↔ q = [] := by
  cases q <;> simp [popMin]

/-- `pop_min` takes an element of the queue that is less than all others (R115). -/
theorem popMin_some {q q1 : List (Nat × Nat)} {a : Nat × Nat} (h : popMin q = some (a, q1)) :
    q.Perm (a :: q1) ∧ ∀ e ∈ q1, e ≠ a → queueLess a e := by
  cases q with
  | nil => cases h
  | cons x xs =>
    obtain ⟨rfl, rfl⟩ : queueMin x xs = a ∧ (x :: xs).erase (queueMin x xs) = q1 := by simpa [popMin] using h
    refine ⟨List.perm_cons_erase (queueMin_mem x xs), fun e he hne => ?_⟩
    have hle := not_queueLess_queueMin x xs e (List.mem_of_mem_erase he)
    have hne' : ¬ (e.1 = (queueMin x xs).1 ∧ e.2 = (queueMin x xs).2) := fun h => hne (Prod.ext h.1 h.2)
    rw [queueLess_iff] at hle ⊢
    omega

/-- A round of the merge loop with two nodes in the queue at least (R112): the two lowest are popped. -/
theorem mergeRounds_succ (k : Nat) (arena : List Node) {q : List (Nat × Nat)} {m : Nat} (hq : q.length = m + 2) :
    ∃ a b q2, q2.length = m ∧ q.Perm (a :: b :: q2) ∧ (∀ e ∈ b :: q2, e ≠ a → queueLess a e) ∧ (∀ e ∈ q2, e ≠ b → queueLess b e) ∧
      mergeRounds (k + 1) arena q =
        mergeRounds k (arena ++ [.branch (freqAdd (BitVec.ofNat 32 a.1) (BitVec.ofNat 32 b.1)) (some a.2) (some b.2)])
          ((satAdd a.1 b.1, arena.length) :: q2) := by
  cases h1 : popMin q with
  | none => rw [popMin_eq_none.mp h1] at hq; cases hq
  | some p =>
    obtain ⟨a, q1⟩ := p
    obtain ⟨hperm1, hlow1⟩ := popMin_some h1
    have hlen1 : m + 2 = q1.length + 1 := hq ▸ hperm1.length_eq
    cases h2 : popMin q1 with
    | none => rw [popMin_eq_none.mp h2] at hlen1; cases hlen1
    | some p =>
      obtain ⟨b, q2⟩ := p
      obtain ⟨hperm2, hlow2⟩ := popMin_some h2
      have hlen2 : q1.length = q2.length + 1 := hperm2.length_eq
      refine ⟨a, b, q2, by omega, hperm1.trans (hperm2.cons a), fun e he => hlow1 e (hperm2.mem_iff.mpr he), hlow2, ?_⟩
      simp only [mergeRounds, h1, h2]

/-! ### The general tree as a trie (R112, R116) -/

/-- In the arena a full trie stands below node `i`, leaf `x` at index `x` (R20, R112). -/
def Stands (arena : List Node) : Nat → Trie → Prop
  | _, .missing => False
  | i, .leaf x => i = x ∧ ∃ f, arena[i]? = some (.leaf x f)
  | i, .branch left right =>
    ∃ f a b, arena[i]? = some (.branch f (some a) (some b)) ∧ Stands arena a left ∧ Stands arena b right

/-- The leaves of a trie, each with its path, from left to right. -/
def trieLeaves : Trie → List (List Bool × Nat)
  | .missing => []
  | .leaf x => [([], x)]
  | .branch left right =>
    (trieLeaves left).map (Prod.map (false :: ·) id) ++ (trieLeaves right).map (Prod.map (true :: ·) id)

/-- The symbols at the leaves of a trie. -/
def trieSymbols (t : Trie) : List Nat := (trieLeaves t).map Prod.snd

@[simp] theorem trieSymbols_leaf (x : Nat) : trieSymbols (.leaf x) = [x] := rfl

@[simp] theorem trieSymbols_branch (left right : Trie) :
    trieSymbols (.branch left right) = trieSymbols left ++ trieSymbols right := by
  simp [trieSymbols, trieLeaves, Function.comp_def]

theorem Stands.append {arena : List Node} {i : Nat} {t : Trie} (h : Stands arena i t) (ns : List Node) :
    Stands (arena ++ ns) i t := by
  have hget {i : Nat} {n : Node} (h : arena[i]? = some n) : (arena ++ ns)[i]? = some n :=
    (List.getElem?_append_left (List.getElem?_eq_some_iff.mp h).1).trans h
  induction t generalizing i with
  | missing => exact h
  | leaf x => exact ⟨h.1, h.2.imp fun _ => hget⟩
  | branch left right ihl ihr =>
    obtain ⟨f, a, b, hi, hl, hr⟩ := h
    exact ⟨f, a, b, hget hi, ihl hl, ihr hr⟩

/-- Below the nodes of the queue stand tries whose leaves are the symbols `xs` (R112). -/
def Forest (arena : List Node) (q : List (Nat × Nat)) (xs : List Nat) : Prop :=
  ∃ ts, List.Forall₂ (fun e t => Stands arena e.2 t) q ts ∧ (ts.flatMap trieSymbols).Perm xs

/-- A round keeps the forest: the two popped tries become the children of the new branch (R112). -/
theorem Forest.merge {arena : List Node} {q q2 : List (Nat × Nat)} {a b : Nat × Nat} {xs : List Nat} (h : Forest arena q xs)
    (hq : q.Perm (a :: b :: q2)) (f : Freq) (v : Nat) :
    Forest (arena ++ [.branch f (some a.2) (some b.2)]) ((v, arena.length) :: q2) xs := by
  obtain ⟨ts, hts, hperm⟩ := h
  obtain ⟨us, hus, hut⟩ := List.perm_comp_forall₂ hq.symm hts
  obtain - | ⟨ha, - | ⟨hb, hus⟩⟩ := hus
  have hbranch : Stands (arena ++ [.branch f (some a.2) (some b.2)]) arena.length (.branch _ _) :=
    ⟨f, a.2, b.2, by simp, ha.append _, hb.append _⟩
  refine ⟨_, .cons hbranch (hus.imp fun _ _ h => h.append _), ?_⟩
  refine List.Perm.trans ?_ ((hut.flatMap_right _).trans hperm)
  simp

/-- The merge loop ends with one node in the queue, and one trie with all the symbols below it (R112). -/
theorem mergeRounds_forest {k : Nat} {arena : List Node} {q : List (Nat × Nat)} {xs : List Nat} (hq : q.length = k + 1)
    (h : Forest arena q xs) : ∃ e t, (mergeRounds k arena q).2 = [e] ∧ Stands (mergeRounds k arena q).1 e.2 t ∧
      (trieSymbols t).Perm xs := by
  induction k generalizing arena q with
  | zero =>
    obtain ⟨e, rfl⟩ := List.length_eq_one_iff.mp hq
    obtain ⟨ts, hts, hperm⟩ := h
    obtain - | ⟨he, - | _⟩ := hts
    exact ⟨e, _, rfl, he, by simpa using hperm⟩
  | succ k ih =>
    obtain ⟨a, b, q2, hlen, hperm, -, -, hround⟩ := mergeRounds_succ k arena hq
    rw [hround]
    exact ih (congrArg Nat.succ hlen) (h.merge hperm _ _)

theorem leafQueue_length {n : Nat} (hn : 1 ≤ n) (freq : List Freq) : (leafQueue n freq).length = n - 1 + 1 := by
  rw [leafQueue, List.length_map, List.length_range, Nat.sub_add_cancel hn]

theorem getElem?_alphabetLeaves {n x : Nat} (hx : x < n) (freq : List Freq) :
    (alphabetLeaves n freq)[x]? = some (.leaf x (freq.getD x 0)) := by
  simp [alphabetLeaves, List.getElem?_range hx]

theorem forest_alphabet (n : Nat) (freq : List Freq) : Forest (alphabetLeaves n freq) (leafQueue n freq) (List.range n) := by
  refine ⟨(List.range n).map .leaf, ?_, by simp [List.flatMap_map]⟩
  rw [leafQueue, List.forall₂_map_left_iff, List.forall₂_map_right_iff, List.forall₂_same]
  exact fun x hx => ⟨rfl, freq.getD x 0, getElem?_alphabetLeaves (List.mem_range.mp hx) freq⟩

end Sys2Proof.Machine

namespace Sys2Proof.Machine

open Sys2Proof Sys2Proof.Claims

/-! #### The leaves of a trie that stands in an arena -/

theorem mem_trieLeaves_branch {left right : Trie} {p : List Bool × Nat} : p ∈ trieLeaves (.branch left right) ↔
    ∃ b w, p.1 = b :: w ∧ (w, p.2) ∈ trieLeaves (if b then right else left) := by
  obtain ⟨v, x⟩ := p
  simp [trieLeaves, Bool.exists_bool, and_comm, eq_comm]

theorem trieLeaves_branch_length (left right : Trie) :
    (trieLeaves (.branch left right)).length = (trieLeaves left).length + (trieLeaves right).length := by
  simp [trieLeaves]

theorem assignCodes_branch {arena : List Node} {i a b : Nat} {f : Freq} (h : arena[i]? = some (.branch f (some a) (some b)))
    (fuel addr len : Nat) (tab : List CodeEntry) : assignCodes arena (fuel + 1) i addr len tab =
      assignCodes arena fuel b (2 * addr + 1) (len + 1) (assignCodes arena fuel a (2 * addr) (len + 1) tab) := by
  rw [assignCodes, h]

section

variable {arena : List Node} {i : Nat} {t : Trie}

theorem Stands.leaves_pos (h : Stands arena i t) : 0 < (trieLeaves t).length := by
  induction t generalizing i with
  | missing => exact h.elim
  | leaf x => exact Nat.one_pos
  | branch left right ihl ihr =>
    obtain ⟨-, a, -, -, hl, -⟩ := h
    rw [trieLeaves_branch_length]
    exact Nat.add_pos_left (ihl hl) _

/-- A path in a full trie is shorter than the number of its leaves. -/
theorem Stands.path_lt (h : Stands arena i t) : ∀ p ∈ trieLeaves t, p.1.length < (trieLeaves t).length := by
  induction t generalizing i with
  | missing => exact h.elim
  | leaf x => simp [trieLeaves]
  | branch left right ihl ihr =>
    obtain ⟨-, a, b, -, hl, hr⟩ := h
    have hlp := hl.leaves_pos
    have hrp := hr.leaves_pos
    intro p hp
    obtain ⟨c, w, hw, hmem⟩ := mem_trieLeaves_branch.mp hp
    rw [hw, trieLeaves_branch_length, List.length_cons]
    cases c with
    | false => have := ihl hl _ hmem; simp only at this; omega
    | true => have := ihr hr _ hmem; simp only at this; omega

/-- In a trie of two leaves at least no path is empty. -/
theorem path_pos_of_two_leaves {t : Trie} (h : 2 ≤ (trieLeaves t).length) : ∀ p ∈ trieLeaves t, 0 < p.1.length := by
  cases t with
  | missing => simp [trieLeaves]
  | leaf x => simp [trieLeaves] at h
  | branch left right =>
    intro p hp
    obtain ⟨b, w, hw, -⟩ := mem_trieLeaves_branch.mp hp
    rw [hw]; exact Nat.succ_pos _

/-- The path to a leaf leads to the leaf's node (R20). -/
theorem Stands.follow (h : Stands arena i t) : ∀ p ∈ trieLeaves t, follow arena p.1 i = some p.2 ∧
    ∃ f, arena[p.2]? = some (.leaf p.2 f) := by
  induction t generalizing i with
  | missing => exact h.elim
  | leaf x =>
    obtain ⟨rfl, hx⟩ := h
    simpa [trieLeaves, Claims.follow] using hx
  | branch left right ihl ihr =>
    obtain ⟨f, a, b, hi, hl, hr⟩ := h
    intro p hp
    obtain ⟨c, w, hw, hmem⟩ := mem_trieLeaves_branch.mp hp
    rw [hw]
    cases c with
    | false =>
      obtain ⟨hf, hleaf⟩ := ihl hl _ hmem
      exact ⟨follow_cons.mpr ⟨f, _, _, a, hi, rfl, hf⟩, hleaf⟩
    | true =>
      obtain ⟨hf, hleaf⟩ := ihr hr _ hmem
      exact ⟨follow_cons.mpr ⟨f, _, _, b, hi, rfl, hf⟩, hleaf⟩

/-- The paths of a full trie fill the code space (R126). -/
theorem Stands.kraft (h : Stands arena i t) {m : Nat} (hm : ∀ p ∈ trieLeaves t, p.1.length ≤ m) :
    ((trieLeaves t).map fun p => 2 ^ (m - p.1.length)).sum = 2 ^ m := by
  induction t generalizing i m with
  | missing => exact h.elim
  | leaf x => simp [trieLeaves]
  | branch left right ihl ihr =>
    obtain ⟨-, a, b, -, hl, hr⟩ := h
    have hside (c : Bool) : ∀ p ∈ trieLeaves (if c then right else left), p.1.length + 1 ≤ m := fun p hp =>
      hm (c :: p.1, p.2) (mem_trieLeaves_branch.mpr ⟨c, p.1, rfl, hp⟩)
    obtain ⟨p, hp⟩ := List.exists_mem_of_length_pos hl.leaves_pos
    obtain ⟨m, rfl⟩ : ∃ k, m = k + 1 := ⟨m - 1, by have := hside false p hp; omega⟩
    have hL := ihl hl fun p hp => Nat.le_of_succ_le_succ (hside false p hp)
    have hR := ihr hr fun p hp => Nat.le_of_succ_le_succ (hside true p hp)
    simp only [trieLeaves, List.map_append, List.map_map, List.sum_append, Function.comp_def, Prod.map_fst, List.length_cons,
      Nat.add_sub_add_right, hL, hR]
    ring

/-- The addresses (R116): each leaf's symbol gets the value and the length of its path, and no other entry is written. -/
theorem Stands.assignCodes (h : Stands arena i t) {fuel addr len : Nat} {tab : List CodeEntry}
    (hfuel : (trieLeaves t).length ≤ fuel) (hnd : (trieSymbols t).Nodup) (hlt : ∀ x ∈ trieSymbols t, x < tab.length) :
    (∀ p ∈ trieLeaves t, (assignCodes arena fuel i addr len tab)[p.2]? = some ⟨msbValueFrom addr p.1, len + p.1.length⟩) ∧
      ∀ x, x ∉ trieSymbols t → (assignCodes arena fuel i addr len tab)[x]? = tab[x]? := by
  have hpos := h.leaves_pos
  obtain ⟨fuel, rfl⟩ : ∃ k, fuel = k + 1 := ⟨fuel - 1, by omega⟩
  induction t generalizing i fuel addr len tab with
  | missing => exact h.elim
  | leaf x =>
    obtain ⟨rfl, f, hi⟩ := h
    simp only [trieSymbols_leaf, List.mem_singleton] at hlt ⊢
    simp only [Machine.assignCodes, hi]
    refine ⟨fun p hp => ?_, fun x hx => List.getElem?_set_ne (Ne.symm hx)⟩
    obtain rfl : p = ([], i) := by simpa [trieLeaves] using hp
    exact List.getElem?_set_self (hlt i rfl)
  | branch left right ihl ihr =>
    obtain ⟨f, a, b, hi, hl, hr⟩ := h
    have hlp := hl.leaves_pos
    have hrp := hr.leaves_pos
    rw [trieSymbols_branch] at hnd hlt ⊢
    obtain ⟨hndl, hndr, hdisj⟩ := List.nodup_append.mp hnd
    rw [trieLeaves_branch_length] at hfuel
    obtain ⟨fuel, rfl⟩ : ∃ k, fuel = k + 1 := ⟨fuel - 1, by omega⟩
    obtain ⟨hl1, hl2⟩ := ihl hl (addr := 2 * addr) (len := len + 1) (tab := tab) hndl
      (fun x hx => hlt x (List.mem_append_left _ hx)) hlp fuel (by omega)
    obtain ⟨hr1, hr2⟩ := ihr hr (addr := 2 * addr + 1) (len := len + 1)
      (tab := Machine.assignCodes arena (fuel + 1) a (2 * addr) (len + 1) tab) hndr
      (fun x hx => by rw [assignCodes_length]; exact hlt x (List.mem_append_right _ hx)) hrp fuel (by omega)
    rw [assignCodes_branch hi]
    refine ⟨fun p hp => ?_, fun x hx => ?_⟩
    · obtain ⟨c, w, hw, hmem⟩ := mem_trieLeaves_branch.mp hp
      have hsym : p.2 ∈ trieSymbols (if c then right else left) := List.mem_map.mpr ⟨_, hmem, rfl⟩
      rw [hw, List.length_cons, msbValueFrom, ← Nat.add_assoc, Nat.add_right_comm]
      cases c with
      | false => exact (hr2 _ fun h => hdisj _ hsym _ h rfl).trans (hl1 _ hmem)
      | true => exact hr1 _ hmem
    · rw [List.mem_append, not_or] at hx
      exact (hr2 x hx.2).trans (hl2 x hx.1)

end

/-! ### The tree of `HUF.BUILD` (R111 to R116) -/

theorem mem_nonZeroSymbols {n x : Nat} {freq : List Freq} : x ∈ nonZeroSymbols n freq ↔ x < n ∧ freq.getD x 0 ≠ 0 := by
  simp [nonZeroSymbols]

theorem nonZeroSymbols_eq_singleton {n x : Nat} {freq : List Freq} (hx : x < n) (hf : freq.getD x 0 ≠ 0)
    (hother : ∀ y, y < n → y ≠ x → freq.getD y 0 = 0) : nonZeroSymbols n freq = [x] := by
  have hmem (y : Nat) : y ∈ nonZeroSymbols n freq ↔ y ∈ [x] := by
    rw [mem_nonZeroSymbols, List.mem_singleton]
    exact ⟨fun h => by_contra fun hne => h.2 (hother y h.1 hne), fun h => h ▸ ⟨hx, hf⟩⟩
  exact List.perm_singleton.mp
    ((List.perm_ext_iff_of_nodup (List.nodup_range.filter _) (List.nodup_singleton x)).mpr hmem)

theorem oneFrequency_of_nonZeroSymbols {n x : Nat} {freq : List Freq} (h : nonZeroSymbols n freq = [x]) : oneFrequency n freq := by
  have hmem (y : Nat) : (y < n ∧ freq.getD y 0 ≠ 0) ↔ y = x := by rw [← mem_nonZeroSymbols, h, List.mem_singleton]
  obtain ⟨hx, hf⟩ := (hmem x).mpr rfl
  exact ⟨x, hx, hf, fun y hy hne => by_contra fun h0 => hne ((hmem y).mp ⟨hy, h0⟩)⟩

/-- With one symbol or one frequency that is not 0 the tree is the degenerate one (R114). -/
theorem buildTree_degenerate {n x : Nat} {freq : List Freq} (hx : x < n)
    (h : n = 1 ∨ (freq.getD x 0 ≠ 0 ∧ ∀ y, y < n → y ≠ x → freq.getD y 0 = 0)) :
    buildTree n freq = degenerateTree n x freq := by
  unfold buildTree
  split
  · rw [show x = 0 by omega]
  · obtain ⟨hf, hother⟩ := h.resolve_left ‹_›
    rw [nonZeroSymbols_eq_singleton hx hf hother]

/-- Else the tree is the general one (R112). -/
theorem buildTree_general {n : Nat} {freq : List Freq} (hn : 2 ≤ n) (h : ¬ oneFrequency n freq) :
    buildTree n freq = generalTree n freq := by
  unfold buildTree
  rw [if_neg (by omega)]
  split
  · exact absurd (oneFrequency_of_nonZeroSymbols ‹_›) h
  · rfl

theorem exec_hufBuild {s : State} (hs : s.bcState ≠ .failed) :
    exec .hufBuild s = .next (okWith .nothing { s with tUser := buildTree s.hufN.toNat s.freq }) :=
  next_unlessFailed hs rfl

/-- Settles O20: the tree is `degenerateTree`, whose fields the claim reads. -/
theorem buildOfOneFrequencyIsDegenerate : Obligations.BuildOfOneFrequencyIsDegenerate := by
  unfold Obligations.BuildOfOneFrequencyIsDegenerate
  intro s x hs hx h
  refine ⟨_, exec_hufBuild hs, ?_⟩
  rw [buildTree_degenerate hx h]
  refine ⟨rfl, rfl, rfl, rfl, by simp [degenerateTree], by simp [degenerateTree, hx], fun y e hy he => ?_⟩
  rw [degenerateTree, List.getElem?_set_ne (Ne.symm hy)] at he
  rw [List.eq_of_mem_replicate (List.mem_of_getElem? he)]

theorem mergeRounds_length {k : Nat} {arena : List Node} {q : List (Nat × Nat)} (hq : q.length = k + 1) :
    (mergeRounds k arena q).1.length = arena.length + k := by
  induction k generalizing arena q with
  | zero => rfl
  | succ k ih =>
    obtain ⟨a, b, q2, hlen, -, -, -, hround⟩ := mergeRounds_succ k arena hq
    rw [hround, ih (q := _ :: q2) (congrArg Nat.succ hlen), List.length_append, List.length_singleton]
    omega

theorem generalTree_arena_length {n : Nat} (hn : 1 ≤ n) (freq : List Freq) : (generalTree n freq).arena.length = 2 * n - 1 := by
  have h := mergeRounds_length (arena := alphabetLeaves n freq) (leafQueue_length hn freq)
  rw [alphabetLeaves, List.length_map, List.length_range, ← alphabetLeaves] at h
  exact h.trans (by omega)

/-- A full trie with the symbols of the alphabet stands at the root of the general tree (R112). -/
theorem generalTree_stands {n : Nat} (hn : 1 ≤ n) (freq : List Freq) :
    ∃ t, Stands (generalTree n freq).arena (generalTree n freq).root t ∧ (trieSymbols t).Perm (List.range n) := by
  obtain ⟨e, t, hq, ht, hperm⟩ := mergeRounds_forest (leafQueue_length hn freq) (forest_alphabet n freq)
  refine ⟨t, ?_, hperm⟩
  rw [generalTree, hq]
  exact ht

theorem codeBits_msbValueFrom (w : List Bool) : codeBits ⟨msbValueFrom 0 w, w.length⟩ = w := by
  rw [codeBits_eq_msbBits, msbBits_msbValueFrom]

theorem leaves_length_of_perm {n : Nat} {t : Trie} (h : (trieSymbols t).Perm (List.range n)) : (trieLeaves t).length = n := by
  simpa [trieSymbols] using h.length_eq

@[simp] theorem generalTree_tab_length (n : Nat) (freq : List Freq) : (generalTree n freq).tab.length = n := by
  simp [generalTree]

section

variable {n : Nat} {freq : List Freq} {t : Trie} (hn : 1 ≤ n)
  (ht : Stands (generalTree n freq).arena (generalTree n freq).root t) (hperm : (trieSymbols t).Perm (List.range n))

include hn ht hperm

/-- A symbol's code in the general tree is the path to its leaf (R116). -/
theorem generalTree_tab : ∀ p ∈ trieLeaves t, (generalTree n freq).tab[p.2]? = some ⟨msbValueFrom 0 p.1, p.1.length⟩ := by
  have hleaves := leaves_length_of_perm hperm
  have hlen := generalTree_arena_length hn freq
  intro p hp
  rw [← Nat.zero_add p.1.length]
  exact (ht.assignCodes (fuel := (generalTree n freq).arena.length) (by omega) (hperm.nodup_iff.mpr List.nodup_range)
    (fun x hx => by simpa using List.mem_range.mp (hperm.mem_iff.mp hx))).1 p hp

/-- Every entry of the general tree's table is the code of a leaf's path (R116). -/
theorem generalTree_entry {x : Nat} {e : CodeEntry} (he : (generalTree n freq).tab[x]? = some e) :
    ∃ w, (w, x) ∈ trieLeaves t ∧ e = ⟨msbValueFrom 0 w, w.length⟩ := by
  have hx : x < n := generalTree_tab_length n freq ▸ (List.getElem?_eq_some_iff.mp he).1
  obtain ⟨p, hp, rfl⟩ := List.mem_map.mp (hperm.mem_iff.mpr (List.mem_range.mpr hx))
  exact ⟨p.1, hp, Option.some.inj (he.symm.trans (generalTree_tab hn ht hperm p hp))⟩

/-- The codes of the general tree fill the code space, in numbers of `m` bits (R126). -/
theorem generalTree_kraft {m : Nat} (hm : ∀ p ∈ trieLeaves t, p.1.length ≤ m) :
    ((generalTree n freq).tab.map fun e => 2 ^ (m - e.length)).sum = 2 ^ m := by
  have htab := map_range_getD (generalTree n freq).tab ⟨0, 0⟩
  rw [generalTree_tab_length] at htab
  calc ((generalTree n freq).tab.map fun e => 2 ^ (m - e.length)).sum
      = ((List.range n).map fun x => 2 ^ (m - (tableEntry (generalTree n freq) x).length)).sum := by
        rw [← htab, List.map_map]; rfl
    _ = ((trieSymbols t).map fun x => 2 ^ (m - (tableEntry (generalTree n freq) x).length)).sum := (hperm.symm.map _).sum_eq
    _ = ((trieLeaves t).map fun p => 2 ^ (m - p.1.length)).sum := by
        rw [trieSymbols, List.map_map]
        congr 1
        refine List.map_congr_left fun p hp => ?_
        simp [tableEntry, generalTree_tab hn ht hperm p hp]
    _ = 2 ^ m := ht.kraft hm

end

/-- Settles O22: a full trie stands in the arena, and the table holds the paths of its leaves. -/
theorem buildAssignsTheAddresses : Obligations.BuildAssignsTheAddresses := by
  unfold Obligations.BuildAssignsTheAddresses
  intro s hs hn hone
  generalize hN : s.hufN.toNat = n at hn hone
  have hpos : 1 ≤ n := by omega
  obtain ⟨t, ht, hperm⟩ := generalTree_stands hpos s.freq
  have hleaves := leaves_length_of_perm hperm
  refine ⟨_, exec_hufBuild hs, by simp [hN], ?_⟩
  rw [hN, buildTree_general hn hone]
  refine ⟨fun x e he => ?_, generalTree_kraft hpos ht hperm fun p hp => (hleaves ▸ ht.path_lt p hp).le⟩
  obtain ⟨w, hw, rfl⟩ := generalTree_entry hpos ht hperm he
  have hlt := ht.path_lt _ hw
  refine ⟨path_pos_of_two_leaves (by omega) _ hw, Nat.le_sub_one_of_lt (hleaves ▸ hlt), ?_, ?_⟩
  · simpa using msbValueFrom_lt 0 w
  · rw [codeBits_msbValueFrom]
    exact (ht.follow _ hw).1

end Sys2Proof.Machine

namespace Sys2Proof.Machine

open Sys2Proof Sys2Proof.Claims

/-! ### Counting (R110) -/

/-- `FREQ` after counting symbols of the alphabet (R110). -/
def counted (xs : List Sym) (freq : List Freq) : List Freq :=
  xs.foldl (fun f x => f.modify x.toNat fun v => freqAdd v 1) freq

@[simp] theorem counted_length (xs : List Sym) (freq : List Freq) : (counted xs freq).length = freq.length := by
  induction xs generalizing freq with
  | nil => rfl
  | cons x xs ih => exact (ih _).trans (List.length_modify ..)

theorem freqAdd_toNat (a b : Freq) : (freqAdd a b).toNat = min (a.toNat + b.toNat) (2 ^ 32 - 1) :=
  Nat.mod_eq_of_lt (lt_of_le_of_lt (Nat.min_le_right ..) (by decide))

/-- A count is the number of occurrences, saturated (R6, R110). -/
theorem counted_getD (xs : List Sym) {freq : List Freq} {x : Nat} (hx : x < freq.length) :
    ((counted xs freq).getD x 0).toNat = min ((freq.getD x 0).toNat + (xs.map BitVec.toNat).count x) (2 ^ 32 - 1) := by
  induction xs generalizing freq with
  | nil => have := (freq.getD x 0).isLt; simp only [counted, List.foldl_nil, List.map_nil, List.count_nil]; omega
  | cons y xs ih =>
    have hlen : x < (freq.modify y.toNat fun v => freqAdd v 1).length := by rwa [List.length_modify]
    refine (ih hlen).trans ?_
    rw [List.map_cons, List.count_cons, List.getD_eq_getElem _ _ hlen, List.getD_eq_getElem _ _ hx, List.getElem_modify]
    by_cases h : y.toNat = x
    · simp only [h, if_true, freqAdd_toNat, beq_self_eq_true, show (1 : Freq).toNat = 1 from rfl]; omega
    · simp [h]

/-- Symbols of the alphabet are counted, and counting goes on with the rest (R110). -/
theorem countSymbols_append {n : Nat} {pre : List Sym} (hpre : ∀ x ∈ pre, x.toNat < n) (post : List Sym) (s : State) :
    countSymbols n (pre ++ post) s = countSymbols n post { s with freq := counted pre s.freq } := by
  induction pre generalizing s with
  | nil => rfl
  | cons x pre ih =>
    rw [List.cons_append, countSymbols, if_neg (Nat.not_le.mpr (hpre x List.mem_cons_self)),
      ih fun y hy => hpre y (List.mem_cons_of_mem _ hy)]
    rfl

/-- Settles O19: the symbols before the first one outside the alphabet are counted (`counted`). -/
theorem countGivesTheFrequencies : Obligations.CountGivesTheFrequencies := by
  unfold Obligations.CountGivesTheFrequencies
  intro s pre post hs hsym hpre hpost
  refine ⟨counted pre (List.replicate s.hufN.toNat 0), by simp, fun x hx => ?_, next_unlessFailed hs ?_⟩
  · rw [counted_getD pre (by simpa using hx)]
    simp [hx]
  · rw [hufCount, hsym, countSymbols_append hpre]
    cases post with
    | nil => rfl
    | cons y ys =>
      rw [countSymbols, if_pos (hpost y rfl), raise_eq_errorAt]
      rfl

/-! ### Encoding (R117) -/

theorem encodeSymbols_cons {t : Tree} {x : Sym} (hx : x.toNat < t.n ∧ (tableEntry t x.toNat).length ≠ 0) (xs : List Sym)
    (s : State) : encodeSymbols t (x :: xs) s = encodeSymbols t xs { s with bits := s.bits ++ codeBits (tableEntry t x.toNat) } := by
  rw [codeBits_eq_msbBits]
  exact if_neg (not_or.mpr ⟨Nat.not_le.mpr hx.1, hx.2⟩)

theorem encodeSymbols_of_no_code {t : Tree} {x : Sym} (hx : t.n ≤ x.toNat ∨ (tableEntry t x.toNat).length = 0) (xs : List Sym)
    (s : State) : encodeSymbols t (x :: xs) s = .error (raise .symbolOutOfRange s.bits.length s) := if_pos hx

/-- Symbols with codes are written, and encoding goes on with the rest (R117). -/
theorem encodeSymbols_append {t : Tree} {pre : List Sym} (hpre : ∀ x ∈ pre, x.toNat < t.n ∧ (tableEntry t x.toNat).length ≠ 0)
    (post : List Sym) (s : State) : encodeSymbols t (pre ++ post) s =
      encodeSymbols t post { s with bits := s.bits ++ pre.flatMap fun x => codeBits (tableEntry t x.toNat) } := by
  induction pre generalizing s with
  | nil => simp
  | cons x pre ih =>
    rw [List.cons_append, encodeSymbols_cons (hpre x List.mem_cons_self), ih fun y hy => hpre y (List.mem_cons_of_mem _ hy),
      List.flatMap_cons, List.append_assoc]

theorem hufEncode_of_within {s : State} (hb : s.tUser.built = true)
    (hw : within (hufEncodeResult s).cfg none (hufEncodeResult s).bits.length) : hufEncode s = hufEncodeResult s := by
  rw [hufEncode, if_pos hb, unlessTooLong_of_within hw]

/-- Settles O23: the symbols before the first one without a code are written (`encodeSymbols_append`). -/
theorem encodeAppendsTheCodes : Obligations.EncodeAppendsTheCodes := by
  unfold Obligations.EncodeAppendsTheCodes
  refine fun s hs => ⟨fun hb => next_unlessFailed hs ?_, ?_⟩
  · rw [hufEncode, hb, raise_eq_errorAt]; rfl
  · intro pre post hb hsym hpre hpost bs hbs hw
    refine next_unlessFailed hs ?_
    have happend := encodeSymbols_append hpre post s
    rw [← hsym, ← hbs] at happend
    cases post with
    | nil =>
      have hresult : hufEncodeResult s = okWith .nothing { s with bits := bs } := by rw [hufEncodeResult, happend]; rfl
      exact (hufEncode_of_within hb (by rw [hresult]; exact hw)).trans hresult
    | cons y ys =>
      have hresult : hufEncodeResult s = errorAt .symbolOutOfRange bs.length { s with bits := bs } := by
        rw [hufEncodeResult, happend, encodeSymbols_of_no_code (hpost y rfl), raise_eq_errorAt]; rfl
      exact (hufEncode_of_within hb (by rw [hresult]; exact hw)).trans hresult

/-! ### Decoding (R118) -/

/-- Symbols that the bits at the cursor spell are read, and decoding goes on behind them (R118). -/
theorem decodeSymbols_spelled {t : Tree} {ws : List (List Bool × Nat)} (hws : ∀ p ∈ ws, spells t p.1 p.2 ∧ p.2 < t.n) (k : Nat)
    {rest : List Bool} {s : State} (hbits : s.bits.drop s.rpos = ws.flatMap Prod.fst ++ rest) :
    decodeSymbols t (ws.length + k) s = decodeSymbols t k
      { s with sym := s.sym ++ ws.map (fun p => BitVec.ofNat 16 p.2), rpos := s.rpos + (ws.flatMap Prod.fst).length } := by
  induction ws generalizing s with
  | nil => simp
  | cons p ws ih =>
    obtain ⟨hsp, hlt⟩ := hws p List.mem_cons_self
    rw [List.flatMap_cons, List.append_assoc] at hbits
    rw [List.length_cons, Nat.add_right_comm, decodeSymbols, decodeSym_of_spells hbits hsp hlt]
    simp only
    rw [ih (fun q hq => hws q (List.mem_cons_of_mem _ hq)) (drop_of_drop_append hbits)]
    simp [moveCursor, Nat.add_assoc]

theorem hufDecode_of_within {count : Nat} {s : State} (hb : s.tUser.built = true)
    (hw : within (hufDecodeResult count s).cfg (hufDecodeResult count s).cfg.symCap (hufDecodeResult count s).sym.length) :
    hufDecode count s = hufDecodeResult count s := by
  rw [hufDecode, if_pos hb, symFits_iff.mpr hw]; rfl

/-- Settles O24: every symbol is spelled, and no further one is read. -/
theorem decodeReadsTheSymbols : Obligations.DecodeReadsTheSymbols := by
  unfold Obligations.DecodeReadsTheSymbols
  refine fun s count hs => ⟨fun hb => next_unlessFailed hs ?_, fun ws rest hb hlen hws hbits hw => next_unlessFailed hs ?_⟩
  · rw [hufDecode, hb, raise_eq_errorAt]; rfl
  · have hresult : hufDecodeResult count.toNat s = okWith .nothing
        { s with sym := ws.map (fun p => BitVec.ofNat 16 p.2), rpos := s.rpos + (ws.flatMap Prod.fst).length } := by
      rw [hufDecodeResult, ← hlen, ← Nat.add_zero ws.length, decodeSymbols_spelled (s := { s with sym := [] }) hws 0 hbits]
      rfl
    rw [← hresult]
    refine hufDecode_of_within hb ?_
    rw [hresult]
    simpa [okWith] using hw

/-- Settles O25: behind the symbols that are spelled the walk of the next one stops (`decodeSym_of_stopsAfter`). -/
theorem decodeStopsWhereTheWalkStops : Obligations.DecodeStopsWhereTheWalkStops := by
  unfold Obligations.DecodeStopsWhereTheWalkStops
  rintro s count ws bits w k p hs hb hlen hws hw hbits hstop rfl
  obtain ⟨j, hj⟩ := Nat.exists_eq_add_of_lt hlen
  have hresult : hufDecodeResult count.toNat s = errorAt k (s.rpos + (ws.flatMap Prod.fst).length + w.length)
      { s with
        sym := ws.map (fun p => BitVec.ofNat 16 p.2)
        rpos := s.rpos + (ws.flatMap Prod.fst).length + w.length } := by
    rw [hufDecodeResult, hj, Nat.add_assoc, decodeSymbols_spelled (s := { s with sym := [] }) hws (j + 1) hbits, decodeSymbols,
      decodeSym_of_stopsAfter (w := w) (k := k) (by rwa [← drop_of_drop_append hbits] at hstop), raise_eq_errorAt]
    rfl
  refine next_unlessFailed hs ?_
  rw [← hresult]
  refine hufDecode_of_within hb ?_
  rw [hresult]
  simpa [errorAt] using hw

/-! ### The round trip (R126) -/

/-- In a built tree the code of a symbol spells it, and is no longer than the alphabet (R114, R116). -/
theorem buildTree_spells {n x : Nat} {freq : List Freq} (hx : x < n) (hcode : (tableEntry (buildTree n freq) x).length ≠ 0) :
    spells (buildTree n freq) (codeBits (tableEntry (buildTree n freq) x)) x ∧ (tableEntry (buildTree n freq) x).length ≤ n := by
  by_cases hone : n = 1 ∨ oneFrequency n freq
  · obtain ⟨x0, hx0, hdeg⟩ : ∃ x0, x0 < n ∧ buildTree n freq = degenerateTree n x0 freq := by
      obtain hn | ⟨x0, hx0, h⟩ := hone
      · exact ⟨x, hx, buildTree_degenerate hx (.inl hn)⟩
      · exact ⟨x0, hx0, buildTree_degenerate hx0 (.inr h)⟩
    rw [hdeg] at hcode ⊢
    obtain rfl : x = x0 := by
      by_contra hne
      refine hcode ?_
      rw [tableEntry, List.getD_eq_getElem?_getD, degenerateTree, List.getElem?_set_ne (Ne.symm hne)]
      simp [hx]
    have hentry : tableEntry (degenerateTree n x freq) x = ⟨0, 1⟩ := by simp [tableEntry, degenerateTree, hx]
    rw [hentry]
    exact ⟨.inr ⟨rfl, freq.getD x 0, rfl⟩, by change 1 ≤ n; omega⟩
  · obtain ⟨hn, hone⟩ := not_or.mp hone
    rw [buildTree_general (by omega) hone] at hcode ⊢
    have hpos : 1 ≤ n := by omega
    obtain ⟨t, ht, hperm⟩ := generalTree_stands hpos freq
    have hleaves := leaves_length_of_perm hperm
    have hget : (generalTree n freq).tab[x]? = some (tableEntry (generalTree n freq) x) := by simp [tableEntry, hx]
    obtain ⟨w, hw, he⟩ := generalTree_entry hpos ht hperm hget
    obtain ⟨hfollow, f, hleaf⟩ := ht.follow _ hw
    rw [he, codeBits_msbValueFrom]
    exact ⟨.inl ⟨List.ne_nil_of_length_pos (path_pos_of_two_leaves (by omega) _ hw), x, f, hfollow, hleaf⟩,
      (hleaves ▸ ht.path_lt _ hw).le⟩

theorem length_flatMap_le {α β : Type} {f : α → List β} {k : Nat} {xs : List α} (h : ∀ x ∈ xs, (f x).length ≤ k) :
    (xs.flatMap f).length ≤ k * xs.length := by
  rw [List.length_flatMap, Nat.mul_comm, ← smul_eq_mul, ← List.length_map (as := xs)]
  refine List.sum_le_card_nsmul _ _ fun m hm => ?_
  obtain ⟨x, hx, rfl⟩ := List.mem_map.mp hm
  exact h x hx

/-- With a tree whose codes spell their symbols, what encoding writes at the cursor is decoded to the same symbols. -/
theorem encode_then_decode {s : State} (hs : s.bcState ≠ .failed) (hb : s.tUser.built = true) (hpos : s.rpos = s.bits.length)
    (hsym : ∀ x ∈ s.sym, x.toNat < s.tUser.n ∧ (tableEntry s.tUser x.toNat).length ≠ 0)
    (hspells : ∀ x ∈ s.sym, spells s.tUser (codeBits (tableEntry s.tUser x.toNat)) x.toNat)
    (hbits : within s.cfg none (s.bits ++ s.sym.flatMap fun x => codeBits (tableEntry s.tUser x.toNat)).length)
    (hcap : within s.cfg s.cfg.symCap s.sym.length) (hcount : s.sym.length < 2 ^ 32) :
    ∃ u v, exec .hufEncode s = .next u ∧ exec (.hufDecode (BitVec.ofNat 32 s.sym.length)) u = .next v ∧
      v.sym = s.sym ∧ v.bits = u.bits ∧ v.rpos = v.bits.length ∧ v.result = .ok .nothing := by
  obtain ⟨bs, hbs⟩ : ∃ bs, bs = s.bits ++ s.sym.flatMap fun x => codeBits (tableEntry s.tUser x.toNat) := ⟨_, rfl⟩
  obtain ⟨ws, hws⟩ : ∃ ws, ws = s.sym.map fun x => (codeBits (tableEntry s.tUser x.toNat), x.toNat) := ⟨_, rfl⟩
  have hwritten : bs = s.bits ++ ws.flatMap Prod.fst := by rw [hbs, hws, List.flatMap_map]
  have hread : ws.map (fun p => BitVec.ofNat 16 p.2) = s.sym := by simp [hws, Function.comp_def]
  have hlen : ws.length = s.sym.length := by rw [hws, List.length_map]
  have hspelled : ∀ p ∈ ws, spells s.tUser p.1 p.2 ∧ p.2 < s.tUser.n := by
    intro p hp
    rw [hws] at hp
    obtain ⟨x, hx, rfl⟩ := List.mem_map.mp hp
    exact ⟨hspells x hx, (hsym x hx).1⟩
  rw [← hbs] at hbits
  have hencode := (encodeAppendsTheCodes s hs).2 s.sym [] hb (List.append_nil _).symm hsym (by simp) bs hbs hbits
  have hdecode := (decodeReadsTheSymbols (okWith .nothing { s with bits := bs }) (BitVec.ofNat 32 s.sym.length) hs).2 ws [] hb
    (by rw [hlen, BitVec.toNat_ofNat, Nat.mod_eq_of_lt hcount]) hspelled (by simp [okWith, hpos, hwritten]) (hlen ▸ hcap)
  rw [hread] at hdecode
  refine ⟨_, _, hencode, hdecode, rfl, rfl, ?_, rfl⟩
  simp [okWith, hpos, hwritten]

/-- Settles O26: the codes of a built tree spell their symbols, and are no longer than the alphabet. -/
theorem huffmanRoundTrip : Obligations.HuffmanRoundTrip := by
  unfold Obligations.HuffmanRoundTrip
  intro s t hs hpos hn1 hn2 hbuild hsym hbits hcap hcount
  obtain rfl := Host.Outcome.next.inj ((exec_hufBuild hs).symm.trans hbuild)
  have hcode : ∀ x ∈ s.sym, _ := fun x hx => buildTree_spells (hsym x hx).1 (hsym x hx).2
  refine encode_then_decode (s := okWith .nothing { s with tUser := buildTree s.hufN.toNat s.freq }) hs (buildTree_built ..) hpos
    (by simpa [okWith] using hsym) (fun x hx => (hcode x hx).1) (within_of_le ?_ hbits) hcap hcount
  rw [List.length_append]
  refine Nat.add_le_add_left (length_flatMap_le fun x hx => ?_) _
  exact (codeBits_length _).trans_le ((hcode x hx).2.trans hn2)

end Sys2Proof.Machine

namespace Sys2Proof.Machine

open Sys2Proof Sys2Proof.Claims

/-! ### The merge loop takes the two lowest (R112, R113, R115) -/

theorem nodeFreq_lt (arena : List Node) (i : Nat) : nodeFreq arena i < 2 ^ 32 := by
  unfold nodeFreq
  split
  · exact BitVec.isLt _
  · exact BitVec.isLt _
  · exact Nat.two_pow_pos 32

/-- The branch at `k` joins the two lowest of the nodes that wait when it is made, as the claim says it. -/
def MergedAt (arena : List Node) (k : Nat) : Prop :=
  ∃ f a b, arena[k]? = some (.branch f (some a) (some b)) ∧
    f.toNat = min (nodeFreq arena a + nodeFreq arena b) (2 ^ 32 - 1) ∧ waiting arena k a ∧ waiting arena k b ∧
    before arena a b ∧ ∀ i, waiting arena k i → i ≠ a → i ≠ b → before arena b i

section

variable {arena : List Node} {i k : Nat}

theorem nodeFreq_append (h : i < arena.length) (ns : List Node) : nodeFreq (arena ++ ns) i = nodeFreq arena i := by
  rw [nodeFreq, List.getElem?_append_left h, ← nodeFreq]

theorem childBelow_append (h : k ≤ arena.length) (ns : List Node) : childBelow (arena ++ ns) k i ↔ childBelow arena k i := by
  have hget {j : Nat} (hj : j < k) : (arena ++ ns)[j]? = arena[j]? := List.getElem?_append_left (by omega)
  constructor <;> rintro ⟨j, f, l, r, hj, hb, hc⟩
  · exact ⟨j, f, l, r, hj, hget hj ▸ hb, hc⟩
  · exact ⟨j, f, l, r, hj, (hget hj).symm ▸ hb, hc⟩

theorem waiting_append (h : k ≤ arena.length) (ns : List Node) : waiting (arena ++ ns) k i ↔ waiting arena k i := by
  rw [waiting, waiting, childBelow_append h]

theorem before_append {j : Nat} (hi : i < arena.length) (hj : j < arena.length) (ns : List Node) :
    before (arena ++ ns) i j ↔ before arena i j := by
  rw [before, before, nodeFreq_append hi, nodeFreq_append hj]

/-- What is said of a branch speaks of the nodes before it only. -/
theorem MergedAt.append (h : MergedAt arena k) (hk : k < arena.length) (ns : List Node) : MergedAt (arena ++ ns) k := by
  obtain ⟨f, a, b, hget, hf, ha, hb, hab, hlow⟩ := h
  have hla : a < arena.length := ha.1.trans hk
  have hlb : b < arena.length := hb.1.trans hk
  refine ⟨f, a, b, (List.getElem?_append_left hk).trans hget, ?_,
    (waiting_append hk.le ns).mpr ha, (waiting_append hk.le ns).mpr hb, (before_append hla hlb ns).mpr hab, fun i hi hia hib => ?_⟩
  · rw [nodeFreq_append hla, nodeFreq_append hlb, hf]
  · have hi := (waiting_append hk.le ns).mp hi
    exact (before_append hlb (hi.1.trans hk) ns).mpr (hlow i hi hia hib)

/-- After a branch is added its two children wait no more, and the other nodes wait as before. -/
theorem waiting_branch {f : Freq} {a b : Nat} (hi : i < arena.length) :
    waiting (arena ++ [.branch f (some a) (some b)]) (arena.length + 1) i ↔ waiting arena arena.length i ∧ i ≠ a ∧ i ≠ b := by
  have hlast : (arena ++ [Node.branch f (some a) (some b)])[arena.length]? = some (.branch f (some a) (some b)) := by simp
  have hchild : childBelow (arena ++ [.branch f (some a) (some b)]) (arena.length + 1) i ↔
      childBelow arena arena.length i ∨ i = a ∨ i = b := by
    rw [← childBelow_append le_rfl [.branch f (some a) (some b)]]
    constructor
    · rintro ⟨j, g, l, r, hj, hget, hc⟩
      obtain hj | rfl := Nat.lt_succ_iff_lt_or_eq.mp hj
      · exact .inl ⟨j, g, l, r, hj, hget, hc⟩
      · rw [hlast] at hget
        cases hget
        exact .inr (hc.imp (fun h => (Option.some.inj h).symm) fun h => (Option.some.inj h).symm)
    · rintro (⟨j, g, l, r, hj, hget, hc⟩ | h)
      · exact ⟨j, g, l, r, by omega, hget, hc⟩
      · exact ⟨_, _, _, _, Nat.lt_succ_self _, hlast, h.imp (congrArg some ·.symm) (congrArg some ·.symm)⟩
  rw [waiting, waiting, hchild]
  constructor
  · rintro ⟨-, h⟩
    exact ⟨⟨hi, fun hc => h (.inl hc)⟩, fun ha => h (.inr (.inl ha)), fun hb => h (.inr (.inr hb))⟩
  · rintro ⟨⟨-, hc⟩, ha, hb⟩
    exact ⟨by omega, fun h => h.elim hc fun h => h.elim ha hb⟩

end

/-- Children are older than their branch. -/
def ChildrenOlder (arena : List Node) : Prop :=
  ∀ j f l r i, arena[j]? = some (Node.branch f l r) → (l = some i ∨ r = some i) → i < j

/-- The youngest node waits, because it is nobody's child. -/
theorem ChildrenOlder.waiting_succ {arena : List Node} (h : ChildrenOlder arena) (k : Nat) : waiting arena (k + 1) k := by
  refine ⟨Nat.lt_succ_self k, fun ⟨j, f, l, r, hj, hget, hc⟩ => ?_⟩
  have := h j f l r k hget hc
  omega

theorem ChildrenOlder.branch {arena : List Node} (h : ChildrenOlder arena) (f : Freq) {a b : Nat} (ha : a < arena.length)
    (hb : b < arena.length) : ChildrenOlder (arena ++ [.branch f (some a) (some b)]) := by
  intro j g l r i hj hc
  obtain hlt | hge := Nat.lt_or_ge j arena.length
  · exact h j g l r i (List.getElem?_append_left hlt ▸ hj) hc
  · rw [List.getElem?_append_right hge, List.getElem?_singleton] at hj
    split at hj
    · cases hj
      obtain hc | hc := hc <;> cases hc
      · exact ha.trans_le hge
      · exact hb.trans_le hge
    · cases hj

/-- What the merge loop keeps: the queue holds the waiting nodes with their frequencies, each once; children are older than their
branch; every branch from `n` on is the merge of the two lowest (R112, R115). -/
structure MergeInv (n : Nat) (arena : List Node) (q : List (Nat × Nat)) : Prop where
  nodup : q.Nodup
  queue : ∀ e, e ∈ q ↔ waiting arena arena.length e.2 ∧ e.1 = nodeFreq arena e.2
  older : ChildrenOlder arena
  merged : ∀ k, n ≤ k → k < arena.length → MergedAt arena k

/-- In the queue the node decides the element. -/
theorem MergeInv.eq_iff {n : Nat} {arena : List Node} {q : List (Nat × Nat)} {d e : Nat × Nat} (h : MergeInv n arena q) (hd : d ∈ q)
    (he : e ∈ q) : d = e ↔ d.2 = e.2 := by
  refine ⟨congrArg Prod.snd, fun h2 => Prod.ext ?_ h2⟩
  rw [((h.queue d).mp hd).2, ((h.queue e).mp he).2, h2]

theorem before_of_queueLess {n : Nat} {arena : List Node} {q : List (Nat × Nat)} {d e : Nat × Nat} (h : MergeInv n arena q)
    (hd : d ∈ q) (he : e ∈ q) (hlt : queueLess d e) : before arena d.2 e.2 := by
  rw [queueLess_iff, ((h.queue d).mp hd).2, ((h.queue e).mp he).2] at hlt
  exact hlt

theorem freqAdd_ofNat_toNat {a b : Nat} (ha : a < 2 ^ 32) (hb : b < 2 ^ 32) :
    (freqAdd (BitVec.ofNat 32 a) (BitVec.ofNat 32 b)).toNat = satAdd a b := by
  rw [freqAdd_toNat, BitVec.toNat_ofNat, BitVec.toNat_ofNat, Nat.mod_eq_of_lt ha, Nat.mod_eq_of_lt hb]
  rfl

section

variable {n : Nat} {arena : List Node} {q q2 : List (Nat × Nat)} {a b : Nat × Nat} (h : MergeInv n arena q)
  (hq : q.Perm (a :: b :: q2))

include h hq

/-- The two popped elements were in the queue, on two nodes, and the others are left. -/
theorem MergeInv.popped : a ∈ q ∧ b ∈ q ∧ a.2 ≠ b.2 ∧ q2.Nodup ∧ ∀ e, e ∈ q2 ↔ e ∈ q ∧ e.2 ≠ a.2 ∧ e.2 ≠ b.2 := by
  obtain ⟨⟨hab, ha2⟩, hb2, hnd2⟩ : (a ≠ b ∧ a ∉ q2) ∧ b ∉ q2 ∧ q2.Nodup := by
    simpa [List.nodup_cons] using hq.nodup_iff.mp h.nodup
  have hmem (e : Nat × Nat) : e ∈ q ↔ e = a ∨ e = b ∨ e ∈ q2 := by simp [hq.mem_iff]
  have hma := (hmem a).mpr (.inl rfl)
  have hmb := (hmem b).mpr (.inr (.inl rfl))
  refine ⟨hma, hmb, fun h2 => hab ((h.eq_iff hma hmb).mpr h2), hnd2, fun e => ⟨fun he => ?_, fun ⟨he, h1, h2⟩ => ?_⟩⟩
  · have heq := (hmem e).mpr (.inr (.inr he))
    rw [ne_eq, ne_eq, ← h.eq_iff heq hma, ← h.eq_iff heq hmb]
    exact ⟨heq, fun h => ha2 (h ▸ he), fun h => hb2 (h ▸ he)⟩
  · obtain rfl | rfl | he := (hmem e).mp he
    · exact absurd rfl h1
    · exact absurd rfl h2
    · exact he

/-- The new branch is the merge of the two lowest (R112, R113, R115). -/
theorem MergeInv.mergedAt (ha : ∀ e ∈ b :: q2, e ≠ a → queueLess a e) (hb : ∀ e ∈ q2, e ≠ b → queueLess b e) :
    MergedAt (arena ++ [.branch (freqAdd (BitVec.ofNat 32 a.1) (BitVec.ofNat 32 b.1)) (some a.2) (some b.2)]) arena.length := by
  obtain ⟨hma, hmb, hab, -, hrest⟩ := h.popped hq
  obtain ⟨hwa, hfa⟩ := (h.queue a).mp hma
  obtain ⟨hwb, hfb⟩ := (h.queue b).mp hmb
  refine ⟨_, a.2, b.2, List.getElem?_concat_length, ?_,
    (waiting_append le_rfl _).mpr hwa, (waiting_append le_rfl _).mpr hwb,
    (before_append hwa.1 hwb.1 _).mpr (before_of_queueLess h hma hmb (ha b List.mem_cons_self fun he => hab (he ▸ rfl))),
    fun i hi hia hib => ?_⟩
  · rw [nodeFreq_append hwa.1, nodeFreq_append hwb.1, hfa, hfb, freqAdd_ofNat_toNat (nodeFreq_lt ..) (nodeFreq_lt ..)]
    rfl
  · have hi := (waiting_append le_rfl _).mp hi
    have hmi : (nodeFreq arena i, i) ∈ q := (h.queue _).mpr ⟨hi, rfl⟩
    have hlow := hb _ ((hrest _).mpr ⟨hmi, hia, hib⟩) fun he => hib (he ▸ rfl)
    exact (before_append hwb.1 hi.1 _).mpr (before_of_queueLess h hmb hmi hlow)

/-- A round keeps the invariant (R112). -/
theorem MergeInv.merge (ha : ∀ e ∈ b :: q2, e ≠ a → queueLess a e) (hb : ∀ e ∈ q2, e ≠ b → queueLess b e) :
    MergeInv n (arena ++ [.branch (freqAdd (BitVec.ofNat 32 a.1) (BitVec.ofNat 32 b.1)) (some a.2) (some b.2)])
      ((satAdd a.1 b.1, arena.length) :: q2) := by
  have hnew := h.mergedAt hq ha hb
  obtain ⟨hma, hmb, hab, hnd2, hrest⟩ := h.popped hq
  obtain ⟨hwa, hfa⟩ := (h.queue a).mp hma
  obtain ⟨hwb, hfb⟩ := (h.queue b).mp hmb
  have hsum := freqAdd_ofNat_toNat (hfa ▸ nodeFreq_lt arena a.2) (hfb ▸ nodeFreq_lt arena b.2)
  generalize freqAdd (BitVec.ofNat 32 a.1) (BitVec.ofNat 32 b.1) = f at hnew hsum ⊢
  have holder := h.older.branch f hwa.1 hwb.1
  have hlen : (arena ++ [Node.branch f (some a.2) (some b.2)]).length = arena.length + 1 := by simp
  refine ⟨List.nodup_cons.mpr ⟨fun hin => ?_, hnd2⟩, fun e => ?_, holder, fun k hn hk => ?_⟩
  · exact Nat.lt_irrefl _ ((h.queue _).mp ((hrest _).mp hin).1).1.1
  · rw [hlen, List.mem_cons, hrest, h.queue]
    obtain hlt | hge := Nat.lt_or_ge e.2 arena.length
    · have hne : e ≠ (satAdd a.1 b.1, arena.length) := fun he => hlt.ne (congrArg Prod.snd he)
      rw [waiting_branch hlt, nodeFreq_append hlt]
      simp only [hne, false_or]
      tauto
    · have hfreq : nodeFreq (arena ++ [.branch f (some a.2) (some b.2)]) arena.length = satAdd a.1 b.1 := by
        rw [nodeFreq, List.getElem?_concat_length]
        exact hsum
      constructor
      · rintro (rfl | ⟨⟨hw, -⟩, -⟩)
        · exact ⟨holder.waiting_succ _, hfreq.symm⟩
        · exact absurd hw.1 (Nat.not_lt.mpr hge)
      · rintro ⟨hw, hf⟩
        have he : e.2 = arena.length := Nat.le_antisymm (Nat.le_of_lt_succ hw.1) hge
        exact .inl (Prod.ext (hf.trans (he ▸ hfreq)) he)
  · obtain hlt | rfl := Nat.lt_succ_iff_lt_or_eq.mp (hlen ▸ hk)
    · exact (h.merged k hn hlt).append hlt _
    · exact hnew

end

/-- The merge loop keeps the invariant, and the nodes that were there (R112). -/
theorem mergeRounds_inv {n k : Nat} {arena : List Node} {q : List (Nat × Nat)} (hq : q.length = k + 1) (h : MergeInv n arena q) :
    MergeInv n (mergeRounds k arena q).1 (mergeRounds k arena q).2 ∧ arena <+: (mergeRounds k arena q).1 := by
  induction k generalizing arena q with
  | zero => exact ⟨h, List.prefix_rfl⟩
  | succ k ih =>
    obtain ⟨a, b, q2, hlen, hperm, ha, hb, hround⟩ := mergeRounds_succ k arena hq
    obtain ⟨hinv, hpre⟩ := ih (q := _ :: q2) (congrArg Nat.succ hlen) (h.merge hperm ha hb)
    rw [hround]
    exact ⟨hinv, (List.prefix_append _ _).trans hpre⟩

theorem getElem?_alphabetLeaves_ne_branch (n : Nat) (freq : List Freq) (j : Nat) (f : Freq) (l r : Option Nat) :
    (alphabetLeaves n freq)[j]? ≠ some (.branch f l r) := by
  intro h
  obtain ⟨x, -, hx⟩ := List.mem_map.mp (List.mem_of_getElem? h)
  cases hx

/-- Before the first round all leaves wait, and no branch has been made (R112). -/
theorem mergeInv_alphabet (n : Nat) (freq : List Freq) : MergeInv n (alphabetLeaves n freq) (leafQueue n freq) := by
  have hbranch := getElem?_alphabetLeaves_ne_branch n freq
  have hlen : (alphabetLeaves n freq).length = n := by simp [alphabetLeaves]
  refine ⟨List.nodup_range.map fun x y h => congrArg Prod.snd h, fun e => ?_, fun j f l r _ h => absurd h (hbranch j f l r), ?_⟩
  · have hw : waiting (alphabetLeaves n freq) n e.2 ↔ e.2 < n :=
      ⟨And.left, fun h => ⟨h, fun ⟨j, f, l, r, _, hj, _⟩ => hbranch j f l r hj⟩⟩
    have hf (hx : e.2 < n) : nodeFreq (alphabetLeaves n freq) e.2 = (freq.getD e.2 0).toNat := by
      rw [nodeFreq, getElem?_alphabetLeaves hx]
    rw [hlen, hw, leafQueue, List.mem_map]
    constructor
    · rintro ⟨x, hx, rfl⟩
      exact ⟨List.mem_range.mp hx, (hf (List.mem_range.mp hx)).symm⟩
    · rintro ⟨hx, he⟩
      exact ⟨e.2, List.mem_range.mpr hx, Prod.ext (he.trans (hf hx)).symm rfl⟩
  · intro k hn hk
    omega

/-- Settles O21: the invariant of the merge loop holds at its end, where the last branch alone waits. -/
theorem buildMergesTheTwoLowest : Obligations.BuildMergesTheTwoLowest := by
  unfold Obligations.BuildMergesTheTwoLowest
  intro s hs hn hone
  generalize hN : s.hufN.toNat = n at hn hone ⊢
  have hpos : 1 ≤ n := by omega
  obtain ⟨hinv, ns, harena⟩ := mergeRounds_inv (leafQueue_length hpos s.freq) (mergeInv_alphabet n s.freq)
  have hlen := generalTree_arena_length hpos s.freq
  change MergeInv n (generalTree n s.freq).arena _ at hinv
  refine ⟨generalTree n s.freq, ?_, rfl, rfl, hlen, ?_, fun x hx => ?_, fun k hk1 hk2 => hinv.merged k hk1 (by omega)⟩
  · rw [exec_hufBuild hs, hN, buildTree_general hn hone]
  · obtain ⟨e, -, hq, -⟩ := mergeRounds_forest (leafQueue_length hpos s.freq) (forest_alphabet n s.freq)
    have hroot : (generalTree n s.freq).root = e.2 := by rw [generalTree, hq]; rfl
    have hlast := hinv.older.waiting_succ (2 * n - 2)
    rw [show 2 * n - 2 + 1 = (generalTree n s.freq).arena.length by omega] at hlast
    have hmem := (hinv.queue (nodeFreq (generalTree n s.freq).arena (2 * n - 2), 2 * n - 2)).mpr ⟨hlast, rfl⟩
    rw [hq, List.mem_singleton] at hmem
    rw [hroot, ← hmem]
  · change (mergeRounds (n - 1) (alphabetLeaves n s.freq) (leafQueue n s.freq)).1[x]? = _
    have hleaf := getElem?_alphabetLeaves hx s.freq
    rw [← harena, List.getElem?_append_left (List.getElem?_eq_some_iff.mp hleaf).1, hleaf]

end Sys2Proof.Machine

namespace Sys2Proof.Machine

open Sys2Proof Sys2Proof.Claims

/-! ### The search and the scan as the claims state them (R135 to R141) -/

/-- `Find` returns a place exactly when it is the greatest one in the window (R137, R138). -/
theorem findMatch_eq_some_iff {data : List Byte} {w i k f : Nat} (hk : i + k ≤ data.length) :
    findMatch data w i k = some f ↔
      i - w ≤ f ∧ f < i ∧ occurs data f i k ∧ ∀ g, f < g → g < i → ¬ occurs data g i k := by
  refine ⟨findMatch_some hk, fun ⟨hlo, hi, hocc, hnear⟩ => ?_⟩
  cases hfind : findMatch data w i k with
  | none => exact absurd hocc (findMatch_none hk hfind f hlo hi)
  | some g =>
    obtain ⟨-, hgi, hoccg, hnearg⟩ := findMatch_some hk hfind
    obtain hlt | rfl | hgt := Nat.lt_trichotomy f g
    · exact absurd hoccg (hnear g hlt hgi)
    · rfl
    · exact absurd hocc (hnearg f hgt hi)

/-- `Find` returns nothing exactly when the candidate occurs nowhere in the window (R137). -/
theorem findMatch_eq_none_iff {data : List Byte} {w i k : Nat} (hk : i + k ≤ data.length) :
    findMatch data w i k = none ↔ ∀ g, i - w ≤ g → g < i → ¬ occurs data g i k := by
  refine ⟨findMatch_none hk, fun hno => ?_⟩
  cases hfind : findMatch data w i k with
  | none => rfl
  | some f =>
    obtain ⟨hlo, hi, hocc, -⟩ := findMatch_some hk hfind
    exact absurd hocc (hno f hlo hi)

/-- Settles O30: the place found is the greatest one, and the greatest one is unique. -/
theorem findReturnsTheNearest : Obligations.FindReturnsTheNearest := by
  unfold Obligations.FindReturnsTheNearest
  exact fun data w i k hk => ⟨fun f => findMatch_eq_some_iff hk, findMatch_eq_none_iff hk⟩

/-- Where the longest candidate is shorter than a match, no three bytes occur in the window (R141). -/
theorem not_occurs_of_longestMatch_short {data : List Byte} {w i : Nat} (h : (longestMatch data w i).1 < 3) :
    ∀ d, inWindow w i d → ¬ occurs data (i - d) i 3 := by
  intro d ⟨hd1, hdi, hdw⟩ hocc
  obtain ⟨-, -, hno⟩ := longestMatch_spec data w i
  exact hno (by omega) (i - d) (by omega) (by omega) (occurs_of_le (by omega) hocc)

/-- A longest candidate of three bytes or more is a greedy match, whatever greedy tokens follow it (R136 to R140). -/
theorem greedy_match_of_longestMatch {data : List Byte} {w i : Nat} (h : 3 ≤ (longestMatch data w i).1) :
    ∃ len d, longestMatch data w i = (len, some (i - d)) ∧ 3 ≤ len ∧ d ≤ i ∧
      ∀ ts, greedy data w (i + len) ts → greedy data w i (.backRef len d :: ts) := by
  obtain ⟨hcand, hlong, hno⟩ := longestMatch_spec data w i
  obtain ⟨h0, -⟩ | ⟨f, hm, -, hle, hf⟩ := hcand
  · omega
  obtain ⟨hlo, hi, hocc, hnear⟩ := findMatch_some hle hf
  obtain ⟨hin, hsub⟩ := inWindow_sub hlo hi
  refine ⟨(longestMatch data w i).1, i - f, Prod.ext rfl (hsub.symm ▸ hm), h, hin.2.1, fun ts hts =>
    ⟨h, hlong, hin, hsub.symm ▸ hocc, ?nearest, ?longest, hts⟩⟩
  case nearest => exact fun d' ⟨hd1, hdi, _⟩ hlt => hnear (i - d') (by omega) (by omega)
  case longest => exact fun hlt d' ⟨hd1, hdi, hdw⟩ => hno hlt (i - d') (by omega) (by omega)

/-- The scan from any index gives greedy tokens (R136). -/
theorem greedy_scanFrom {data : List Byte} {w fuel i : Nat} (hfuel : data.length ≤ i + fuel) :
    greedy data w i (scanFrom data w fuel i) := by
  induction fuel generalizing i with
  | zero => exact hfuel
  | succ fuel ih =>
    obtain hend | hi := le_or_gt data.length i
    · rw [scanFrom_of_le hend]; exact hend
    obtain hshort | hlong := Nat.lt_or_ge (longestMatch data w i).1 3
    · have hb := List.getElem?_eq_getElem hi
      rw [scanFrom_literal hb hshort]
      exact ⟨hb, not_occurs_of_longestMatch_short hshort, ih (by omega)⟩
    · obtain ⟨len, d, hm, h3, hd, hmatch⟩ := greedy_match_of_longestMatch hlong
      rw [scanFrom_match hi h3 hd hm]
      exact hmatch _ (ih (by omega))

theorem greedy_scan (data : List Byte) (w : Nat) : greedy data w 0 (scan data w) := greedy_scanFrom (Nat.zero_add _).ge

/-- `LZ.SCAN` completes where `TOK` may be as long as `IN`: a token covers a byte at least (R13, R135, R136). -/
theorem exec_lzScan_of_within {s : State} (hs : s.bcState ≠ .failed) (hw : within s.cfg s.cfg.tokCap s.inBuf.length) :
    exec .lzScan s = .next (okWith .nothing (scanned s)) := by
  have hlen : (scan s.inBuf s.window.toNat).length ≤ s.inBuf.length := greedy_length_le (greedy_scan _ _)
  have hfits : tokFits (scanned s) = true := tokFits_iff.mpr (within_of_le hlen hw)
  exact next_unlessFailed hs (if_pos hfits)

/-- Settles O31: by induction on the scan's fuel, each round takes a greedy token. -/
theorem scanIsGreedy : Obligations.ScanIsGreedy := by
  unfold Obligations.ScanIsGreedy
  exact fun s hs hw => ⟨scan s.inBuf s.window.toNat, exec_lzScan_of_within hs hw, greedy_scan _ _⟩

end Sys2Proof.Machine

namespace Sys2Proof.Machine

open Sys2Proof Sys2Proof.Claims

/-! ### How an `INFLATE` ends (R150, R232) -/

/-- `INFLATE` has returned: it is done with `Ok`, or it has raised (R166, R196). -/
def Ended (s : State) : Prop :=
  (s.bcState = .done ∧ s.result = .ok .nothing) ∨ ∃ e, s.bcState = .failed ∧ s.result = .error e

theorem Ended.raise (k : ErrorKind) (off : Nat) (s : State) : Ended (raise k off s) := .inr ⟨k, rfl, rfl⟩

theorem Performed.ended_of_not_running {f : Format} {v : Nat} {s t : State} (h : Performed f v s t) (hs : running s = true)
    (ht : running t = false) : Ended t := by
  cases h with
  | raised k _ => exact .raise ..
  | @ended u _ _ _ =>
    obtain ⟨-, he⟩ | ⟨-, he⟩ := endOfBlock_cases u <;> rw [he] at ht ⊢
    · exact .inl ⟨rfl, rfl⟩
    · cases ht
  | continued _ hst _ =>
    exfalso
    obtain hb | hb | hb := hst
    · have hsame : running t = running s := by simp only [running, hb]
      rw [hsame, hs] at ht
      cases ht
    all_goals simp only [running, hb] at ht; cases ht

/-- A step that ends an `INFLATE` ends it in `Done` with `Ok`, or in `Failed` with an error. -/
theorem inflateStep_ended {s : State} (h : RunInv s) (hr : running s = true) (hend : running (inflateStep s) = false) :
    Ended (inflateStep s) := by
  have hl := inflateStep_leaves h.toBlockInv hr
  generalize inflateStep s = t at hl hend ⊢
  cases hl with
  | stopped k n b _ => exact .raise ..
  | performed _ _ _ hp => exact hp.ended_of_not_running hr hend

theorem inflateRun_ended {s : State} (h : RunInv s) (hr : running s = true) {k : Nat} (hend : running (inflateRun k s) = false) :
    Ended (inflateRun k s) := by
  induction k generalizing s with
  | zero => rw [show inflateRun 0 s = s from rfl, hr] at hend; cases hend
  | succ k ih =>
    rw [inflateRun_succ hr] at hend ⊢
    by_cases hr' : running (inflateStep s) = true
    · exact ih (inflateStep_progress h hr).1 hr' hend
    · have hr' : running (inflateStep s) = false := Bool.not_eq_true _ ▸ hr'
      rw [inflateRun_of_not_running hr']
      exact inflateStep_ended h hr hr'

/-- The machine reaches what the run of `INFLATE` leaves, whatever commands wait behind it (R50, R150). -/
theorem run_reaches_inflateRun {s : State} (h : RunInv s) (k : Nat) : ∃ j ≤ k, run j s = .next (inflateRun k s) := by
  induction k generalizing s with
  | zero => exact ⟨0, Nat.le_refl 0, rfl⟩
  | succ k ih =>
    by_cases hr : running s = true
    · obtain ⟨j, hj, hrun⟩ := ih (inflateStep_progress h hr).1
      refine ⟨j + 1, by omega, ?_⟩
      rw [inflateRun_succ hr, run, step_eq_inflateStep h.toBlockInv hr]
      exact hrun
    · exact ⟨0, Nat.zero_le _, by rw [inflateRun_of_not_running (Bool.not_eq_true _ ▸ hr)]; rfl⟩

/-- `INFLATE` begins where its whole run leaves an `OUT` within its limit (R13). -/
theorem exec_inflate_of_within {s : State} (hs : s.bcState ≠ .failed)
    (hw : within s.cfg s.cfg.outCap (inflateWhole s).out.length) : exec .inflate s = .next (inflateStart s) := by
  have hfits : outFits (inflateWhole s) = true := outFits_iff.mpr (by rwa [inflateWhole_cfg])
  rw [exec_inflate hs, if_pos hfits]

theorem inflateWhole_out_le (s : State) : (inflateWhole s).out.length ≤ 258 * (s.bits.length - s.rpos) := by
  have h : (inflateWhole s).out.length ≤ 0 + 258 * remaining s := inflateRun_out_le (inflateStart_runInv s) _
  rwa [Nat.zero_add] at h

/-- Settles O43: the whole run has ended after its fuel, one step for each bit and one more, and the machine follows it. -/
theorem inflateTerminates : Obligations.InflateTerminates := by
  unfold Obligations.InflateTerminates
  intro s hs hw
  obtain ⟨k, hk, hrun⟩ := run_reaches_inflateRun (inflateStart_runInv s) (inflateFuel s)
  exact ⟨_, _, k, exec_inflate_of_within hs (within_of_le (inflateWhole_out_le s) hw), hk, hrun,
    inflateRun_ended (inflateStart_runInv s) rfl (inflateWhole_ends s)⟩

/-- Settles O51: the invariant's part on the block is enough (`step_eq_inflateStep`). -/
theorem stepIsTheStepOfInflate : Obligations.StepIsTheStepOfInflate := by
  unfold Obligations.StepIsTheStepOfInflate
  exact fun s hs hr => step_eq_inflateStep (.of_stateInv hs) hr

end Sys2Proof.Machine

namespace Sys2Proof.Machine

open Sys2Proof Sys2Proof.Claims

/-! ### Elements of a block's body (R154, R161 to R166) -/

theorem fixedBlock_eq (f : Bool) (s : State) :
    fixedBlock f s = withHeader f 1 { s with bcState := .blockBody, tLl := fixedLl, tD := fixedD } := rfl

theorem appendOut_eq (b : Byte) (s : State) : appendOut b s = { s with out := s.out ++ [b] } := rfl

theorem endOfBlock_eq_blockEnd (s : State) : endOfBlock s = blockEnd s := by
  unfold endOfBlock blockEnd
  split <;> rfl

theorem blockEnd_of_final {s : State} (h : s.bfinal = true) :
    blockEnd s = { s with outValid := s.out.length, bcState := .done, result := .ok .nothing } := if_pos h

theorem blockEnd_of_not_final {s : State} (h : s.bfinal = false) :
    blockEnd s = { s with outValid := s.out.length, bcState := .readHeader } := if_neg (by simp [h])

/-- Settles O34: the header's two fields and the fixed trees (`fixedBlock_eq`). -/
theorem fixedHeaderSelectsTheFixedTrees : Obligations.FixedHeaderSelectsTheFixedTrees := by
  unfold Obligations.FixedHeaderSelectsTheFixedTrees
  exact fun s f => congrArg Host.Outcome.next (fixedBlock_eq f s)

/-- Settles O37: the element is one byte appended (`appendOut_eq`). -/
theorem literalAppendsItsByte : Obligations.LiteralAppendsItsByte := by
  unfold Obligations.LiteralAppendsItsByte
  exact fun s b => congrArg Host.Outcome.next (appendOut_eq b s)

/-- Settles O38: the end of a block is the claims' `blockEnd`, whose two cases are the statement's. -/
theorem endOfBlockLoopsUnlessFinal : Obligations.EndOfBlockLoopsUnlessFinal := by
  unfold Obligations.EndOfBlockLoopsUnlessFinal
  exact fun s => ⟨fun h => congrArg Host.Outcome.next ((endOfBlock_eq_blockEnd s).trans (blockEnd_of_not_final h)),
    fun h => congrArg Host.Outcome.next ((endOfBlock_eq_blockEnd s).trans (blockEnd_of_final h))⟩

/-- The machine's table has the rows of R74, and the instruction of a row is the element of its symbol. -/
theorem distanceRow_eq : ∀ row ∈ distanceRows, encode row.instr = ⟨.dSym, BitVec.ofNat 64 row.symbol⟩ ∧
    row.symbol < 30 ∧ rowOf distTab row.symbol = ⟨row.symbol, row.extra, row.base, row.top⟩ := by decide

theorem exec_distanceRow {row : Row} (h : row ∈ distanceRows) (s : State) :
    exec row.instr s = .next (distanceSymbol row.symbol s) := by
  obtain ⟨henc, hlt, -⟩ := distanceRow_eq row h
  have hf : row.instr.format = .dSym := congrArg Encoded.format henc
  rw [exec_element (by rw [hf]; decide), hf, henc, BitVec.toNat_ofNat, Nat.mod_eq_of_lt (by omega)]
  simp only [performElement, dElement, if_neg (show ¬ 30 ≤ row.symbol by omega)]

/-- A match copy is the claims' `copyBack` on `OUT` (R165). -/
theorem copyMatch_eq (d n : Nat) (s : State) : copyMatch d n s = { s with out := copyBack d n s.out } := by
  induction n generalizing s with
  | zero => rfl
  | succ n ih => exact ih _

/-- A distance inside `OUT` and the window copies the pending length (R164, R165). -/
theorem performMatch_of_le {d len : Nat} {s : State} (hl : s.lenPending = some len) (hout : d ≤ s.out.length)
    (hw : d ≤ s.window.toNat) : performMatch d s = { s with lenPending := none, out := copyBack d len s.out } := by
  rw [performMatch, if_neg (by omega), hl]
  exact copyMatch_eq d len _

/-- A distance past the start of `OUT` or past the window raises at the cursor (R164). -/
theorem performMatch_of_lt {d : Nat} {s : State} (h : s.out.length < d ∨ s.window.toNat < d) :
    performMatch d s = raise .windowViolation s.rpos s := if_pos h

/-- Settles O40: the extra bits are read or missing, and the distance passes the window check or not. -/
theorem distanceSymbolsCopyTheMatch : Obligations.DistanceSymbolsCopyTheMatch := by
  unfold Obligations.DistanceSymbolsCopyTheMatch
  intro s len hlen row hrow
  obtain ⟨-, -, htab⟩ := distanceRow_eq row hrow
  simp only [exec_distanceRow hrow, distanceSymbol, htab]
  refine ⟨fun hpos hshort => ?_, fun e he hbits => ⟨fun hout hw => ?_, fun hfar => ?_⟩⟩
  · rw [readBits_of_lt (by omega), ← raise_eq_errorAt]
  · rw [readBits_field he hbits]
    exact congrArg Host.Outcome.next (performMatch_of_le (s := moveCursor _ s) hlen hout hw)
  · rw [readBits_field he hbits, ← raise_eq_errorAt]
    exact congrArg Host.Outcome.next (performMatch_of_lt (s := moveCursor _ s) hfar)

end Sys2Proof.Machine

namespace Sys2Proof.Machine

open Sys2Proof Sys2Proof.Claims

/-! ### A stored block is read (R152, R153) -/

/-- A field that stands at the cursor is read as its value (R93). -/
theorem readBits_of_field {s : State} {n e : Nat} {rest : List Bool} (he : e < 2 ^ n) (h : s.bits.drop s.rpos = field n e ++ rest) :
    readBits n .lsb s = .ok (e, moveCursor (s.rpos + n) s) :=
  readBits_field he (by rw [h, List.take_left' (field_length n e)])

theorem drop_of_drop_field {bits rest : List Bool} {p n e : Nat} (h : bits.drop p = field n e ++ rest) : bits.drop (p + n) = rest := by
  have hdrop := drop_of_drop_append h
  rwa [field_length] at hdrop

/-- The complement of a 16-bit number (R153, R171). -/
theorem xor_ffff {x : Nat} (hx : x < 65536) : x ^^^ 0xFFFF = 65535 - x := by
  have h := congrArg BitVec.toNat (BitVec.xor_allOnes (x := BitVec.ofNat 16 x))
  rwa [BitVec.toNat_xor, BitVec.toNat_not, BitVec.toNat_ofNat, BitVec.toNat_allOnes, Nat.mod_eq_of_lt hx] at h

theorem byteBits_cons (x : Byte) (xs : List Byte) : byteBits (x :: xs) = field 8 x.toNat ++ byteBits xs := List.flatMap_cons ..

@[simp] theorem byteBits_length (xs : List Byte) : (byteBits xs).length = 8 * xs.length := by
  simp [byteBits, List.length_flatMap, Nat.mul_comm]

theorem advance_advance (p q : Nat) (xs ys : List Byte) (s : State) : advance q ys (advance p xs s) = advance q (xs ++ ys) s := by
  simp [advance]

/-- Raw bytes that stand at the cursor are copied, and copying goes on behind them (R153). -/
theorem copyRaw_of_bytes {xs : List Byte} (n : Nat) {rest : List Bool} {s : State} (h : s.bits.drop s.rpos = byteBits xs ++ rest) :
    copyRaw (xs.length + n) s = copyRaw n (advance (s.rpos + 8 * xs.length) xs s) := by
  induction xs generalizing s with
  | nil => simp [advance]
  | cons x xs ih =>
    rw [byteBits_cons, List.append_assoc] at h
    have hbyte : copyRaw ((x :: xs).length + n) s = copyRaw (xs.length + n) (advance (s.rpos + 8) [x] s) := by
      rw [List.length_cons, Nat.add_right_comm, copyRaw, readBits_of_field x.isLt h]
      simp only [BitVec.ofNat_toNat, BitVec.setWidth_eq]
      rfl
    rw [hbyte, ih (s := advance (s.rpos + 8) [x] s) (drop_of_drop_field h), advance_advance, List.length_cons]
    congr 2
    simp only [advance]; omega

theorem copyRaw_of_short {n : Nat} {s : State} (h : s.bits.length - s.rpos < 8) :
    copyRaw (n + 1) s = .error (raise .truncatedStream s.rpos s) := by
  simp only [copyRaw, readBits_of_lt h]

/-- Bits from a place on are there only if the place is inside the stream. -/
theorem length_of_drop {bits w : List Bool} {p : Nat} (h : bits.drop p = w) (hw : 0 < w.length) : bits.length = p + w.length := by
  have hlen := congrArg List.length h
  rw [List.length_drop] at hlen
  omega

theorem alignRead_of_le {s : State} (h : aligned s.rpos ≤ s.bits.length) : alignRead s = moveCursor (aligned s.rpos) s :=
  congrArg (moveCursor · s) (Nat.min_eq_left h)

/-- LEN and NLEN at the next byte boundary: the test of the complement, then the copy (R153). -/
theorem storedBody_of_fields {s : State} {len nlen : Nat} {rest : List Bool} (hlen : len < 65536) (hnlen : nlen < 65536)
    (h : s.bits.drop (aligned s.rpos) = field 16 len ++ (field 16 nlen ++ rest)) :
    storedBody s =
      if len ≠ 65535 - nlen then raise .malformedBlockHeader (aligned s.rpos + 32) (moveCursor (aligned s.rpos + 32) s)
      else settled ((copyRaw len (moveCursor (aligned s.rpos + 32) s)).map endOfBlock) := by
  have hend := length_of_drop h (by simp only [List.length_append, field_length]; omega)
  have h1 := readBits_of_field (s := moveCursor (aligned s.rpos) s) (n := 16) hlen h
  have h2 := readBits_of_field (s := moveCursor (aligned s.rpos + 16) s) (n := 16) hnlen (drop_of_drop_field h)
  rw [storedBody, alignRead_of_le (by omega), h1]
  simp only
  rw [show moveCursor ((moveCursor (aligned s.rpos) s).rpos + 16) (moveCursor (aligned s.rpos) s) =
    moveCursor (aligned s.rpos + 16) s from rfl, h2]
  simp only [xor_ffff hnlen]
  rfl

/-- A stored block that is whole is copied, and the block ends (R153, R166). -/
theorem storedBlock_of_bits (f : Bool) {s : State} {xs : List Byte} {rest : List Bool} (hxs : xs.length ≤ 65535)
    (h : s.bits.drop (aligned s.rpos) = field 16 xs.length ++ field 16 (65535 - xs.length) ++ byteBits xs ++ rest) :
    storedBlock f s = blockEnd (withHeader f 0 (advance (aligned s.rpos + 32 + 8 * xs.length) xs s)) := by
  simp only [List.append_assoc] at h
  have hdata : s.bits.drop (aligned s.rpos + 32) = byteBits xs ++ rest :=
    drop_of_drop_field (p := aligned s.rpos + 16) (drop_of_drop_field h)
  have hcopy := copyRaw_of_bytes 0 (s := moveCursor (aligned s.rpos + 32) (takeHeader f 0 .stored s)) hdata
  rw [storedBlock, storedBody_of_fields (s := takeHeader f 0 .stored s) (by omega) (by omega) h, if_neg (by omega), takeHeader_rpos,
    ← Nat.add_zero xs.length, hcopy]
  exact endOfBlock_eq_blockEnd _

/-- Fields that are no complements raise just past them (R153). -/
theorem storedBlock_of_no_complement (f : Bool) {s : State} {len nlen : Nat} {rest : List Bool} (hlen : len < 65536)
    (hnlen : nlen < 65536) (hne : len + nlen ≠ 65535) (h : s.bits.drop (aligned s.rpos) = field 16 len ++ field 16 nlen ++ rest) :
    storedBlock f s =
      errorAt .malformedBlockHeader (aligned s.rpos + 32) (withHeader f 0 { s with rpos := aligned s.rpos + 32 }) := by
  rw [List.append_assoc] at h
  rw [storedBlock, storedBody_of_fields (s := takeHeader f 0 .stored s) hlen hnlen h, if_pos (by omega), raise_eq_errorAt]
  rfl

/-- A raw byte that is not whole raises before it, the bytes before it being in `OUT` (R153). -/
theorem storedBlock_of_short_byte (f : Bool) {s : State} {len : Nat} {xs : List Byte} {rest : List Bool} (hlen : len < 65536)
    (hxs : xs.length < len) (hrest : rest.length < 8)
    (h : s.bits.drop (aligned s.rpos) = field 16 len ++ field 16 (65535 - len) ++ byteBits xs ++ rest) :
    storedBlock f s = errorAt .truncatedStream (aligned s.rpos + 32 + 8 * xs.length)
      (withHeader f 0 (advance (aligned s.rpos + 32 + 8 * xs.length) xs s)) := by
  simp only [List.append_assoc] at h
  have hdata : s.bits.drop (aligned s.rpos + 32) = byteBits xs ++ rest :=
    drop_of_drop_field (p := aligned s.rpos + 16) (drop_of_drop_field h)
  have hend := length_of_drop h (by simp only [List.length_append, field_length]; omega)
  simp only [List.length_append, field_length, byteBits_length] at hend
  obtain ⟨n, rfl⟩ : ∃ n, len = xs.length + (n + 1) := ⟨len - xs.length - 1, by omega⟩
  have hcopy := copyRaw_of_bytes (n + 1) (s := moveCursor (aligned s.rpos + 32) (takeHeader f 0 .stored s)) hdata
  have hshort : s.bits.length - (aligned s.rpos + 32 + 8 * xs.length) < 8 := by omega
  rw [copyRaw_of_short (by exact hshort)] at hcopy
  rw [storedBlock, storedBody_of_fields (s := takeHeader f 0 .stored s) hlen (by omega) h, if_neg (by omega), takeHeader_rpos, hcopy,
    raise_eq_errorAt]
  rfl

/-- A LEN that is not whole raises at the byte boundary, or at the end of a stream that ends before it (R153). -/
theorem storedBlock_of_short_len (f : Bool) {s : State} (h : s.bits.length < aligned s.rpos + 16) :
    storedBlock f s = errorAt .truncatedStream (min (aligned s.rpos) s.bits.length)
      (withHeader f 0 { s with rpos := min (aligned s.rpos) s.bits.length }) := by
  have halign : alignRead (takeHeader f 0 .stored s) = moveCursor (min (aligned s.rpos) s.bits.length) (takeHeader f 0 .stored s) := rfl
  rw [storedBlock, storedBody, halign, readBits_of_lt (by simp only [moveCursor_bits, moveCursor_rpos, takeHeader_bits]; omega)]
  exact raise_eq_errorAt ..

/-- An NLEN that is not whole raises before it (R153). -/
theorem storedBlock_of_short_nlen (f : Bool) {s : State} (hlen : aligned s.rpos + 16 ≤ s.bits.length)
    (h : s.bits.length < aligned s.rpos + 32) :
    storedBlock f s = errorAt .truncatedStream (aligned s.rpos + 16) (withHeader f 0 { s with rpos := aligned s.rpos + 16 }) := by
  have halign := alignRead_of_le (s := takeHeader f 0 .stored s) (show aligned s.rpos ≤ s.bits.length by omega)
  rw [storedBlock, storedBody, halign,
    readBits_of_le (by simp only [moveCursor_bits, moveCursor_rpos, takeHeader_bits, takeHeader_rpos]; omega)]
  simp only
  rw [readBits_of_lt (by simp only [moveCursor_bits, moveCursor_rpos, takeHeader_bits, takeHeader_rpos]; omega)]
  exact raise_eq_errorAt ..

/-- Settles O33: the five cuts of the stream, each with the lemma on `storedBlock` that names it. -/
theorem storedBlockCopiesItsBytes : Obligations.StoredBlockCopiesItsBytes := by
  unfold Obligations.StoredBlockCopiesItsBytes
  rintro s f a rfl
  exact ⟨fun xs rest hxs h => congrArg Host.Outcome.next (storedBlock_of_bits f hxs h),
    fun h => congrArg Host.Outcome.next (storedBlock_of_short_len f h),
    fun hlen h => congrArg Host.Outcome.next (storedBlock_of_short_nlen f hlen h),
    fun len nlen rest hlen hnlen hne h => congrArg Host.Outcome.next (storedBlock_of_no_complement f hlen hnlen hne h),
    fun len xs rest hlen hxs hrest h => congrArg Host.Outcome.next (storedBlock_of_short_byte f hlen hxs hrest h)⟩

end Sys2Proof.Machine

namespace Sys2Proof.Machine

open Sys2Proof Sys2Proof.Claims

/-! ### The stored blocks are written (R170, R171) -/

@[simp] theorem storedBits_length (f : Bool) (c : List Byte) : (storedBits f c).length = 40 + 8 * c.length := by
  simp only [storedBits, List.length_append, List.length_cons, List.length_nil, List.length_replicate, field_length, byteBits_length]

/-- At a byte boundary a stored block is the claims' bits of it (R171). -/
theorem writeStoredBlock_of_aligned (f : Bool) {c : List Byte} {s : State} (hs : s.bits.length % 8 = 0) (hc : c.length ≤ 65535) :
    writeStoredBlock f c s = { s with bits := s.bits ++ storedBits f c, bfinal := f, btype := 0 } := by
  have hheader : writeHeader f 0 s = { s with bits := s.bits ++ [f, false, false], bfinal := f, btype := 0 } := by
    simp only [writeHeader, pushBits, pushBit, pushAll, List.append_assoc]
    rfl
  have hpad : padWrite (writeHeader f 0 s) =
      { s with bits := s.bits ++ [f, false, false] ++ List.replicate 5 false, bfinal := f, btype := 0 } := by
    have hcount : (8 - (s.bits ++ [f, false, false]).length % 8) % 8 = 5 := by
      rw [List.length_append, show [f, false, false].length = 3 from rfl]; omega
    rw [hheader]
    simp only [padWrite, pushAll, hcount]
  rw [writeStoredBlock, writeRaw_spec, hpad, xor_ffff (by omega)]
  simp only [pushBits, pushAll, storedBits, List.append_assoc]
  rfl

/-- At a byte boundary the stored blocks are the claims' stream of the chunks (R171). -/
theorem writeStoredBlocks_of_aligned {cs : List (List Byte)} (hne : cs ≠ []) (hcs : ∀ c ∈ cs, c.length ≤ 65535) {s : State}
    (hs : s.bits.length % 8 = 0) :
    writeStoredBlocks cs s = { s with bits := s.bits ++ storedStream cs, bfinal := true, btype := 0 } := by
  induction cs generalizing s with
  | nil => exact absurd rfl hne
  | cons c cs ih =>
    have hc := hcs c List.mem_cons_self
    cases cs with
    | nil => exact writeStoredBlock_of_aligned true hs hc
    | cons c' cs =>
      rw [writeStoredBlocks, writeStoredBlock_of_aligned false hs hc, ih (List.cons_ne_nil _ _)
        (fun x hx => hcs x (List.mem_cons_of_mem _ hx)) (by simp only [List.length_append, storedBits_length]; omega), storedStream,
        List.append_assoc]

/-! #### The cut of the input -/

theorem isCut_ne_nil {data : List Byte} {cs : List (List Byte)} (h : isCut data cs) : cs ≠ [] := by
  rintro rfl
  exact h

theorem isCut_length_le {data : List Byte} {cs : List (List Byte)} (h : isCut data cs) : ∀ c ∈ cs, c.length ≤ 65535 := by
  induction cs generalizing data with
  | nil => exact absurd rfl (isCut_ne_nil h)
  | cons c cs ih =>
    cases cs with
    | nil => exact List.forall_mem_singleton.mpr h.2
    | cons c' cs =>
      obtain ⟨hlen, -, -, hrest⟩ := h
      exact List.forall_mem_cons.mpr ⟨hlen.le, ih hrest⟩

theorem flatten_of_isCut {data : List Byte} {cs : List (List Byte)} (h : isCut data cs) : cs.flatten = data := by
  induction cs generalizing data with
  | nil => exact absurd rfl (isCut_ne_nil h)
  | cons c cs ih =>
    cases cs with
    | nil => exact List.flatten_singleton.trans h.1
    | cons c' cs =>
      obtain ⟨-, -, hc, hrest⟩ := h
      rw [List.flatten_cons, ih hrest, hc, List.take_append_drop]

/-- A cut into two chunks or more is one of an input longer than a chunk. -/
theorem length_of_isCut_cons {data c c' : List Byte} {cs : List (List Byte)} (h : isCut data (c :: c' :: cs)) :
    65535 < data.length := by
  have hflat := congrArg List.length (flatten_of_isCut h)
  obtain ⟨hlen, hne, -, -⟩ := h
  have := List.length_pos_iff.mpr hne
  simp only [List.flatten_cons, List.length_append] at hflat
  omega

theorem storedChunks_ne_nil (fuel : Nat) (data : List Byte) : storedChunks fuel data ≠ [] := by
  cases fuel with
  | zero => simp [storedChunks]
  | succ fuel => unfold storedChunks; split <;> simp

/-- The machine's chunks are a cut (R171). -/
theorem isCut_storedChunks {fuel : Nat} {data : List Byte} (h : data.length ≤ 65535 * (fuel + 1)) :
    isCut data (storedChunks fuel data) := by
  induction fuel generalizing data with
  | zero => exact ⟨rfl, by omega⟩
  | succ fuel ih =>
    unfold storedChunks
    split
    case isTrue hshort => exact ⟨rfl, hshort⟩
    case isFalse hlong =>
      have hlong : ¬ data.length ≤ 65535 := hlong
      have hrest : isCut (data.drop 65535) (storedChunks fuel (data.drop 65535)) := ih (by rw [List.length_drop]; omega)
      obtain ⟨c', cs, hcs⟩ := List.exists_cons_of_ne_nil (storedChunks_ne_nil fuel (data.drop 65535))
      change isCut data (data.take 65535 :: storedChunks fuel (data.drop 65535))
      rw [hcs] at hrest ⊢
      refine ⟨List.length_take_of_le (by omega), ?_, rfl, hrest⟩
      rintro rfl
      cases cs with
      | nil =>
        have hnil := congrArg List.length hrest.1
        rw [List.length_nil, List.length_drop] at hnil
        omega
      | cons c cs => exact absurd hrest.1 (by simp)

/-- There is one cut of an input, the machine's (R171; log entry 16). -/
theorem storedChunks_of_isCut {fuel : Nat} {data : List Byte} {cs : List (List Byte)} (hfuel : data.length ≤ 65535 * (fuel + 1))
    (h : isCut data cs) : storedChunks fuel data = cs := by
  induction cs generalizing data fuel with
  | nil => exact absurd rfl (isCut_ne_nil h)
  | cons c cs ih =>
    cases cs with
    | nil =>
      obtain ⟨rfl, hlen⟩ := h
      cases fuel with
      | zero => rfl
      | succ fuel => exact if_pos hlen
    | cons c' cs =>
      have hlong := length_of_isCut_cons h
      obtain ⟨-, -, rfl, hrest⟩ := h
      obtain ⟨fuel, rfl⟩ : ∃ n, fuel = n + 1 := ⟨fuel - 1, by omega⟩
      have hstep : storedChunks (fuel + 1) data = data.take 65535 :: storedChunks fuel (data.drop 65535) := if_neg (Nat.not_le.mpr hlong)
      rw [hstep, ih (by rw [List.length_drop]; omega) hrest]

/-- `DEFLATE STORED` of a cut whose stream is within its limit (R13, R170, R171). -/
theorem exec_deflate_stored {s : State} {mode : BitVec 8} {cs : List (List Byte)} (hs : s.bcState ≠ .failed) (hmode : mode.toNat = 0)
    (hcut : isCut s.inBuf cs) (hw : within s.cfg none (storedStream cs).length) :
    exec (.deflate mode) s = .next (okWith .nothing
      { s with bits := storedStream cs, rpos := 0, bcState := .idle, bfinal := true, btype := 0 }) := by
  have hresult : deflateResult 0 s = okWith .nothing
      { s with bits := storedStream cs, rpos := 0, bcState := .idle, bfinal := true, btype := 0 } := by
    have hchunks : storedChunks s.inBuf.length s.inBuf = cs := storedChunks_of_isCut (by omega) hcut
    have hwrite := writeStoredBlocks_of_aligned (isCut_ne_nil hcut) (isCut_length_le hcut)
      (s := goTo .idle { s with bits := [], rpos := 0 }) rfl
    rw [deflateResult, if_pos rfl, deflateStored, goTo_inBuf, hchunks, hwrite]
    rfl
  have hfits : deflateFits 0 s = true := by
    simp only [deflateFits, hresult, beq_self_eq_true, Bool.true_or, Bool.and_true]
    exact bitsFit_iff.mpr hw
  refine next_unlessFailed hs ?_
  rw [hmode, deflate, if_neg (by decide), hfits]
  exact hresult

/-- Settles O45: the cut is the machine's, and each block is written at a byte boundary. -/
theorem deflateStoredWritesTheChunks : Obligations.DeflateStoredWritesTheChunks := by
  unfold Obligations.DeflateStoredWritesTheChunks
  exact fun s mode cs hs hmode hcut hw => exec_deflate_stored hs hmode hcut hw

end Sys2Proof.Machine

namespace Sys2Proof.Machine

open Sys2Proof Sys2Proof.Claims

/-! ### `INFLATE` undoes `DEFLATE STORED` (R176) -/

theorem inflateStep_of_fetch_ok {s s' : State} {f : Format} {v : Nat} (hf : nextFormat s = some f)
    (h : fetchElement f s = .ok (v, s')) : inflateStep s = performElement f v s' := by
  rw [inflateStep_of_nextFormat hf, h]
  rfl

/-- Where the run of `INFLATE` reaches `Done` with an `OUT` that fits, the command begins and the machine reaches that state. -/
theorem inflate_reaches {s v : State} {n : Nat} (hs : s.bcState ≠ .failed) (hrun : inflateRun n (inflateStart s) = v)
    (hdone : v.bcState = .done) (hw : within s.cfg s.cfg.outCap v.out.length) :
    ∃ u k, exec .inflate s = .next u ∧ run k u = .next v := by
  have hend : running (inflateRun n (inflateStart s)) = false := by rw [hrun]; simp only [running, hdone]
  have hwhole : inflateWhole s = v := (inflateRun_unique (inflateWhole_ends s) hend).trans hrun
  obtain ⟨k, -, hk⟩ := run_reaches_inflateRun (inflateStart_runInv s) n
  exact ⟨_, k, exec_inflate_of_within hs (hwhole ▸ hw), hrun ▸ hk⟩

/-- One step reads a whole stored block that begins at a byte boundary (R152, R153). -/
theorem inflateStep_of_storedBits {s : State} {f : Bool} {c : List Byte} {rest : List Bool} (hb : s.bcState = .readHeader)
    (ha : s.rpos % 8 = 0) (hc : c.length ≤ 65535) (h : s.bits.drop s.rpos = storedBits f c ++ rest) :
    inflateStep s = blockEnd (withHeader f 0 (advance (s.rpos + (storedBits f c).length) c s)) := by
  have hheader := inflateStep_of_fetch_ok (f := .blkHdr) (by simp [nextFormat, hb]) (fetchHeader_of_bits h)
  have halign : aligned (s.rpos + 3) = s.rpos + 8 := by unfold aligned; omega
  have hbody : (readTo 3 f s).bits.drop (aligned (readTo 3 f s).rpos) =
      field 16 c.length ++ field 16 (65535 - c.length) ++ byteBits c ++ rest := by
    change s.bits.drop (aligned (s.rpos + 3)) = _
    rw [halign]
    refine drop_of_drop_append (w := [f, false, false] ++ List.replicate 5 false) ?_
    rw [h, storedBits]
    simp only [List.append_assoc]
  have hperform : performElement .blkHdr (f.toNat + 2 * (false.toNat + 2 * false.toNat)) (readTo 3 f s) =
      storedBlock f (readTo 3 f s) := by cases f <;> rfl
  have hend : aligned (readTo 3 f s).rpos + 32 + 8 * c.length = s.rpos + (storedBits f c).length := by
    change aligned (s.rpos + 3) + 32 + 8 * c.length = _
    rw [halign, storedBits_length]
    omega
  rw [hheader, hperform, storedBlock_of_bits f hc hbody, hend]
  rfl

/-- As many steps as there are blocks read the stored blocks of chunks, and end the `INFLATE` (R153, R166, R171). -/
theorem inflateRun_of_storedStream {cs : List (List Byte)} (hne : cs ≠ []) (hcs : ∀ c ∈ cs, c.length ≤ 65535) {s : State}
    {rest : List Bool} (hb : s.bcState = .readHeader) (ha : s.rpos % 8 = 0) (h : s.bits.drop s.rpos = storedStream cs ++ rest) :
    inflateRun cs.length s = blockEnd (withHeader true 0 (advance (s.rpos + (storedStream cs).length) cs.flatten s)) := by
  induction cs generalizing s with
  | nil => exact absurd rfl hne
  | cons c cs ih =>
    have hc := hcs c List.mem_cons_self
    have hr : running s = true := by simp only [running, hb]
    rw [List.length_cons, inflateRun_succ hr]
    cases cs with
    | nil =>
      rw [inflateStep_of_storedBits hb ha hc h, List.flatten_singleton]
      rfl
    | cons c' cs =>
      rw [storedStream, List.append_assoc] at h
      rw [inflateStep_of_storedBits hb ha hc h, blockEnd_of_not_final rfl,
        ih (List.cons_ne_nil _ _) (fun x hx => hcs x (List.mem_cons_of_mem _ hx)) rfl ?aligned (drop_of_drop_append h)]
      case aligned => change (s.rpos + (storedBits false c).length) % 8 = 0; rw [storedBits_length]; omega
      simp [blockEnd, withHeader, advance, storedStream, Nat.add_assoc]

/-- The stream of a cut has 40 bits for each chunk, and there are no more chunks than the input has whole ones, and one (R171). -/
theorem storedStream_length_le {data : List Byte} {cs : List (List Byte)} (h : isCut data cs) :
    (storedStream cs).length ≤ 8 * data.length + 40 * (data.length / 65535 + 1) := by
  induction cs generalizing data with
  | nil => exact absurd rfl (isCut_ne_nil h)
  | cons c cs ih =>
    cases cs with
    | nil =>
      obtain ⟨rfl, -⟩ := h
      rw [storedStream, storedBits_length]
      omega
    | cons c' cs =>
      have hlong := length_of_isCut_cons h
      obtain ⟨hlen, -, -, hrest⟩ := h
      have hle := ih hrest
      rw [List.length_drop] at hle
      rw [storedStream, List.length_append, storedBits_length, hlen]
      omega

/-- Settles O47: block by block, each at a byte boundary; no stored block tests the window. -/
theorem storedRoundTrip : Obligations.StoredRoundTrip := by
  unfold Obligations.StoredRoundTrip
  intro s w hs hbits hout
  obtain ⟨cs, hcut⟩ : ∃ cs, isCut s.inBuf cs := ⟨_, isCut_storedChunks (fuel := s.inBuf.length) (by omega)⟩
  have hdeflate := exec_deflate_stored hs (mode := 0) rfl hcut (within_of_le (storedStream_length_le hcut) hbits)
  have hrun := inflateRun_of_storedStream (isCut_ne_nil hcut) (isCut_length_le hcut) (rest := [])
    (s := inflateStart { okWith .nothing
      { s with bits := storedStream cs, rpos := 0, bcState := .idle, bfinal := true, btype := 0 } with window := w })
    rfl rfl (List.append_nil _).symm
  rw [blockEnd_of_final rfl, flatten_of_isCut hcut] at hrun
  obtain ⟨u, k, hinflate, hreach⟩ := inflate_reaches (by simp [okWith]) hrun rfl hout
  exact ⟨_, u, _, k, hdeflate, hinflate, hreach, rfl, rfl, rfl, Nat.zero_add _⟩

end Sys2Proof.Machine

namespace Sys2Proof.Machine

open Sys2Proof Sys2Proof.Claims

/-! ### The header of a dynamic block (R155 to R157) -/

/-- The sum of R122 is the claims' code space. -/
theorem codeSpace_eq_sum (lengths : List Nat) (maxbits : Nat) :
    ((lengths.filter fun l => l != 0).map fun l => 2 ^ (maxbits - l)).sum = codeSpace lengths maxbits := by
  induction lengths with
  | nil => rfl
  | cons l ls ih =>
    unfold codeSpace at ih ⊢
    by_cases h : l = 0 <;> simp [h, ih]

/-- Lengths that are not over-subscribed give their tree (R121, R122). -/
theorem treeFromLengths_of_le {lengths : List Nat} {maxbits : Nat} (h : codeSpace lengths maxbits ≤ 2 ^ maxbits) (s : State) :
    treeFromLengths lengths maxbits s = .ok (treeOfLengths lengths maxbits) := by
  rw [treeFromLengths, overSubscribed, codeSpace_eq_sum, if_neg (by rw [decide_eq_true_eq]; omega)]

/-- Over-subscribed lengths raise at the cursor (R122). -/
theorem treeFromLengths_of_lt {lengths : List Nat} {maxbits : Nat} (h : 2 ^ maxbits < codeSpace lengths maxbits) (s : State) :
    treeFromLengths lengths maxbits s = .error (raise .invalidHuffmanTree s.rpos s) := by
  rw [treeFromLengths, overSubscribed, codeSpace_eq_sum, if_pos (decide_eq_true h)]

/-- Code-length lengths that are not over-subscribed give the code-length tree, and the code lengths are read next (R157). -/
theorem buildClTree_of_le {cl : List Nat} (nlen ndist : Nat) (h : codeSpace cl 7 ≤ 128) (s : State) : buildClTree cl nlen ndist s =
    { s with tCl := treeOfLengths cl 7, dynNlen := nlen, dynNdist := ndist, dynLens := [] } := by
  rw [buildClTree, treeFromLengths_of_le (maxbits := maxBitsCl) h]
  rfl

/-- Over-subscribed code-length lengths raise at the cursor (R157). -/
theorem buildClTree_of_lt {cl : List Nat} (nlen ndist : Nat) (h : 128 < codeSpace cl 7) (s : State) :
    buildClTree cl nlen ndist s = errorAt .invalidHuffmanTree s.rpos s := by
  rw [buildClTree, treeFromLengths_of_lt (maxbits := maxBitsCl) h, raise_eq_errorAt]

/-- Transmitting one more length sets that of the next symbol in the order of R77. -/
theorem clLengths_concat {pre : List Nat} (x : Nat) (h : pre.length < clOrder.length) :
    (clLengths pre).set clOrder[pre.length] x = clLengths (pre ++ [x]) := by
  have hmem : ∀ v < 19, v ∈ clSymbols := by decide
  have hnodup : clSymbols.Nodup := by decide
  refine List.ext_getElem (by simp [clLengths]) fun v h1 _ => ?_
  have hv : v < 19 := by simpa [clLengths] using h1
  simp only [clLengths, List.getElem_set, List.getElem_map, List.getElem_range]
  obtain ⟨j, hj, rfl⟩ := List.getElem_of_mem (hmem v hv)
  rw [hnodup.idxOf_getElem j hj]
  by_cases hjp : j = pre.length
  · subst hjp
    rw [if_pos (by rfl)]
    simp
  · have hne : clOrder[pre.length] ≠ clSymbols[j] := fun he => hjp (hnodup.getElem_inj_iff.mp he).symm
    rw [if_neg hne]
    simp only [List.getD_eq_getElem?_getD]
    obtain hlt | hgt := Nat.lt_or_gt_of_ne hjp
    · rw [List.getElem?_append_left hlt]
    · rw [List.getElem?_eq_none (by omega), List.getElem?_eq_none (by rw [List.length_append, List.length_singleton]; omega)]

theorem flatMap_field_length (n : Nat) (xs : List Nat) : (xs.flatMap (field n)).length = n * xs.length := by
  simp [List.length_flatMap, Nat.mul_comm]

/-- Code-length lengths that stand at the cursor are read, and reading goes on behind them (R156). -/
theorem readClLengths_of_bits {pre xs : List Nat} (k : Nat) (hxs : ∀ x ∈ xs, x < 8) (hlen : pre.length + xs.length + k ≤ 19)
    {rest : List Bool} {s : State} (h : s.bits.drop s.rpos = xs.flatMap (field 3) ++ rest) :
    readClLengths ((clOrder.drop pre.length).take (xs.length + k)) (clLengths pre) s =
      readClLengths ((clOrder.drop (pre.length + xs.length)).take k) (clLengths (pre ++ xs)) (moveCursor (s.rpos + 3 * xs.length) s) := by
  induction xs generalizing pre s with
  | nil => simp [moveCursor]
  | cons x xs ih =>
    rw [List.length_cons] at hlen
    have hpre : pre.length < clOrder.length := show pre.length < 19 by omega
    rw [List.flatMap_cons, List.append_assoc] at h
    have hread := readBits_of_field (show x < 2 ^ 3 from hxs x List.mem_cons_self) h
    rw [List.length_cons, Nat.add_right_comm, List.drop_eq_getElem_cons hpre, List.take_succ_cons, readClLengths, hread]
    simp only
    have hih := ih (pre := pre ++ [x]) (s := moveCursor (s.rpos + 3) s) (fun y hy => hxs y (List.mem_cons_of_mem _ hy))
      (by rw [List.length_append, List.length_singleton]; omega) (drop_of_drop_field h)
    rw [List.length_append, List.length_singleton, List.append_assoc, List.singleton_append] at hih
    rw [clLengths_concat x hpre, hih, Nat.add_right_comm pre.length, Nat.add_assoc pre.length]
    congr 1
    simp only [moveCursor, State.mk.injEq, and_true, true_and]
    omega

theorem clLengths_nil : clLengths [] = List.replicate 19 0 := by decide

/-- The three counts of a dynamic header at the cursor: the test of their ranges, then the code-length lengths (R155, R156). -/
theorem dynamicBody_of_fields {s : State} {hlit hdist hclen : Nat} {rest : List Bool} (h1 : hlit < 32) (h2 : hdist < 32)
    (h3 : hclen < 16) (h : s.bits.drop s.rpos = field 5 hlit ++ field 5 hdist ++ field 4 hclen ++ rest) :
    dynamicBody s =
      if 29 < hlit ∨ 29 < hdist then raise .malformedBlockHeader (s.rpos + 14) (moveCursor (s.rpos + 14) s)
      else settled ((readClLengths (clOrder.take (hclen + 4)) (clLengths []) (moveCursor (s.rpos + 14) s)).map
        fun p => buildClTree p.1 (hlit + 257) (hdist + 1) p.2) := by
  simp only [List.append_assoc] at h
  have hb : (moveCursor (s.rpos + 5) s).bits.drop (moveCursor (s.rpos + 5) s).rpos = field 5 hdist ++ (field 4 hclen ++ rest) :=
    drop_of_drop_field h
  have hc : (moveCursor (s.rpos + 10) s).bits.drop (moveCursor (s.rpos + 10) s).rpos = field 4 hclen ++ rest :=
    drop_of_drop_field (n := 5) hb
  have hlitRead := readBits_of_field (n := 5) h1 h
  have hdistRead : readBits 5 .lsb (moveCursor (s.rpos + 5) s) = .ok (hdist, moveCursor (s.rpos + 10) s) := readBits_of_field h2 hb
  have hclenRead : readBits 4 .lsb (moveCursor (s.rpos + 10) s) = .ok (hclen, moveCursor (s.rpos + 14) s) := readBits_of_field h3 hc
  have hcond : (286 < hlit + 257 ∨ 30 < hdist + 1) ↔ (29 < hlit ∨ 29 < hdist) := by omega
  simp only [dynamicBody, hlitRead, hdistRead, hclenRead, hcond, clLengths_nil]
  refine if_congr Iff.rfl rfl ?_
  rcases readClLengths (clOrder.take (hclen + 4)) (List.replicate 19 0) (moveCursor (s.rpos + 14) s) with s4 | ⟨cl, s4⟩ <;> rfl

/-- A dynamic block's header whose counts are in range, as many code-length lengths standing behind it as are given: the rest of them
is read (R155, R156). -/
theorem dynamicBlock_of_bits (f : Bool) {s : State} {hlit hdist hclen k : Nat} {xs : List Nat} {rest : List Bool} (h1 : hlit ≤ 29)
    (h2 : hdist ≤ 29) (h3 : hclen < 16) (hlen : xs.length + k = hclen + 4) (hxs : ∀ x ∈ xs, x < 8)
    (h : s.bits.drop s.rpos = field 5 hlit ++ field 5 hdist ++ field 4 hclen ++ xs.flatMap (field 3) ++ rest) :
    dynamicBlock f s =
      settled ((readClLengths ((clOrder.drop xs.length).take k) (clLengths xs)
        (moveCursor (s.rpos + 14 + 3 * xs.length) (takeHeader f 2 .dynamicHuffman s))).map
          fun p => buildClTree p.1 (hlit + 257) (hdist + 1) p.2) := by
  rw [List.append_assoc] at h
  have hlens : s.bits.drop (s.rpos + 14) = xs.flatMap (field 3) ++ rest :=
    drop_of_drop_append (w := field 5 hlit ++ field 5 hdist ++ field 4 hclen) h
  have hread := readClLengths_of_bits (pre := []) k hxs (by rw [List.length_nil]; omega)
    (s := moveCursor (s.rpos + 14) (takeHeader f 2 .dynamicHuffman s)) hlens
  rw [List.length_nil, List.drop_zero, Nat.zero_add, List.nil_append, hlen] at hread
  rw [dynamicBlock, dynamicBody_of_fields (s := takeHeader f 2 .dynamicHuffman s) (by omega) (by omega) h3 h, if_neg (by omega),
    takeHeader_rpos, hread]
  rfl

/-- A count of a dynamic header that is not whole raises before it (R155). -/
theorem dynamicBody_of_short_count {s : State} {p : Nat} (hp : (p = s.rpos ∧ s.bits.length < p + 5) ∨
    (p = s.rpos + 5 ∧ p ≤ s.bits.length ∧ s.bits.length < p + 5) ∨
      (p = s.rpos + 10 ∧ p ≤ s.bits.length ∧ s.bits.length < p + 4)) :
    dynamicBody s = raise .truncatedStream p (moveCursor p s) := by
  unfold dynamicBody
  obtain ⟨rfl, hshort⟩ | ⟨rfl, hle, hshort⟩ | ⟨rfl, hle, hshort⟩ := hp
  · rw [readBits_of_lt (by omega)]
    rfl
  · rw [readBits_of_le (by omega)]
    simp only
    rw [readBits_of_lt (by simp only [moveCursor_bits, moveCursor_rpos]; omega)]
    rfl
  · rw [readBits_of_le (by omega)]
    simp only
    rw [readBits_of_le (by simp only [moveCursor_bits, moveCursor_rpos]; omega)]
    simp only
    rw [readBits_of_lt (by simp only [moveCursor_bits, moveCursor_rpos]; omega)]
    rfl

/-- Settles O35: the counts and the lengths are read in their order, and the tree of the lengths is built or raises. -/
theorem dynamicHeaderBuildsTheCodeLengthTree : Obligations.DynamicHeaderBuildsTheCodeLengthTree := by
  unfold Obligations.DynamicHeaderBuildsTheCodeLengthTree
  refine fun s f => ⟨fun hlit hdist hclen xs rest h1 h2 h3 hlen hxs h => ?_, fun hlit hdist hclen rest h1 h2 h3 hfar h => ?_,
    fun p _ hp => congrArg Host.Outcome.next ?_,
    fun hlit hdist hclen xs rest p h1 h2 h3 hlen hxs hrest hp h => congrArg Host.Outcome.next ?_⟩
  · have hblock : dynamicBlock f s = buildClTree (clLengths xs) (hlit + 257) (hdist + 1)
        (moveCursor (s.rpos + 14 + 3 * xs.length) (takeHeader f 2 .dynamicHuffman s)) :=
      dynamicBlock_of_bits f (k := 0) h1 h2 h3 hlen hxs h
    exact ⟨fun hspace => congrArg Host.Outcome.next (hblock.trans (buildClTree_of_le _ _ hspace _)),
      fun hspace => congrArg Host.Outcome.next (hblock.trans (buildClTree_of_lt _ _ hspace _))⟩
  · refine congrArg Host.Outcome.next ?_
    rw [dynamicBlock, dynamicBody_of_fields (s := takeHeader f 2 .dynamicHuffman s) h1 h2 h3 h, if_pos hfar, raise_eq_errorAt]
    rfl
  · rw [dynamicBlock, dynamicBody_of_short_count (s := takeHeader f 2 .dynamicHuffman s) hp, raise_eq_errorAt]
    rfl
  · obtain ⟨k, hk⟩ : ∃ k, xs.length + (k + 1) = hclen + 4 := ⟨hclen + 3 - xs.length, by omega⟩
    have hend := congrArg List.length h
    simp only [List.length_drop, List.length_append, field_length, flatMap_field_length] at hend
    have hnext : xs.length < clOrder.length := show xs.length < 19 by omega
    rw [dynamicBlock_of_bits f h1 h2 h3 hk hxs h, List.drop_eq_getElem_cons hnext, List.take_succ_cons, readClLengths,
      readBits_of_lt (by simp only [moveCursor_bits, moveCursor_rpos, takeHeader_bits]; omega), raise_eq_errorAt, hp]
    rfl

end Sys2Proof.Machine

namespace Sys2Proof.Machine

open Sys2Proof Sys2Proof.Claims

/-! ### The code lengths of a dynamic block (R158, R159) -/

/-- The two trees are built and checked in their order, and the block's body begins (R159). -/
theorem buildBlockTrees_eq (s : State) : buildBlockTrees s =
    if 2 ^ 15 < codeSpace (s.dynLens.take s.dynNlen) 15 then raise .invalidHuffmanTree s.rpos s
    else if 2 ^ 15 < codeSpace (s.dynLens.drop s.dynNlen) 15 then
      raise .invalidHuffmanTree s.rpos { s with tLl := treeOfLengths (s.dynLens.take s.dynNlen) 15 }
    else goTo .blockBody
      { s with
        tLl := treeOfLengths (s.dynLens.take s.dynNlen) 15, tD := treeOfLengths (s.dynLens.drop s.dynNlen) 15
        dynNlen := 0, dynNdist := 0, dynLens := [] } := by
  unfold buildBlockTrees
  by_cases hll : 2 ^ 15 < codeSpace (s.dynLens.take s.dynNlen) 15
  · rw [if_pos hll, treeFromLengths_of_lt (maxbits := maxBitsBlock) hll]
  rw [if_neg hll, treeFromLengths_of_le (maxbits := maxBitsBlock) (Nat.not_lt.mp hll)]
  simp only
  by_cases hd : 2 ^ 15 < codeSpace (s.dynLens.drop s.dynNlen) 15
  · rw [if_pos hd, treeFromLengths_of_lt (maxbits := maxBitsBlock) hd]
    rfl
  · rw [if_neg hd, treeFromLengths_of_le (maxbits := maxBitsBlock) (Nat.not_lt.mp hd)]
    rfl

/-- Appending lengths is the claims' `afterLengths` (R158, R159). -/
theorem appendLengths_eq_afterLengths (xs : List Nat) (s : State) : appendLengths xs s = afterLengths (s.dynLens ++ xs) s := by
  unfold afterLengths
  rw [List.length_append]
  obtain ⟨hlt, he⟩ | ⟨hle, he⟩ := appendLengths_cases xs s
  · rw [he, if_pos hlt]
  · rw [he, if_neg (by omega), buildBlockTrees_eq]
    simp only [raise_eq_errorAt]
    rfl

/-- A run whose extra bits are not whole raises before them (R158). -/
theorem repeatLengths_of_short {extra : Nat} (base val : Nat) {s : State} (h : s.bits.length < s.rpos + extra) (hpos : 0 < extra) :
    repeatLengths extra base val s = errorAt .truncatedStream s.rpos s := by
  rw [repeatLengths, readBits_of_lt (by omega), raise_eq_errorAt]

/-- A run whose extra bits stand at the cursor is appended, or goes past the end of the sequence (R158). -/
theorem repeatLengths_of_field {extra e : Nat} (base val : Nat) {s : State} {rest : List Bool} (he : e < 2 ^ extra)
    (h : s.bits.drop s.rpos = field extra e ++ rest) : repeatLengths extra base val s =
      if s.dynNlen + s.dynNdist < s.dynLens.length + (base + e) then
        errorAt .malformedBlockHeader (s.rpos + extra) { s with rpos := s.rpos + extra }
      else afterLengths (s.dynLens ++ List.replicate (base + e) val) { s with rpos := s.rpos + extra } := by
  rw [repeatLengths, readBits_of_field he h]
  simp only [raise_eq_errorAt, appendLengths_eq_afterLengths]
  rfl

/-- Settles O36: a length is appended; a run's extra bits are read or missing, and the run fits or does not. -/
theorem codeLengthSymbolsAppendLengths : Obligations.CodeLengthSymbolsAppendLengths := by
  unfold Obligations.CodeLengthSymbolsAppendLengths
  refine fun s hs => ⟨fun v => congrArg Host.Outcome.next (appendLengths_eq_afterLengths _ s),
    fun hnil => congrArg Host.Outcome.next ?_, fun i extra base val hi => ?_⟩
  · rw [repeatPrevious, hnil, ← raise_eq_errorAt]
    rfl
  · have hexec : exec i s = .next (repeatLengths extra base val s) ∧ 0 < extra := by
      obtain ⟨rfl, rfl, rfl, hlast⟩ | ⟨rfl, rfl, rfl, rfl⟩ | ⟨rfl, rfl, rfl, rfl⟩ := hi
      · exact ⟨congrArg Host.Outcome.next (by rw [repeatPrevious, hlast]), by omega⟩
      · exact ⟨rfl, by omega⟩
      · exact ⟨rfl, by omega⟩
    rw [hexec.1]
    refine ⟨fun h => congrArg Host.Outcome.next (repeatLengths_of_short base val h hexec.2), fun e rest he h => ?_⟩
    rw [repeatLengths_of_field base val he h]
    exact ⟨fun hfit => by rw [if_neg (Nat.not_lt.mpr hfit)], fun hlong => by rw [if_pos hlong]⟩

end Sys2Proof.Machine

namespace Sys2Proof.Machine

open Sys2Proof Sys2Proof.Claims

/-! ### The range tables for writing (R72 to R75) -/

/-- The ranges of a table follow each other without a gap, from `lo` up to `hi`. -/
def tiles : Nat → List RangeRow → Nat → Bool
  | lo, [], hi => decide (hi < lo)
  | lo, r :: rs, hi => decide (r.base ≤ lo) && tiles (r.top + 1) rs hi

theorem exists_row_of_tiles {tab : List RangeRow} {lo hi v : Nat} (h : tiles lo tab hi = true) (hlo : lo ≤ v) (hhi : v ≤ hi) :
    ∃ r ∈ tab, r.base ≤ v ∧ v ≤ r.top := by
  induction tab generalizing lo with
  | nil => exact absurd (of_decide_eq_true h) (by omega)
  | cons r rs ih =>
    simp only [tiles, Bool.and_eq_true, decide_eq_true_eq] at h
    obtain ⟨hbase, hrest⟩ := h
    by_cases htop : v ≤ r.top
    · exact ⟨r, List.mem_cons_self, by omega, htop⟩
    · obtain ⟨r', hr', hv⟩ := ih hrest (by omega)
      exact ⟨r', List.mem_cons_of_mem _ hr', hv⟩

/-- The row for writing a value that a table covers is one of its rows, and contains the value (R73, R75). -/
theorem rowFor_of_tiles {tab : List RangeRow} {lo hi v : Nat} (h : tiles lo tab hi = true) (hlo : lo ≤ v) (hhi : v ≤ hi) :
    rowFor tab v ∈ tab ∧ (rowFor tab v).base ≤ v ∧ v ≤ (rowFor tab v).top := by
  obtain ⟨r, hr, hv⟩ := exists_row_of_tiles h hlo hhi
  unfold rowFor
  cases hfind : tab.find? fun r => decide (r.base ≤ v ∧ v ≤ r.top) with
  | none => exact absurd (decide_eq_true hv) (List.find?_eq_none.mp hfind r hr)
  | some r' => exact ⟨List.mem_of_find?_eq_some hfind, of_decide_eq_true (List.find?_some hfind :)⟩

/-- The rows of the machine's tables are the claims' rows (R72, R74). -/
theorem exists_lengthRow : ∀ r ∈ lenTab, ∃ row ∈ lengthRows, r = ⟨row.symbol, row.extra, row.base, row.top⟩ := by decide

theorem exists_distanceRow : ∀ r ∈ distTab, ∃ row ∈ distanceRows, r = ⟨row.symbol, row.extra, row.base, row.top⟩ := by decide

/-- The length symbols have at most 5 extra bits, enough for their range, and codes of at most 8 bits (R70, R72). -/
theorem lengthRow_bits : ∀ row ∈ lengthRows, row.extra ≤ 5 ∧ row.top < row.base + 2 ^ row.extra ∧
    (fixedLlCode row.symbol).length ≤ 8 := by decide

/-- The distance symbols have at most 13 extra bits, enough for their range (R74). -/
theorem distanceRow_bits : ∀ row ∈ distanceRows, row.extra ≤ 13 ∧ row.top < row.base + 2 ^ row.extra := by decide

/-- The row for writing a match length (R73). -/
theorem rowFor_length {len : Nat} (h3 : 3 ≤ len) (h258 : len ≤ 258) : ∃ row ∈ lengthRows, row.base ≤ len ∧ len ≤ row.top ∧
    rowFor lenTab len = ⟨row.symbol, row.extra, row.base, row.top⟩ := by
  obtain ⟨hmem, hbase, htop⟩ := rowFor_of_tiles (tab := lenTab) (hi := 258) (by decide) h3 h258
  obtain ⟨row, hrow, he⟩ := exists_lengthRow _ hmem
  rw [he] at hbase htop
  exact ⟨row, hrow, hbase, htop, he⟩

/-- The row for writing a distance (R75). -/
theorem rowFor_distance {d : Nat} (h1 : 1 ≤ d) (h2 : d ≤ 32768) : ∃ row ∈ distanceRows, row.base ≤ d ∧ d ≤ row.top ∧
    rowFor distTab d = ⟨row.symbol, row.extra, row.base, row.top⟩ := by
  obtain ⟨hmem, hbase, htop⟩ := rowFor_of_tiles (tab := distTab) (hi := 32768) (by decide) h1 h2
  obtain ⟨row, hrow, he⟩ := exists_distanceRow _ hmem
  rw [he] at hbase htop
  exact ⟨row, hrow, hbase, htop, he⟩

/-! ### The tokens are written in the fixed codes (R172 to R175) -/

theorem encodeSym_fixedLl {x : Nat} (hx : x < 288) (s : State) :
    encodeSym fixedLl x s = pushAll (codeBits (fixedLlCode x)) s := by
  obtain ⟨hcode, -⟩ := fixedTreesHaveTheirCodes.1 x hx
  have hentry : codeOf fixedLl x = fixedLlCode x := by rw [codeOf, List.getD_eq_getElem?_getD, hcode, Option.getD_some]
  rw [encodeSym, hentry, codeBits_eq_msbBits]

theorem encodeSym_fixedD {d : Nat} (hd : d < 32) (s : State) : encodeSym fixedD d s = pushAll (codeBits (fixedDCode d)) s := by
  obtain ⟨hcode, -⟩ := fixedTreesHaveTheirCodes.2 d hd
  have hentry : codeOf fixedD d = fixedDCode d := by rw [codeOf, List.getD_eq_getElem?_getD, hcode, Option.getD_some]
  rw [encodeSym, hentry, codeBits_eq_msbBits]

theorem pushAll_pushAll (bs cs : List Bool) (s : State) : pushAll cs (pushAll bs s) = pushAll (bs ++ cs) s := by
  simp only [pushAll, List.append_assoc]

theorem fixedLlCode_length_le (x : Nat) : (fixedLlCode x).length ≤ 9 := by
  unfold fixedLlCode
  split_ifs <;> simp

/-- A token is written as the claims' bits of it, at most 31 of them (R173, R174). -/
theorem writeToken_of_legal {t : Token} (h : tokenLegal t = true) (s : State) :
    ∃ bs, tokenBits t bs ∧ bs.length ≤ 31 ∧ writeToken t s = pushAll bs s := by
  cases t with
  | literal b =>
    have hlen := fixedLlCode_length_le b.toNat
    have hb := b.isLt
    exact ⟨_, rfl, by rw [codeBits_length]; omega, encodeSym_fixedLl (by omega) s⟩
  | backRef len d =>
    obtain ⟨h3, h258, h1, hmax⟩ := of_decide_eq_true h
    obtain ⟨lr, hlr, hlbase, hltop, hlrow⟩ := rowFor_length h3 h258
    obtain ⟨dr, hdr, hdbase, hdtop, hdrow⟩ := rowFor_distance h1 hmax
    obtain ⟨-, -, hlsym, -⟩ := lengthRow_eq lr hlr
    obtain ⟨-, hdsym, -⟩ := distanceRow_eq dr hdr
    obtain ⟨hlextra, -, hlcode⟩ := lengthRow_bits lr hlr
    obtain ⟨hdextra, -⟩ := distanceRow_bits dr hdr
    refine ⟨_, ⟨lr, hlr, hlbase, hltop, dr, hdr, hdbase, hdtop, rfl⟩, ?_, ?_⟩
    · have hdcode : (fixedDCode dr.symbol).length = 5 := rfl
      simp only [List.length_append, codeBits_length, field_length, hdcode]
      omega
    · simp only [writeToken, writeRanged, hlrow, hdrow]
      rw [encodeSym_fixedLl (by omega), encodeSym_fixedD (by omega)]
      simp only [pushBits, pushAll_pushAll, List.append_assoc]
      rfl

/-- The tokens are written in their order, at most 31 bits each (R172). -/
theorem writeTokens_of_legal {ts : List Token} (h : ∀ t ∈ ts, tokenLegal t = true) (s : State) :
    ∃ bss, List.Forall₂ tokenBits ts bss ∧ bss.flatten.length ≤ 31 * ts.length ∧ writeTokens ts s = pushAll bss.flatten s := by
  induction ts generalizing s with
  | nil => exact ⟨[], .nil, Nat.le_refl 0, by simp [writeTokens, pushAll]⟩
  | cons t ts ih =>
    obtain ⟨bs, hbs, hlen, hwrite⟩ := writeToken_of_legal (h t List.mem_cons_self) s
    obtain ⟨bss, hbss, hlens, hwrites⟩ := ih (fun u hu => h u (List.mem_cons_of_mem _ hu)) (pushAll bs s)
    refine ⟨bs :: bss, .cons hbs hbss, ?_, ?_⟩
    · rw [List.flatten_cons, List.length_append, List.length_cons]; omega
    · rw [writeTokens, hwrite, hwrites, pushAll_pushAll, List.flatten_cons]

/-- The bits of one fixed block, between the header and the end-of-block symbol those of its tokens (R172, R175). -/
def fixedStream (bss : List (List Bool)) : List Bool := [true, true, false] ++ bss.flatten ++ List.replicate 7 false

theorem codeBits_eob : codeBits (fixedLlCode 256) = List.replicate 7 false := by decide

/-- `DEFLATE FIXED` within its limits writes one block of the tokens of the scan (R13, R170, R172 to R175). -/
theorem exec_deflate_fixed {s : State} {mode : BitVec 8} (hs : s.bcState ≠ .failed) (hmode : mode.toNat = 1)
    (hwin : s.window.toNat ≤ 32768) (htok : within s.cfg s.cfg.tokCap s.inBuf.length)
    (hbits : within s.cfg none (31 * s.inBuf.length + 10)) :
    ∃ bss, List.Forall₂ tokenBits (scan s.inBuf s.window.toNat) bss ∧
      exec (.deflate mode) s = .next (okWith .nothing
        { s with
          bits := fixedStream bss, rpos := 0, bcState := .idle, bfinal := true, btype := 1
          tok := scan s.inBuf s.window.toNat }) := by
  have hcount : (scan s.inBuf s.window.toNat).length ≤ s.inBuf.length := greedy_length_le (greedy_scan _ _)
  obtain ⟨bss, hbss, hlen, hwrite⟩ := writeTokens_of_legal (ts := scan s.inBuf s.window.toNat) (scanFrom_legal hwin _ _)
    (writeHeader true 1 (scanned (goTo .idle { s with bits := [], rpos := 0 })))
  have hresult : deflateResult 1 s = okWith .nothing
      { s with
        bits := fixedStream bss, rpos := 0, bcState := .idle, bfinal := true, btype := 1
        tok := scan s.inBuf s.window.toNat } := by
    have hfixed : deflateFixed (goTo .idle { s with bits := [], rpos := 0 }) = encodeSym fixedLl eobSymbol
        (pushAll bss.flatten (writeHeader true 1 (scanned (goTo .idle { s with bits := [], rpos := 0 })))) :=
      congrArg (encodeSym fixedLl eobSymbol) hwrite
    rw [deflateResult, if_neg (by decide), hfixed, encodeSym_fixedLl (by decide), pushAll_pushAll, eobSymbol, codeBits_eob,
      fixedStream, List.append_assoc]
    rfl
  have hfits : deflateFits 1 s = true := by
    have hstream : (fixedStream bss).length ≤ 31 * s.inBuf.length + 10 := by
      simp only [fixedStream, List.length_append, List.length_replicate, List.length_cons, List.length_nil]
      omega
    simp only [deflateFits, hresult, Bool.and_eq_true, Bool.or_eq_true]
    exact ⟨bitsFit_iff.mpr (within_of_le hstream hbits), .inr (tokFits_iff.mpr (within_of_le hcount htok))⟩
  refine ⟨bss, hbss, next_unlessFailed hs ?_⟩
  rw [hmode, deflate, if_neg (by decide), hfits]
  exact hresult

/-- Settles O46: the tokens are those of the scan, which is greedy, and each is written in the fixed codes. -/
theorem deflateFixedWritesTheTokens : Obligations.DeflateFixedWritesTheTokens := by
  unfold Obligations.DeflateFixedWritesTheTokens
  intro s mode hs hmode hwin htok hbits
  obtain ⟨bss, hbss, hexec⟩ := exec_deflate_fixed hs hmode hwin htok hbits
  exact ⟨_, bss, greedy_scan _ _, hbss, hexec⟩

end Sys2Proof.Machine

namespace Sys2Proof.Machine

open Sys2Proof Sys2Proof.Claims

/-! ### `INFLATE` undoes `DEFLATE FIXED` (R176) -/

/-- The body of a fixed block, before a literal/length symbol (R154, R160). -/
structure InFixedBody (s : State) : Prop where
  bcState : s.bcState = .blockBody
  lenPending : s.lenPending = none
  tLl : s.tLl = fixedLl
  tD : s.tD = fixedD

theorem InFixedBody.running {s : State} (h : InFixedBody s) : running s = true := by simp only [Machine.running, h.bcState]

/-- The fixed code of a literal/length symbol at the cursor is read as the symbol (R70, R160). -/
theorem InFixedBody.inflateStep_llSym {s : State} (h : InFixedBody s) {x : Nat} (hx : x < 288) {rest : List Bool}
    (hbits : s.bits.drop s.rpos = codeBits (fixedLlCode x) ++ rest) :
    inflateStep s = llElement x (moveCursor (s.rpos + (codeBits (fixedLlCode x)).length) s) := by
  have hne : codeBits (fixedLlCode x) ≠ [] := List.ne_nil_of_length_pos (by rw [codeBits_length]; exact fixedLlCode_length_pos x)
  have hspells : spells fixedLl (codeBits (fixedLlCode x)) x := spells_of_trieFind hne (trieFind_fixedLl x hx)
  refine inflateStep_of_fetch_ok (f := .llSym) (by simp [nextFormat, h.bcState, h.lenPending]) ?_
  rw [fetchElement, h.tLl]
  exact decodeSym_of_spells hbits hspells (by rwa [fixedLl_n])

/-- The fixed code of a distance symbol at the cursor is read as the symbol while a length is pending (R70, R163). -/
theorem inflateStep_of_fixedD {s : State} {len d : Nat} (hb : s.bcState = .blockBody) (hl : s.lenPending = some len)
    (ht : s.tD = fixedD) (hd : d < 32) {rest : List Bool} (hbits : s.bits.drop s.rpos = codeBits (fixedDCode d) ++ rest) :
    inflateStep s = dElement d (moveCursor (s.rpos + (codeBits (fixedDCode d)).length) s) := by
  have hspells : spells fixedD (codeBits (fixedDCode d)) d :=
    spells_of_trieFind (List.ne_nil_of_length_pos (by rw [codeBits_length]; exact Nat.succ_pos 4)) (trieFind_fixedD d hd)
  refine inflateStep_of_fetch_ok (f := .dSym) (by simp [nextFormat, hb, hl]) ?_
  rw [fetchElement, ht]
  exact decodeSym_of_spells hbits hspells (by rwa [fixedD_n])

/-- A match length that is written with its row's extra bits is read back (R72, R73, R163). -/
theorem llElement_of_lengthRow {row : Row} (hrow : row ∈ lengthRows) {len : Nat} (hbase : row.base ≤ len) (htop : len ≤ row.top)
    {s : State} {rest : List Bool} (h : s.bits.drop s.rpos = field row.extra (len - row.base) ++ rest) :
    llElement row.symbol s = { s with rpos := s.rpos + row.extra, lenPending := some len } := by
  obtain ⟨-, h257, h285, -⟩ := lengthRow_eq row hrow
  obtain ⟨-, hrange, -⟩ := lengthRow_bits row hrow
  have h284 : ∀ row ∈ lengthRows, row.symbol = 284 → row.base = 227 ∧ row.top = 257 := by decide
  have hsymbol : llElement row.symbol s = lengthSymbol row.symbol s := by
    simp only [llElement, eobSymbol, if_neg (show ¬ row.symbol ≤ 255 by omega), if_neg (show ¬ row.symbol = 256 by omega), if_pos h285]
  have hlegal : row.symbol ≠ 284 ∨ len - row.base ≠ 31 := by
    by_cases hs : row.symbol = 284
    · have := h284 row hrow hs
      omega
    · exact .inl hs
  have hexec := ((lengthSymbolsGiveTheirLength s row hrow).2 (len - row.base) (by omega)
    (by rw [h, List.take_left' (field_length ..)])).1 hlegal
  rw [exec_lengthRow hrow, Nat.add_sub_cancel' hbase] at hexec
  rw [hsymbol]
  exact Host.Outcome.next.inj hexec

/-- A distance that is written with its row's extra bits is read back, and the match is copied (R74, R75, R164, R165). -/
theorem dElement_of_distanceRow {row : Row} (hrow : row ∈ distanceRows) {d len : Nat} (hbase : row.base ≤ d) (htop : d ≤ row.top)
    {s : State} (hlen : s.lenPending = some len) (hout : d ≤ s.out.length) (hw : d ≤ s.window.toNat) {rest : List Bool}
    (h : s.bits.drop s.rpos = field row.extra (d - row.base) ++ rest) :
    dElement row.symbol s = { s with rpos := s.rpos + row.extra, lenPending := none, out := copyBack d len s.out } := by
  obtain ⟨-, h30, -⟩ := distanceRow_eq row hrow
  obtain ⟨-, hrange⟩ := distanceRow_bits row hrow
  have hsymbol : dElement row.symbol s = distanceSymbol row.symbol s := if_neg (Nat.not_le.mpr h30)
  have hexec := ((distanceSymbolsCopyTheMatch s len hlen row hrow).2 (d - row.base) (by omega)
    (by rw [h, List.take_left' (field_length ..)])).1
  rw [exec_distanceRow hrow, Nat.add_sub_cancel' hbase] at hexec
  rw [hsymbol]
  exact Host.Outcome.next.inj (hexec hout hw)

/-- The step that reads a match length in the fixed codes (R163). -/
theorem InFixedBody.inflateStep_length {s : State} (h : InFixedBody s) {row : Row} (hrow : row ∈ lengthRows) {len : Nat}
    (hbase : row.base ≤ len) (htop : len ≤ row.top) {rest : List Bool}
    (hbits : s.bits.drop s.rpos = codeBits (fixedLlCode row.symbol) ++ field row.extra (len - row.base) ++ rest) :
    inflateStep s = { s with rpos := s.rpos + (codeBits (fixedLlCode row.symbol)).length + row.extra, lenPending := some len } := by
  obtain ⟨-, -, h285, -⟩ := lengthRow_eq row hrow
  rw [List.append_assoc] at hbits
  rw [h.inflateStep_llSym (by omega) hbits]
  exact llElement_of_lengthRow hrow hbase htop (s := moveCursor _ s) (drop_of_drop_append hbits)

/-- The step that reads a distance in the fixed codes, and copies the match (R163 to R165). -/
theorem inflateStep_distance {s : State} {len : Nat} (hb : s.bcState = .blockBody) (hl : s.lenPending = some len) (ht : s.tD = fixedD)
    {row : Row} (hrow : row ∈ distanceRows) {d : Nat} (hbase : row.base ≤ d) (htop : d ≤ row.top) (hout : d ≤ s.out.length)
    (hw : d ≤ s.window.toNat) {rest : List Bool}
    (hbits : s.bits.drop s.rpos = codeBits (fixedDCode row.symbol) ++ field row.extra (d - row.base) ++ rest) :
    inflateStep s = { s with
      rpos := s.rpos + (codeBits (fixedDCode row.symbol)).length + row.extra, lenPending := none, out := copyBack d len s.out } := by
  obtain ⟨-, h30, -⟩ := distanceRow_eq row hrow
  rw [List.append_assoc] at hbits
  rw [inflateStep_of_fixedD hb hl ht (by omega) hbits]
  exact dElement_of_distanceRow hrow hbase htop (s := moveCursor _ s) hl hout hw (drop_of_drop_append hbits)

/-- A token reaches back inside `OUT` and inside the window (R164). -/
def ReachesInside (t : Token) (s : State) : Prop :=
  match t with
  | .literal _ => True
  | .backRef _ d => d ≤ s.out.length ∧ d ≤ s.window.toNat

theorem replay_cons (t : Token) (ts : List Token) (out : List Byte) : replay (t :: ts) out = replay ts (replay [t] out) := by
  cases t <;> rfl

/-- The cursor at `p` and tokens replayed into `OUT` (R142). -/
def replayed (p : Nat) (ts : List Token) (s : State) : State := { s with rpos := p, out := replay ts s.out }

theorem replayed_replayed (p q : Nat) (t : Token) (ts : List Token) (s : State) :
    replayed q ts (replayed p [t] s) = replayed q (t :: ts) s := by
  simp only [replayed, replay_cons t ts]

theorem InFixedBody.replayed {s : State} (h : InFixedBody s) (p : Nat) (ts : List Token) : InFixedBody (replayed p ts s) := { h with }

/-- The bits of a token at the cursor replay it: a literal in one step, a match in two (R160 to R165, R173, R174). -/
theorem InFixedBody.inflateRun_token {s : State} (h : InFixedBody s) {t : Token} {bs rest : List Bool} (ht : tokenBits t bs)
    (hin : ReachesInside t s) (hbits : s.bits.drop s.rpos = bs ++ rest) :
    ∃ n, inflateRun n s = Machine.replayed (s.rpos + bs.length) [t] s := by
  cases t with
  | literal b =>
    obtain rfl : bs = codeBits (fixedLlCode b.toNat) := ht
    have hb := b.isLt
    refine ⟨1, ?_⟩
    rw [inflateRun_succ h.running, h.inflateStep_llSym (by omega) hbits, llElement_literal hb, BitVec.ofNat_toNat, BitVec.setWidth_eq]
    rfl
  | backRef len d =>
    obtain ⟨lr, hlr, hlbase, hltop, dr, hdr, hdbase, hdtop, rfl⟩ := ht
    obtain ⟨hout, hw⟩ := hin
    have hlen : s.bits.drop s.rpos = codeBits (fixedLlCode lr.symbol) ++ field lr.extra (len - lr.base) ++
        (codeBits (fixedDCode dr.symbol) ++ field dr.extra (d - dr.base) ++ rest) := by
      rw [hbits]; simp only [List.append_assoc]
    have hdist := drop_of_drop_append hlen
    rw [List.length_append, field_length, ← Nat.add_assoc] at hdist
    have hfirst := h.inflateStep_length hlr hlbase hltop hlen
    have hrun : Machine.running (inflateStep s) = true := by rw [hfirst]; simp only [Machine.running, h.bcState]
    have hsecond := inflateStep_distance (s := { s with
        rpos := s.rpos + (codeBits (fixedLlCode lr.symbol)).length + lr.extra, lenPending := some len })
      h.bcState rfl h.tD hdr hdbase hdtop hout hw hdist
    refine ⟨2, ?_⟩
    rw [inflateRun_succ h.running, inflateRun_succ hrun, hfirst, hsecond, ← h.lenPending]
    simp only [List.length_append, field_length, Nat.add_assoc]
    rfl

theorem copyBack_length (d n : Nat) (out : List Byte) : (copyBack d n out).length = out.length + n := by
  induction n generalizing out with
  | zero => rfl
  | succ n ih => rw [copyBack, ih, List.length_append, List.length_singleton]; omega

/-- A greedy token reaches back inside what stands before it and inside the window, and behind it the scan is greedy (R136, R137). -/
theorem reachesInside_of_greedy {data : List Byte} {w : Nat} {t : Token} {ts : List Token} {s : State}
    (hw : w ≤ s.window.toNat) (h : greedy data w s.out.length (t :: ts)) :
    ReachesInside t s ∧ greedy data w (replay [t] s.out).length ts := by
  cases t with
  | literal b =>
    obtain ⟨-, -, hrest⟩ := h
    exact ⟨trivial, by rwa [replay, replay, List.length_append, List.length_singleton]⟩
  | backRef len d =>
    obtain ⟨-, -, ⟨-, hdi, hdw⟩, -, -, -, hrest⟩ := h
    exact ⟨⟨hdi, hdw.trans hw⟩, by rwa [replay, replay, copyBack_length]⟩

/-- The bits of greedy tokens at the cursor replay them (R172). -/
theorem InFixedBody.inflateRun_tokens {data : List Byte} {w : Nat} {ts : List Token} {bss : List (List Bool)}
    (hbits : List.Forall₂ tokenBits ts bss) {s : State} (h : InFixedBody s) (hw : w ≤ s.window.toNat)
    (hg : greedy data w s.out.length ts) {rest : List Bool} (hdrop : s.bits.drop s.rpos = bss.flatten ++ rest) :
    ∃ n, inflateRun n s = Machine.replayed (s.rpos + bss.flatten.length) ts s := by
  induction hbits generalizing s with
  | nil => exact ⟨0, rfl⟩
  | @cons t bs ts bss ht _ ih =>
    rw [List.flatten_cons, List.append_assoc] at hdrop
    obtain ⟨hin, hrest⟩ := reachesInside_of_greedy hw hg
    obtain ⟨j, hj⟩ := h.inflateRun_token ht hin hdrop
    obtain ⟨k, hk⟩ := ih (h.replayed (s.rpos + bs.length) [t]) hw hrest (drop_of_drop_append hdrop)
    refine ⟨j + k, ?_⟩
    rw [inflateRun_add, hj, hk, replayed_replayed, List.flatten_cons, List.length_append, ← Nat.add_assoc]
    rfl

/-- The end-of-block symbol at the cursor ends the block in one step (R162, R175). -/
theorem InFixedBody.inflateRun_eob {s : State} (h : InFixedBody s) (hbits : s.bits.drop s.rpos = List.replicate 7 false) :
    inflateRun 1 s = blockEnd (moveCursor (s.rpos + 7) s) := by
  rw [← codeBits_eob, ← List.append_nil (codeBits _)] at hbits
  rw [inflateRun_succ h.running, h.inflateStep_llSym (by decide) hbits, codeBits_length]
  exact endOfBlock_eq_blockEnd _

/-- The state at the body of a last block with the fixed trees, the cursor at `p` (R152, R154). -/
def fixedHeader (p : Nat) (s : State) : State :=
  withHeader true 1 { s with rpos := p, bcState := .blockBody, tLl := fixedLl, tD := fixedD }

/-- One fixed block of greedy tokens is read whole, and ends the `INFLATE` (R154, R166, R172). -/
theorem inflateRun_of_fixedStream {data : List Byte} {w : Nat} {ts : List Token} {bss : List (List Bool)}
    (hg : greedy data w 0 ts) (hbits : List.Forall₂ tokenBits ts bss) {s : State} (hb : s.bcState = .readHeader)
    (hl : s.lenPending = none) (hout : s.out = []) (hw : w ≤ s.window.toNat) (hdrop : s.bits.drop s.rpos = fixedStream bss) :
    ∃ n, inflateRun n s = blockEnd (replayed (s.rpos + (fixedStream bss).length) ts (fixedHeader (s.rpos + 3) s)) := by
  rw [fixedStream, List.append_assoc] at hdrop
  have hr : running s = true := by simp only [running, hb]
  have hheader : inflateStep s = fixedHeader (s.rpos + 3) s := by
    rw [inflateStep_of_fetch_ok (f := .blkHdr) (by simp [nextFormat, hb]) (fetchHeader_of_bits hdrop)]
    exact fixedBlock_eq true (readTo 3 true s)
  have hbody : InFixedBody (fixedHeader (s.rpos + 3) s) := ⟨rfl, hl, rfl, rfl⟩
  have htokens : s.bits.drop (s.rpos + 3) = bss.flatten ++ List.replicate 7 false :=
    drop_of_drop_append (w := [true, true, false]) hdrop
  have hnone : (fixedHeader (s.rpos + 3) s).out.length = 0 := congrArg List.length hout
  obtain ⟨n, hn⟩ := hbody.inflateRun_tokens hbits hw (hnone ▸ hg) htokens
  have heob := (hbody.replayed (s.rpos + 3 + bss.flatten.length) ts).inflateRun_eob (drop_of_drop_append htokens)
  have hlen : (fixedStream bss).length = 3 + bss.flatten.length + 7 := by
    simp only [fixedStream, List.length_append, List.length_replicate, List.length_cons, List.length_nil]
  refine ⟨(n + 1) + 1, ?_⟩
  rw [inflateRun_succ hr, hheader, inflateRun_add, hn]
  refine heob.trans ?_
  rw [hlen, ← Nat.add_assoc, ← Nat.add_assoc]
  rfl

/-- Settles O48: the stream is read back token by token, and replaying the greedy tokens rebuilds the input. -/
theorem fixedRoundTrip : Obligations.FixedRoundTrip := by
  unfold Obligations.FixedRoundTrip
  intro s w hs hwin hw hbits htok hout
  obtain ⟨bss, hbss, hdeflate⟩ := exec_deflate_fixed hs (mode := 1) rfl hwin htok hbits
  have hg := greedy_scan s.inBuf s.window.toNat
  obtain ⟨n, hrun⟩ := inflateRun_of_fixedStream hg hbss
    (s := inflateStart { okWith .nothing
      { s with
        bits := fixedStream bss, rpos := 0, bcState := .idle, bfinal := true, btype := 1
        tok := scan s.inBuf s.window.toNat } with window := w })
    rfl rfl rfl hw rfl
  have hreplay : replay (scan s.inBuf s.window.toNat) [] = s.inBuf := replay_of_greedy hg
  have hfits : within s.cfg s.cfg.outCap (replay (scan s.inBuf s.window.toNat) []).length := by rwa [hreplay]
  rw [blockEnd_of_final rfl] at hrun
  obtain ⟨u, k, hinflate, hreach⟩ := inflate_reaches (by simp [okWith]) hrun rfl hfits
  exact ⟨_, u, _, k, hdeflate, hinflate, hreach, rfl, rfl, hreplay, Nat.zero_add _⟩

end Sys2Proof.Machine

namespace Sys2Proof.Machine

open Sys2Proof Sys2Proof.Claims

/-! ### Words made of fields, and elements made of numbers (R18, R23, R61, R183) -/

/-- The fields of a word do not overlap, so their numbers are added. -/
theorem toNat_append_eq_add {m n : Nat} (x : BitVec m) (y : BitVec n) : (x ++ y).toNat = x.toNat * 2 ^ n + y.toNat := by
  rw [BitVec.toNat_append, ← Nat.shiftLeft_add_eq_or_of_lt y.isLt, Nat.shiftLeft_eq]

/-- Numbers that fit in the elements of a buffer stay what they are. -/
theorem map_toNat_map_ofNat {w : Nat} {xs : List Nat} (h : ∀ x ∈ xs, x ≤ 2 ^ w - 1) :
    (xs.map (BitVec.ofNat w)).map BitVec.toNat = xs := by
  rw [List.map_map]
  have helem (x : Nat) (hx : x ∈ xs) : (BitVec.ofNat w x).toNat = x :=
    (BitVec.toNat_ofNat x w).trans (Nat.mod_eq_of_lt (Nat.lt_of_le_pred (Nat.two_pow_pos w) (h x hx)))
  exact (List.map_congr_left helem).trans (List.map_id xs)

theorem bcStateCode_toNat (b : BcState) : (bcStateCode b).toNat = stateNumber b := by cases b <;> rfl

theorem errKindCode_toNat (k : Option ErrorKind) : (errKindCode k).toNat = kindNumber k := by
  cases k with
  | none => rfl
  | some k => cases k <;> rfl

theorem flagFailed_toNat (s : State) : (flagFailed s).toNat = if s.bcState = .failed then 1 else 0 := by
  unfold flagFailed
  cases s.bcState <;> rfl

theorem flagDone_toNat (s : State) : (flagDone s).toNat = if s.bcState = .done then 1 else 0 := by
  unfold flagDone
  cases s.bcState <;> rfl

/-- `STATUS` is the number that R181 assembles. -/
theorem statusReg_toNat (s : State) : (statusReg s).toNat = statusNumber s := by
  have hbfinal : s.bfinal.toNat = if s.bfinal then 1 else 0 := by cases s.bfinal <;> rfl
  simp only [statusReg, statusNumber, toNat_append_eq_add, BitVec.toNat_ofBool, bcStateCode_toNat, flagFailed_toNat, flagDone_toNat,
    hbfinal]
  split_ifs <;> omega

/-- A token's fields do not pass their widths, so its entry is the number of R23. -/
theorem tokenEntry_toNat {t : Token} (h : tokenLegal t = true) : (tokenEntry t).toNat = tokenNumber t := by
  cases t with
  | literal b => exact BitVec.toNat_setWidth_of_le (by decide)
  | backRef length distance =>
    obtain ⟨-, hlen, -, hdist⟩ := of_decide_eq_true h
    have htag : (1 : BitVec 1).toNat = 1 := rfl
    have hzero : (0 : BitVec 6).toNat = 0 := rfl
    simp only [tokenEntry, tokenNumber, toNat_append_eq_add, BitVec.toNat_ofNat, htag, hzero]
    omega

/-! ### The system commands (R180 to R184) -/

/-! #### `RESET` -/

/-- Settles O1: every field of `resetState` but the parameters and the host's commands is that of `State.reset`. -/
theorem resetGivesTheResetValues : Obligations.ResetGivesTheResetValues := by
  unfold Obligations.ResetGivesTheResetValues
  intro s
  have hlength : (resetState s).freq.length = 256 := List.length_replicate
  have hzero : ∀ f ∈ (resetState s).freq, f = 0 := fun f hf => List.eq_of_mem_replicate hf
  exact ⟨resetState s, rfl, rfl, rfl, rfl, rfl, rfl, rfl, rfl, rfl, rfl, rfl, rfl, hlength, hzero, rfl, rfl, rfl, rfl, rfl, rfl,
    rfl, rfl, rfl, rfl⟩

/-! #### `RDREG` -/

/-- The register map is the claims' list (R18). -/
theorem readRegister_eq (r : Nat) (s : State) : readRegister r s = (registers s)[r]? :=
  match r with
  | 0 => congrArg some (statusReg_toNat s)
  | 1 => congrArg some (errKindCode_toNat s.errKind)
  | 2 | 3 | 4 | 5 | 6 | 7 | 8 | 9 | 10 | 11 => rfl
  | _ + 12 => rfl

/-- Settles O2: the command reads the register map, which is the claims' list (`readRegister_eq`). -/
theorem registerReadReturnsTheRegister : Obligations.RegisterReadReturnsTheRegister := by
  unfold Obligations.RegisterReadReturnsTheRegister
  intro s r
  rw [← readRegister_eq]
  rfl

/-! #### `WRREG` -/

/-- The writes that R62 allows. -/
theorem regWritable_iff {r : BitVec 8} {val : BitVec 32} : WellFormed.regWritable r val = true ↔
    (r.toNat = 4 ∧ 1 ≤ val.toNat ∧ val.toNat ≤ 32768) ∨ (r.toNat = 5 ∧ 1 ≤ val.toNat ∧ val.toNat ≤ 288) := by
  simp only [WellFormed.regWritable, Bool.or_eq_true, Bool.and_eq_true, beq_iff_eq, decide_eq_true_eq]

theorem writeRegister_window {r : BitVec 8} {val : BitVec 32} (hr : r.toNat = 4) (h1 : 1 ≤ val.toNat) (h2 : val.toNat ≤ 32768)
    (s : State) : writeRegister r val s = finish .nothing { s with window := BitVec.ofNat 16 val.toNat } := by
  simp only [writeRegister, hr]
  exact if_neg (by omega)

theorem writeRegister_hufN {r : BitVec 8} {val : BitVec 32} (hr : r.toNat = 5) (h1 : 1 ≤ val.toNat) (h2 : val.toNat ≤ 288)
    (s : State) : writeRegister r val s = finish .nothing
      { s with hufN := BitVec.ofNat 9 val.toNat, freq := List.replicate val.toNat 0, tUser := { s.tUser with built := false } } := by
  simp only [writeRegister, hr]
  exact if_neg (by omega)

/-- Settles O3: the two legal writes by their equations; every other write is ill-formed (`exec_of_not_wellFormed`). -/
theorem registerWriteSetsWindowOrAlphabet : Obligations.RegisterWriteSetsWindowOrAlphabet := by
  unfold Obligations.RegisterWriteSetsWindowOrAlphabet
  intro s r val hs
  have hrefused (h : ¬ WellFormed.regWritable r val = true) : exec (.wrreg r val) s = .next (refusedIn s) :=
    exec_of_not_wellFormed (Bool.not_eq_true _ ▸ h) s
  rw [regWritable_iff] at hrefused
  refine ⟨fun hr h1 h2 => ?_, fun hr h1 h2 => ?_, fun _ _ => hrefused (by omega), fun _ _ => hrefused (by omega),
    fun _ _ => hrefused (by omega)⟩
  · exact ⟨_, next_unlessFailed hs (writeRegister_window hr h1 h2 s), Nat.mod_eq_of_lt (by omega), rfl⟩
  · exact ⟨_, next_unlessFailed hs (writeRegister_hufN hr h1 h2 s), Nat.mod_eq_of_lt (by omega), List.length_replicate,
      fun f hf => List.eq_of_mem_replicate hf, rfl, rfl⟩

/-! #### `LDBUF` -/

theorem exec_ldbuf {s : State} (hs : s.bcState ≠ .failed) (b : BitVec 8) (n : BitVec 32) :
    exec (.ldbuf b n) s = loadBuffer b n s := if_neg hs

/-- The test of `LDBUF` for the length of `IN` and of `SYM` (R13, R183). -/
theorem pastLimit_iff {c : Config} {cap : Option Nat} {n : Nat} : decide (lengthLimit c cap < n) = true ↔ ¬ within c cap n := by
  rw [decide_eq_true_iff, ← le_lengthLimit_iff, Nat.not_le]

theorem elementsFit_iff {top : Nat} {s : State} : elementsFit top s = true ↔ ∀ x ∈ s.payload, x ≤ top := by
  simp only [elementsFit, List.all_eq_true, decide_eq_true_eq]

section
variable {n : Nat} {refused : Bool} {top : Nat} {load : State → State} {s : State}

/-- A payload of the declared length that passes the tests is loaded. -/
theorem loadPayload_of_fits (hlength : s.payload.length = n) (hr : ¬ refused = true) (hx : ∀ x ∈ s.payload, x ≤ top) :
    loadPayload n refused top load s = .next (finish .nothing (load s)) := by
  rw [loadPayload, if_neg hr, if_neg (not_not.mpr hlength), if_pos (elementsFit_iff.mpr hx)]

/-- A payload of the declared length that fails a test is refused. -/
theorem loadPayload_of_not_fits (hlength : s.payload.length = n) (h : refused = true ∨ ∃ x ∈ s.payload, top < x) :
    loadPayload n refused top load s = .next (refuse s) := by
  by_cases hr : refused = true
  · exact if_pos hr
  · obtain ⟨x, hx, htop⟩ := h.resolve_left hr
    have hwide : ¬ elementsFit top s = true := fun hf => absurd htop (Nat.not_lt.mpr (elementsFit_iff.mp hf x hx))
    rw [loadPayload, if_neg hr, if_neg (not_not.mpr hlength), if_neg hwide]

end

/-- A payload of any length is answered, or its length is not the declared one (log entry 5). -/
theorem loadPayload_cases (n : Nat) (refused : Bool) (top : Nat) (load : State → State) (s : State) :
    (∃ t, loadPayload n refused top load s = .next t) ∨
      (s.payload.length ≠ n ∧ loadPayload n refused top load s = .fault (.payloadMismatch n s.payload.length)) := by
  unfold loadPayload
  split
  · exact .inl ⟨_, rfl⟩
  · split
    · exact .inr ⟨‹_›, rfl⟩
    · split <;> exact .inl ⟨_, rfl⟩

theorem loadBuffer_in {b : BitVec 8} (hb : b.toNat = 0) (n : BitVec 32) (s : State) :
    loadBuffer b n s = loadPayload n.toNat (decide (lengthLimit s.cfg s.cfg.inCap < n.toNat)) 0xFF loadIn s := by
  simp only [loadBuffer, hb]

theorem loadBuffer_sym {b : BitVec 8} (hb : b.toNat = 2) (n : BitVec 32) (s : State) :
    loadBuffer b n s = loadPayload n.toNat (decide (lengthLimit s.cfg s.cfg.symCap < n.toNat)) 0xFFFF loadSym s := by
  simp only [loadBuffer, hb]

theorem loadBuffer_freq {b : BitVec 8} (hb : b.toNat = 4) (n : BitVec 32) (s : State) :
    loadBuffer b n s = loadPayload n.toNat (n.toNat != s.hufN.toNat) 0xFFFFFFFF loadFreq s := by
  simp only [loadBuffer, hb]

/-- Settles O4: buffer by buffer the tests of `loadPayload` are the claim's, and what is loaded has the payload's numbers. -/
theorem bufferLoadReplacesTheBuffer : Obligations.BufferLoadReplacesTheBuffer := by
  unfold Obligations.BufferLoadReplacesTheBuffer
  intro s b n hs hlength
  rw [exec_ldbuf hs]
  refine ⟨fun hb hw hx => ?_, fun hb hw hx => ?_, fun hb hn hx => ?_, fun hb h => ?_, fun hb h => ?_, fun hb h => ?_,
    fun h0 h2 h4 => loadBuffer_refused h0 h2 h4 n s⟩
  · rw [loadBuffer_in hb]
    exact ⟨_, loadPayload_of_fits hlength (pastLimit_iff.not_left.mpr hw) hx, map_toNat_map_ofNat hx, rfl⟩
  · rw [loadBuffer_sym hb]
    exact ⟨_, loadPayload_of_fits hlength (pastLimit_iff.not_left.mpr hw) hx, map_toNat_map_ofNat hx, rfl⟩
  · rw [loadBuffer_freq hb]
    exact ⟨_, loadPayload_of_fits hlength (by simpa using hn) hx, map_toNat_map_ofNat hx, rfl⟩
  · rw [loadBuffer_in hb]
    exact loadPayload_of_not_fits hlength (h.imp_left pastLimit_iff.mpr)
  · rw [loadBuffer_sym hb]
    exact loadPayload_of_not_fits hlength (h.imp_left pastLimit_iff.mpr)
  · rw [loadBuffer_freq hb]
    exact loadPayload_of_not_fits hlength (h.imp_left bne_iff_ne.mpr)

/-! #### `RDBUF` -/

/-- The five buffers are the claims' list (R62), where the tokens are legal. -/
theorem readBuffer_eq (b : Nat) {s : State} (h : ∀ k ∈ s.tok, tokenLegal k = true) : readBuffer b s =
    [s.inBuf.map BitVec.toNat, s.out.map BitVec.toNat, s.sym.map BitVec.toNat, s.tok.map tokenNumber, s.freq.map BitVec.toNat][b]? :=
  match b with
  | 0 | 1 | 2 | 4 => rfl
  | 3 => congrArg some (List.map_congr_left fun k hk => tokenEntry_toNat (h k hk))
  | _ + 5 => rfl

/-- Settles O5: the command reads one of the five buffers (`readBuffer_eq`). -/
theorem bufferReadReturnsTheWholeBuffer : Obligations.BufferReadReturnsTheWholeBuffer := by
  unfold Obligations.BufferReadReturnsTheWholeBuffer
  intro s b h
  rw [← readBuffer_eq b.toNat h]
  rfl

/-! ### The one stop (R196, R203; log entry 5) -/

theorem loadBuffer_cases (b : BitVec 8) (n : BitVec 32) (s : State) : (∃ t, loadBuffer b n s = .next t) ∨
    (s.payload.length ≠ n.toNat ∧ loadBuffer b n s = .fault (.payloadMismatch n.toNat s.payload.length)) := by
  unfold loadBuffer
  split
  case h_4 => exact .inl ⟨_, rfl⟩
  all_goals exact loadPayload_cases ..

/-- Settles O8: `LDBUF` alone may stop (`loadBuffer_cases`); every other meaning is a next state as it is written. -/
theorem onlyAFalsePayloadLengthStops : Obligations.OnlyAFalsePayloadLengthStops := by
  unfold Obligations.OnlyAFalsePayloadLengthStops
  intro s i
  cases i with
  | ldbuf b n =>
    by_cases hs : s.bcState = .failed
    · exact .inl ⟨_, if_pos hs⟩
    · rw [exec_ldbuf hs]
      exact (loadBuffer_cases b n s).imp_right fun ⟨hlength, hfault⟩ => ⟨b, n, rfl, hs, hlength, hfault⟩
  | _ => exact .inl ⟨_, rfl⟩

end Sys2Proof.Machine

namespace Sys2Proof.Machine

open Sys2Proof Sys2Proof.Claims

/-! ### `Failed` until `RESET` (R197, R202) -/

/-- Settles O6: a command either tests `FAILED` first, and is refused, or is one of the four that R197 names. -/
theorem failedRefusesEveryOtherCommand : Obligations.FailedRefusesEveryOtherCommand := by
  unfold Obligations.FailedRefusesEveryOtherCommand
  intro s i hs hi hreset hrdreg hrdbuf htobytes
  cases i with
  | reset => exact absurd rfl hreset
  | rdreg r => exact absurd rfl (hrdreg r)
  | rdbuf b => exact absurd rfl (hrdbuf b)
  | bsTobytes => exact absurd rfl htobytes
  | ldbuf b n => exact if_pos hs
  | wrreg _ _ | bsClear | bsLoad _ | bsPush _ | bsPushbits _ _ _ | bsRead | bsReadbits _ _ | hufCount | hufBuild | hufEncode
  | hufDecode _ | lzScan | inflate | deflate _ => exact congrArg Host.Outcome.next (unlessFailed_of_failed hs)
  | _ => cases hi

/-- In `Failed` a command other than `RESET` changes nothing but the result: it only reads, or it is refused (R197). -/
theorem exec_of_failed {i : Instr} {s : State} (hs : s.bcState = .failed) (hi : i.format = .cmd64) (hreset : i ≠ .reset) :
    ∃ r, exec i s = .next { s with result := r } := by
  by_cases hread : (∃ r, i = .rdreg r) ∨ (∃ b, i = .rdbuf b) ∨ i = .bsTobytes
  · obtain ⟨r, rfl⟩ | ⟨b, rfl⟩ | rfl := hread
    · simp only [exec, execRdreg]
      split <;> exact ⟨_, rfl⟩
    · simp only [exec, execRdbuf]
      split <;> exact ⟨_, rfl⟩
    · exact ⟨_, rfl⟩
  · simp only [not_or, not_exists] at hread
    obtain ⟨hrdreg, hrdbuf, htobytes⟩ := hread
    exact ⟨.refused, failedRefusesEveryOtherCommand s i hs hi hreset hrdreg hrdbuf htobytes⟩

/-- Settles O57: the step takes a command, if there is one, and the command changes the result alone (`exec_of_failed`). -/
theorem failedIsTerminalUntilReset : Obligations.FailedIsTerminalUntilReset := by
  unfold Obligations.FailedIsTerminalUntilReset
  intro s t hs hstep
  have hrun : running s = false := by simp only [running, hs]
  obtain ⟨hempty, hnext⟩ := stepRunsTheNextCommand s hrun
  cases hc : s.cmds with
  | nil =>
    rw [hempty hc] at hstep
    cases hstep
    exact .inl rfl
  | cons c rest =>
    obtain ⟨hok, herr⟩ := hnext c rest hc
    cases hd : decode .cmd64 c.word with
    | error e =>
      rw [herr e hd] at hstep
      cases hstep
      exact .inl rfl
    | ok i =>
      by_cases hreset : i = .reset
      · exact .inr ⟨c, rest, rfl, hreset ▸ hd⟩
      · obtain ⟨r, hr⟩ := exec_of_failed (s := takeCommand c rest s) hs (decodeCommand_format hd) hreset
        have hexec := (hok i hd).symm.trans hstep
        cases hexec.symm.trans hr
        exact .inl rfl

/-! ### Where an error is recorded (R190, R196, R199) -/

/-- An element that enters `Failed` has raised at the cursor it leaves. -/
theorem Performed.raised_of_failed {f : Format} {v : Nat} {s t : State} (h : Performed f v s t) (hs : s.bcState ≠ .failed)
    (ht : t.bcState = .failed) : ∃ k u, t = Machine.raise k u.rpos u := by
  cases h with
  | raised k _ => exact ⟨k, _, rfl⟩
  | @ended u _ _ _ => obtain hb | hb := endOfBlock_bcState u <;> rw [hb] at ht <;> cases ht
  | continued _ hst _ =>
    obtain hb | hb | hb := hst <;> rw [hb] at ht
    · exact absurd ht hs
    · cases ht
    · cases ht

/-- A step inside `INFLATE` that enters `Failed` has raised at the cursor it leaves. -/
theorem StepLeaves.raised_of_failed {s t : State} (h : StepLeaves s t) (hs : s.bcState ≠ .failed) (ht : t.bcState = .failed) :
    ∃ k u, t = Machine.raise k u.rpos u := by
  cases h with
  | stopped k n b _ => exact ⟨k, readTo n b s, rfl⟩
  | performed _ _ _ hp => exact hp.raised_of_failed hs ht

/-- The offset that an error of an instruction records (R199): the end of the stream, at `len`, for the four commands that work in the
writing direction, and the read cursor `rpos` for the others. The eleven commands of R190 have none. -/
def errorCursor (len rpos : Nat) : Instr → Option Nat
  | .bsPush _ | .bsPushbits _ _ _ | .hufCount | .hufEncode => some len
  | .reset | .rdreg _ | .wrreg _ _ | .ldbuf _ _ | .rdbuf _ | .bsClear | .bsLoad _ | .bsTobytes | .hufBuild | .lzScan | .deflate _ => none
  | _ => some rpos

/-- What the command `i` answers: a result that is no error, or an error at its cursor. -/
inductive Answers (i : Instr) : State → Prop
  | refused (s : State) : Answers i (refuse s)
  | finished (v : Value) (s : State) : Answers i (finish v s)
  | started (s : State) : Answers i (inflateStart s)
  | raised (k : ErrorKind) (off : Nat) (s : State) (h : errorCursor s.bits.length s.rpos i = some off := by rfl) : Answers i (raise k off s)

theorem answers_unlessFailed {i : Instr} {s : State} {body : State → State} (h : Answers i (body s)) :
    Answers i (unlessFailed body s) := by
  unfold unlessFailed
  split
  · exact .refused s
  · exact h

theorem answers_unlessTooLong {i : Instr} {s r : State} {fits : Bool} (h : Answers i r) : Answers i (unlessTooLong fits r s) := by
  obtain ⟨-, he⟩ | ⟨-, he⟩ := unlessTooLong_cases fits r s <;> rw [he]
  · exact h
  · exact .refused s

/-! #### The commands that raise no error -/

theorem writeRegister_answers (r : BitVec 8) (val : BitVec 32) (s : State) : Answers (.wrreg r val) (writeRegister r val s) := by
  unfold writeRegister
  split
  · unfold writeWindow
    split
    · exact .refused s
    · exact .finished _ _
  · unfold writeHufN
    split
    · exact .refused s
    · exact .finished _ _
  · exact .refused s

theorem loadPayload_answers {i : Instr} {n : Nat} {refused : Bool} {top : Nat} {load : State → State} {s t : State}
    (h : loadPayload n refused top load s = .next t) : Answers i t := by
  unfold loadPayload at h
  split at h
  · cases h; exact .refused s
  · split at h
    · cases h
    · split at h <;> cases h
      · exact .finished _ _
      · exact .refused s

theorem ldbuf_answers {b : BitVec 8} {n : BitVec 32} {s t : State} (h : exec (.ldbuf b n) s = .next t) : Answers (.ldbuf b n) t := by
  by_cases hs : s.bcState = .failed
  · rw [show exec (.ldbuf b n) s = .next (refuse s) from if_pos hs] at h
    cases h
    exact .refused s
  · rw [exec_ldbuf hs] at h
    unfold loadBuffer at h
    split at h
    case h_4 => cases h; exact .refused s
    all_goals exact loadPayload_answers h

theorem bsLoad_answers (n : BitVec 32) (s : State) : Answers (.bsLoad n) (bsLoad n.toNat s) := by
  unfold bsLoad
  split
  · exact .refused s
  · exact answers_unlessTooLong (.finished _ _)

theorem deflate_answers (mode : BitVec 8) (s : State) : Answers (.deflate mode) (deflate mode.toNat s) := by
  unfold deflate
  split
  · exact .refused s
  · obtain ⟨bs, f, ty, he⟩ := deflateResult_spec mode.toNat s
    rw [he]
    exact answers_unlessTooLong (.finished _ _)

/-! #### The commands that raise at the end of the stream -/

theorem bsPush_answers (bit : BitVec 8) (s : State) : Answers (.bsPush bit) (bsPush bit.toNat s) := by
  unfold bsPush
  split
  · exact .raised _ _ s
  · exact answers_unlessTooLong (.finished _ _)

theorem bsPushbits_answers (value : BitVec 32) (count : BitVec 8) (o : Order) (s : State) :
    Answers (.bsPushbits value count o) (bsPushbits value.toNat count.toNat o s) := by
  unfold bsPushbits
  split
  · exact .refused s
  · split
    · exact .raised _ _ s
    · exact answers_unlessTooLong (.finished _ _)

theorem hufCount_answers (s : State) : Answers .hufCount (hufCount s) := by
  obtain ⟨f, -, he⟩ := countSymbols_cases s.hufN.toNat s.sym { s with freq := List.replicate s.hufN.toNat 0 }
  unfold hufCount
  obtain he | he := he <;> rw [he]
  · exact .finished _ _
  · exact .raised _ _ _

theorem hufEncode_answers (s : State) : Answers .hufEncode (hufEncode s) := by
  unfold hufEncode
  split
  · refine answers_unlessTooLong ?_
    unfold hufEncodeResult
    cases he : encodeSymbols s.tUser s.sym s with
    | ok s' => exact .finished _ s'
    | error s' =>
      obtain ⟨bs, rfl⟩ := encodeSymbols_error_inv he
      exact .raised _ _ _
  · exact .raised _ _ s

/-! #### The commands that raise at the read cursor -/

theorem bsRead_answers (s : State) : Answers .bsRead (bsRead s) := by
  unfold bsRead
  by_cases hend : s.rpos < s.bits.length
  · rw [readBit_of_lt hend]
    exact .finished _ _
  · rw [readBit_of_le (Nat.not_lt.mp hend)]
    exact .raised _ _ s

theorem bsReadbits_answers (count : BitVec 8) (o : Order) (s : State) :
    Answers (.bsReadbits count o) (bsReadbits count.toNat o s) := by
  unfold bsReadbits
  split
  · exact .refused s
  · split
    · exact .finished _ _
    · rename_i hr
      obtain ⟨-, rfl⟩ := readBits_error_inv hr
      exact .raised _ _ s

theorem hufDecode_answers (count : BitVec 32) (s : State) : Answers (.hufDecode count) (hufDecode count.toNat s) := by
  unfold hufDecode
  split
  · refine answers_unlessTooLong ?_
    unfold hufDecodeResult
    cases he : decodeSymbols s.tUser count.toNat { s with sym := [] } with
    | ok s' => exact .finished _ s'
    | error s' =>
      obtain ⟨kind, xs, n, -, -, rfl⟩ := decodeSymbols_error_inv he
      exact .raised _ _ _
  · exact .raised _ _ s

/-! #### Every instruction -/

/-- What every command answers: of the nineteen only seven can raise, each at its cursor. -/
theorem exec_answers {i : Instr} {s t : State} (hi : i.format = .cmd64) (h : exec i s = .next t) : Answers i t := by
  cases i with
  | reset => cases h; exact .finished .nothing (resetState s)
  | rdreg r =>
    cases h
    split
    · exact .finished _ _
    · exact .refused s
  | wrreg r val => cases h; exact answers_unlessFailed (writeRegister_answers r val s)
  | ldbuf b n => exact ldbuf_answers h
  | rdbuf b =>
    cases h
    split
    · exact .finished _ _
    · exact .refused s
  | bsClear => cases h; exact answers_unlessFailed (.finished _ _)
  | bsLoad n => cases h; exact answers_unlessFailed (bsLoad_answers n s)
  | bsPush bit => cases h; exact answers_unlessFailed (bsPush_answers bit s)
  | bsPushbits value count o => cases h; exact answers_unlessFailed (bsPushbits_answers value count o s)
  | bsRead => cases h; exact answers_unlessFailed (bsRead_answers s)
  | bsReadbits count o => cases h; exact answers_unlessFailed (bsReadbits_answers count o s)
  | bsTobytes => cases h; exact .finished _ s
  | hufCount => cases h; exact answers_unlessFailed (hufCount_answers s)
  | hufBuild => cases h; exact answers_unlessFailed (.finished _ _)
  | hufEncode => cases h; exact answers_unlessFailed (hufEncode_answers s)
  | hufDecode count => cases h; exact answers_unlessFailed (hufDecode_answers count s)
  | lzScan => cases h; exact answers_unlessFailed (answers_unlessTooLong (.finished _ _))
  | inflate => cases h; exact answers_unlessFailed (answers_unlessTooLong (.started s))
  | deflate mode => cases h; exact answers_unlessFailed (deflate_answers mode s)
  | _ => cases hi

/-- A command that returns an error records its cursor. -/
theorem Answers.errBitOff {i : Instr} {t : State} (h : Answers i t) {k : ErrorKind} (hk : t.result = .error k) :
    errorCursor t.bits.length t.rpos i = some t.errBitOff := by
  cases h with
  | refused s | finished v s | started s => cases hk
  | raised k off s h => exact h

/-- Every element works in the reading direction. -/
theorem errorCursor_element {i : Instr} (hi : i.format ≠ .cmd64) (len rpos : Nat) : errorCursor len rpos i = some rpos := by
  cases i with
  | reset | rdreg _ | wrreg _ _ | ldbuf _ _ | rdbuf _ | bsClear | bsLoad _ | bsPush _ | bsPushbits _ _ _ | bsRead | bsReadbits _ _
  | bsTobytes | hufCount | hufBuild | hufEncode | hufDecode _ | lzScan | inflate | deflate _ => exact absurd rfl hi
  | _ => rfl

/-- An instruction that enters `Failed` with an error records its cursor. -/
theorem exec_errBitOff {i : Instr} {s t : State} {k : ErrorKind} (hs : s.bcState ≠ .failed) (h : exec i s = .next t)
    (ht : t.bcState = .failed) (hk : t.result = .error k) : errorCursor t.bits.length t.rpos i = some t.errBitOff := by
  by_cases hi : i.format = .cmd64
  · exact (exec_answers hi h).errBitOff hk
  · obtain ⟨k, u, rfl⟩ := (exec_performed hi h).raised_of_failed hs ht
    exact errorCursor_element hi _ _

/-- Settles O58: a step inside `INFLATE` raises at the cursor it leaves; an instruction that enters `Failed` does so by error entry
(O60) and records its `errorCursor`, which the eleven commands of R190 do not have. -/
theorem errorsRecordTheCursor : Obligations.ErrorsRecordTheCursor := by
  unfold Obligations.ErrorsRecordTheCursor
  refine ⟨fun s t hrun hstep ht => ?_, fun s t i hs h ht => ?_⟩
  · obtain ⟨t', hstep', hl⟩ := step_leaves hrun
    cases hstep.symm.trans hstep'
    obtain ⟨k, u, rfl⟩ := hl.raised_of_failed (running_iff.mp hrun).2.2 ht
    exact ⟨⟨k, rfl, rfl⟩, rfl, Nat.shiftRight_eq_div_pow _ 3⟩
  · obtain ⟨-, -, -, hentry, -, -⟩ := flagsAreWrittenOnlyWhereNamed s t i h
    obtain ⟨k, hk, herr⟩ := hentry hs ht
    have hcursor := exec_errBitOff hs h ht hk
    have hne {j : Instr} (hj : errorCursor t.bits.length t.rpos j = none) : i ≠ j := by
      rintro rfl
      cases hj.symm.trans hcursor
    refine ⟨⟨k, congrArg State.errKind herr, hk⟩, congrArg State.errByteOff herr, ?_, hne rfl, fun _ => hne rfl, fun _ _ => hne rfl,
      fun _ _ => hne rfl, fun _ => hne rfl, hne rfl, fun _ => hne rfl, hne rfl, hne rfl, hne rfl, fun _ => hne rfl⟩
    cases i with
    | reset | rdreg _ | wrreg _ _ | ldbuf _ _ | rdbuf _ | bsClear | bsLoad _ | bsTobytes | hufBuild | lzScan | deflate _ => cases hcursor
    | _ => exact (Option.some.inj hcursor).symm

end Sys2Proof.Machine
